-- ==== Sys2Proof/Word.lean ====
section
/-! DEFINITION. The word type of the block: the byte (R11 00_scope.md), and its wrapping sum (R13, R100). -/

namespace Sys2Proof

/-- A byte: 8 bits, an unsigned value 0 to 255 (R11). -/
abbrev Byte := BitVec 8

/-- `add8(a, b) = (a + b) mod 256` (R13). -/
def add8 (a b : Byte) : Byte := a + b

end Sys2Proof
end

