-- ==== Sys2Proof/Config.lean ====
section
/-! DEFINITION. What is fixed when the block is built (R8, R9 00_scope.md; R40 10_state.md), and the free values:
the opaque constants that stand for "no value" and "any value" (R43 10_state.md; U5, U6 93_implementation_defined.md). -/

namespace Sys2Proof

/-- The constants of R8 and the parameters of R9, fixed when the block is built (R40).
`T_RX` is not here: a model keeps no time (R41), see `Config.tRx`.
`CC_START` is not here: the source fixes it, see `Config.ccStart`. -/
structure Config where
  /-- `FLAG`, the frame delimiter (R8). -/
  flag : Byte
  /-- `ESC`, the escape marker (R8). -/
  esc : Byte
  /-- `XORM`, the transformation of an escaped byte (R8). -/
  xorm : Byte
  /-- `ADDR`, the address byte of every request (R8, R71). -/
  addr : Byte
  /-- `RX_HAS_STATE`: a received frame carries a state byte (R9, R75). -/
  rxHasState : Bool
  /-- `CC_STOP` (R80). -/
  ccStop : Byte
  /-- `CC_READ_MEAS` (R80). -/
  ccReadMeas : Byte
  /-- `CC_SLEEP` (R80). -/
  ccSleep : Byte
  /-- `CC_WAKEUP` (R80). -/
  ccWakeup : Byte
  /-- `CC_CLEAN_FAN` (R80). -/
  ccCleanFan : Byte
  /-- `CC_READ_ACI` (R80). -/
  ccReadAci : Byte
  /-- `CC_WRITE_ACI` (R80). -/
  ccWriteAci : Byte
  /-- `CC_DEV_INFO` (R80). -/
  ccDevInfo : Byte
  /-- `CC_READ_VER` (R80). -/
  ccReadVer : Byte
  /-- `CC_RESET` (R80). -/
  ccReset : Byte
  /-- `SUB_ACI`, the autoclean sub-command selector (R81). -/
  subAci : Byte
  /-- `SEL_PRODUCT` (R81). -/
  selProduct : Byte
  /-- `SEL_SERIAL` (R81). -/
  selSerial : Byte
  /-- `VERSION_LEN`, the length of the read-version response payload (R9, R151). -/
  versionLen : Nat
deriving DecidableEq, Repr

/-- The places that hold no value after reset (R43, R45): a byte of one of the three buffers, or a register. -/
inductive Place where
  | txp (i : Nat) | rxb (i : Nat) | str (i : Nat)
  | rAdr | rCmd | rStatus | rLen
  | pm1_0 | pm2_5 | pm4_0 | pm10 | psize | aci | fwVer | hwVer | shdlcVer | strLen
  | cOp | cCmd | cLen | cKind | cValue
  | txPos | txIdx | txEscp | txSum
  | rxAny | rxLeadBad | rxFlags | rxEsc | rxFerr | rxCnt | rxSum
deriving DecidableEq, Repr

/-- The free value of a place nothing has written (R43: "is to be treated as `any value`"; U5: "never zero").
It has no body: nothing proves a value of it. DESIGN CHOICE, log 2. -/
opaque Config.noValue {α : Type} [Inhabited α] (p : Place) : α

/-- The free value of the `n`-th unspecified host read, of width `w` (R31, R33, R209; U6). DESIGN CHOICE, log 4. -/
opaque Config.freeRead (w : Nat) (n : Nat) : BitVec w

/-- `T_RX`, the receive timeout window, OPEN (R9, R190): no rule of a model without a clock reads it. Log 17. -/
opaque Config.tRx : Nat

end Sys2Proof
end

