-- ==== Sys2Proof/Syntax.lean ====
section
/-! DEFINITION. The operations, one constructor per row of spec/opcode_table.json (R86 30_encoding.md). -/

namespace Sys2Proof

/-- The fourteen operations of R86.
The twelve host-invocable ones take their operands from host registers read at `GO` (R86: "Operands in
parentheses are host registers read at `GO`"), so their constructors carry none.
The two function units take theirs as arguments (R108, R111). -/
inductive Instr where
  /-- `START`, `OP` = 0 (R142). -/
  | start
  /-- `STOP`, `OP` = 1 (R143). -/
  | stop
  /-- `READ_MEASUREMENT`, `OP` = 2 (R144). -/
  | readMeasurement
  /-- `SLEEP`, `OP` = 3 (R145). -/
  | sleep
  /-- `WAKEUP`, `OP` = 4 (R146). -/
  | wakeup
  /-- `CLEAN_FAN`, `OP` = 5 (R147). -/
  | cleanFan
  /-- `READ_AUTOCLEAN`, `OP` = 6 (R148). -/
  | readAutoclean
  /-- `WRITE_AUTOCLEAN`, `OP` = 7, operand `ARG_VALUE` (R149). -/
  | writeAutoclean
  /-- `DEVICE_INFO`, `OP` = 8, operand `ARG_KIND` (R150). -/
  | deviceInfo
  /-- `READ_VERSION`, `OP` = 9 (R151). -/
  | readVersion
  /-- `RESET`, `OP` = 10 (R152): a command to the sensor, not the reset event. -/
  | reset
  /-- `XCHG`, `OP` = 11, operands `ARG_CMD`, `ARG_LEN`, `TXP`, `ARG_EXPLEN` (R119). -/
  | xchg
  /-- The function unit `encode(command_code, payload)` (R108). -/
  | encode (cmd : Byte) (payload : List Byte)
  /-- The function unit `decode(wire_bytes)` (R111). -/
  | decode (wire : List Byte)
deriving DecidableEq, Repr

end Sys2Proof
end

