-- ==== Sys2Proof/Machine/Parameters.lean ====
section
/-! DEFINITION. The default parameter values (R8, R9 00_scope.md; R80, R81 30_encoding.md), the sizes derived from
them, what a valid choice of them is, and the command table CC (R158 41_command_layer.md). -/

namespace Sys2Proof

/-- `MAX_PAYLOAD` (R8). -/
def maxPayload : Nat := 255

/-- `CC_START`, fixed by the source (R80). -/
def Config.ccStart : Byte := 0x00

/-- The default constants of R8 and parameters of R9, R80, R81.
The command codes but Start's and the selectors are the spec author's general knowledge (G1): PRESUMED, log 20. -/
def Config.standard : Config where
  flag := 0x7E
  esc := 0x7D
  xorm := 0x20
  addr := 0x00
  rxHasState := false
  ccStop := 0x01
  ccReadMeas := 0x03
  ccSleep := 0x10
  ccWakeup := 0x11
  ccCleanFan := 0x56
  ccReadAci := 0x80
  ccWriteAci := 0x80
  ccDevInfo := 0xD0
  ccReadVer := 0xD1
  ccReset := 0xD3
  subAci := 0x00
  selProduct := 0x00
  selSerial := 0x03
  versionLen := 6

/-- `H`, the count of body bytes before the payload in a received frame (R9, R75). -/
def Config.headerLen (c : Config) : Nat := if c.rxHasState then 4 else 3

/-- `MAX_BODY = H + 1 + 255`, the longest well-formed received body (R9). -/
def Config.maxBody (c : Config) : Nat := c.headerLen + 1 + maxPayload

/-- What a model that takes the constants as arguments must require (R8).
The last clause is DEDUCED, log 16: R151 reads payload offsets 0 to 5 and R153 says every extraction reads only
indices below `R_LEN`. -/
abbrev Config.valid (c : Config) : Prop :=
  c.flag ≠ c.esc ∧ c.xorm ≠ 0 ∧
  (c.flag ^^^ c.xorm ≠ c.flag ∧ c.flag ^^^ c.xorm ≠ c.esc) ∧
  (c.esc ^^^ c.xorm ≠ c.flag ∧ c.esc ^^^ c.xorm ≠ c.esc) ∧
  6 ≤ c.versionLen

/-- The dispatch `CC[op]` of R158: the command code of each typed operation.
None for `XCHG`, whose code is `ARG_CMD`, and for the function units, whose code is an argument. -/
def Config.commandCode (c : Config) : Instr → Option Byte
  | .start => some Config.ccStart
  | .stop => some c.ccStop
  | .readMeasurement => some c.ccReadMeas
  | .sleep => some c.ccSleep
  | .wakeup => some c.ccWakeup
  | .cleanFan => some c.ccCleanFan
  | .readAutoclean => some c.ccReadAci
  | .writeAutoclean => some c.ccWriteAci
  | .deviceInfo => some c.ccDevInfo
  | .readVersion => some c.ccReadVer
  | .reset => some c.ccReset
  | .xchg => none
  | .encode _ _ => none
  | .decode _ => none

end Sys2Proof
end

