-- ==== Sys2Proof/Machine/Wire.lean ====
section
/-! DEFINITION. The types of what crosses the block's boundary: error kinds and decoded responses, the transport's
answers and events, the host's accesses. -/

namespace Sys2Proof.Machine

/-- The seven error kinds, in the source's order (R170 60_exceptions.md). -/
inductive ErrKind where
  /-- "payload too large to encode" (R171). -/
  | encodingError
  /-- "missing/malformed delimiters or invalid escape sequence" (R172). -/
  | framingError
  /-- "integrity check failed" (R173). -/
  | checksumError
  /-- "incomplete frame within timeout" (R174). -/
  | truncatedFrameError
  /-- "no frame observed within the time budget" (R175). -/
  | timeoutError
  /-- "underlying read/write fault" (R176). -/
  | transportError
  /-- "well-formed frame but semantically unexpected content" (R177). -/
  | protocolError
deriving DecidableEq, Repr

/-- What `decode` yields on success (R111 40_frame_codec.md). -/
structure Response where
  adr : Byte
  cmd : Byte
  status : Byte
  payload : List Byte
deriving DecidableEq, Repr

/-- The environment's answer to one `tx_put` (R116). -/
inductive TxAnswer where
  | accept
  | fault
deriving DecidableEq, Repr

/-- One event of the RX stream (R117). -/
inductive RxEvent where
  | byte (b : Byte)
  | timeout
  | fault
deriving DecidableEq, Repr

/-- What the host may write (R44 10_state.md). Indexes outside `TXP` are not expressible (R60). -/
inductive HostWrite where
  | op (v : BitVec 4)
  | argCmd (v : Byte)
  | argLen (v : BitVec 9)
  | argExplen (v : BitVec 9)
  | argValue (v : BitVec 32)
  | argKind (v : BitVec 1)
  | txp (i : Fin 256) (v : Byte)
  | go (v : BitVec 1)
deriving DecidableEq, Repr

/-- What the host may read (R20 to R35). `RXB` is read only through the window `RXP` (R50). -/
inductive HostReg where
  | op | argCmd | argLen | argExplen | argValue | argKind
  | txp (i : Fin 256)
  | go | busy | done | err
  | rAdr | rCmd | rStatus | rLen
  | rxp (i : Fin 255)
  | pm1_0 | pm2_5 | pm4_0 | pm10 | psize | aci | fwVer | hwVer | shdlcVer
  | str (i : Fin 255)
  | strLen
deriving DecidableEq, Repr

/-- A call of one of the two function units, which the host cannot make (R86). Log 11. -/
inductive UnitCall where
  | encode (cmd : Byte) (payload : List Byte)
  | decode (wire : List Byte)
deriving DecidableEq, Repr

/-- What the outside does next, one at a time (R17: the host's accesses; R200: the reset event).
`letRun` lets the block take one step; `pollDone` is R206's "read `DONE` until it is 1": the block steps until then.
DESIGN CHOICE, log 6. -/
inductive Input where
  | write (w : HostWrite)
  | read (r : HostReg)
  | letRun
  | pollDone
  | resetEvent
  | unit (c : UnitCall)
deriving DecidableEq, Repr

end Sys2Proof.Machine
end

