-- ==== Sys2Proof/Machine/Codec.lean ====
section
/-! DEFINITION. The Frame Codec's pure functions, normative by R19 00_scope.md: checksum, stuffing, `encode`,
`decode`, `collect` and `exchange` (R100 to R118 40_frame_codec.md). -/

namespace Sys2Proof.Machine

/-- `sum8` of R101: `sum8(s ++ [b]) = add8(sum8(s), b)`. -/
def sum8 (s : List Byte) : Byte := s.foldl add8 0x00

/-- `chk` of R102: the bitwise-inverted low byte of the sum. -/
def chk (s : List Byte) : Byte := sum8 s ^^^ 0xFF

/-- A reserved byte: equal to `FLAG` or `ESC` (R16, R103). -/
def isReserved (c : Config) (b : Byte) : Bool := b == c.flag || b == c.esc

/-- What may follow `ESC`: the two bytes the stuffer produces (R106, D9). -/
def isEscapedCode (c : Config) (b : Byte) : Bool := b == c.flag ^^^ c.xorm || b == c.esc ^^^ c.xorm

/-- `stuff1` of R103. -/
def stuff1 (c : Config) (b : Byte) : List Byte := if isReserved c b then [c.esc, b ^^^ c.xorm] else [b]

/-- `stuff` of R104. -/
def stuff (c : Config) : List Byte → List Byte
  | [] => []
  | b :: s => stuff1 c b ++ stuff c s

/-- `unstuff` of R106. -/
def unstuff (c : Config) : List Byte → Except ErrKind (List Byte)
  | [] => .ok []
  | [b] => if isReserved c b then .error .framingError else .ok [b]
  | b :: d :: rest =>
    if b = c.flag then .error .framingError
    else if b = c.esc then
      if isEscapedCode c d then (unstuff c rest).map ((d ^^^ c.xorm) :: ·) else .error .framingError
    else (unstuff c (d :: rest)).map (b :: ·)

/-- The request body before its checksum (R71; `hdr` of R108). -/
def requestHead (c : Config) (cmd : Byte) (payload : List Byte) : List Byte :=
  [c.addr, cmd, BitVec.ofNat 8 payload.length] ++ payload

/-- The wire frame around a body (R72). -/
def wireFrame (c : Config) (body : List Byte) : List Byte := [c.flag] ++ stuff c body ++ [c.flag]

/-- `encode` of R108. -/
def frameEncode (c : Config) (cmd : Byte) (payload : List Byte) : Except ErrKind (List Byte) :=
  if payload.length > maxPayload then .error .encodingError
  else .ok (wireFrame c (requestHead c cmd payload ++ [chk (requestHead c cmd payload)]))

/-- Steps 3 to 6 of `decode` (R111), on the unescaped body. -/
def bodyDecode (c : Config) (b : List Byte) : Except ErrKind Response :=
  if b.length < c.headerLen + 1 then .error .truncatedFrameError
  else if sum8 b ≠ 0xFF then .error .checksumError
  else if b.length < c.headerLen + 1 + (b.getD (c.headerLen - 1) 0).toNat then .error .truncatedFrameError
  else if b.length > c.headerLen + 1 + (b.getD (c.headerLen - 1) 0).toNat then .error .framingError
  else .ok {
    adr := b.getD 0 0
    cmd := b.getD 1 0
    status := if c.rxHasState then b.getD 2 0 else 0x00
    payload := (b.drop c.headerLen).take (b.getD (c.headerLen - 1) 0).toNat }

/-- `decode` of R111. -/
def frameDecode (c : Config) (w : List Byte) : Except ErrKind Response :=
  if w.length < 2 ∨ w.head? ≠ some c.flag ∨ w.getLast? ≠ some c.flag then .error .framingError
  else match unstuff c (w.drop 1).dropLast with
    | .error _ => .error .framingError
    | .ok b => bodyDecode c b

/-- How a read phase stands after a sequence of events: a complete frame, an error, or still waiting for the
next event; with what was recorded and the events not taken. -/
inductive Collected where
  | frame (rec : List Byte) (left : List RxEvent)
  | failed (e : ErrKind) (left : List RxEvent)
  | waiting (rec : List Byte)
deriving DecidableEq, Repr

/-- The loop of `collect` (R118), with `rec` recorded so far. -/
def collectFrom (c : Config) (rec : List Byte) : List RxEvent → Collected
  | [] => .waiting rec
  | .fault :: left => .failed .transportError left
  | .timeout :: left => .failed (if rec = [] then .timeoutError else .truncatedFrameError) left
  | .byte b :: left =>
    if b = c.flag ∧ (rec ++ [b]).count c.flag = 2 then .frame (rec ++ [b]) left
    else collectFrom c (rec ++ [b]) left

/-- `collect` of R118. -/
def collect (c : Config) (events : List RxEvent) : Collected := collectFrom c [] events

/-- The write phase of `exchange` (R113 step 2, R114, R116): the bytes accepted, the answers not used, and whether
it is over (`some true`: all accepted; `some false`: a fault; none: an answer is awaited). -/
def offerAll : List Byte → List TxAnswer → List Byte × List TxAnswer × Option Bool
  | [], as => ([], as, some true)
  | _ :: _, [] => ([], [], none)
  | _ :: _, .fault :: as => ([], as, some false)
  | x :: xs, .accept :: as => let r := offerAll xs as; (x :: r.1, r.2)

/-- What an exchange comes to: the bytes sent, what it left of the answers and events, and its result; no result
while the environment still owes an answer or an event. -/
structure Exchanged where
  sent : List Byte
  answersLeft : List TxAnswer
  eventsLeft : List RxEvent
  result : Option (Except ErrKind Response)
deriving DecidableEq, Repr

/-- `exchange` of R113, over the environment's answers and events. `expected_response_len` is not used (D14). -/
def exchange (c : Config) (cmd : Byte) (payload : List Byte) (answers : List TxAnswer) (events : List RxEvent) :
    Exchanged :=
  match frameEncode c cmd payload with
  | .error e => ⟨[], answers, events, some (.error e)⟩
  | .ok w =>
    match offerAll w answers with
    | (sent, left, none) => ⟨sent, left, events, none⟩
    | (sent, left, some false) => ⟨sent, left, events, some (.error .transportError)⟩
    | (sent, left, some true) =>
      match collect c events with
      | .waiting _ => ⟨sent, left, [], none⟩
      | .failed e rest => ⟨sent, left, rest, some (.error e)⟩
      | .frame r rest => ⟨sent, left, rest, some (frameDecode c r)⟩

end Sys2Proof.Machine
end

