-- ==== Sys2Proof/WellFormed.lean ====
section
/-! DEFINITION. Which operations have an encoding. -/

namespace Sys2Proof

/-- An operation is well formed if it has an encoding.
The one that may have none is `encode`: "A payload longer than 255 bytes has no encoding" (R73 30_encoding.md).
It still runs: it yields `EncodingError` (R108). -/
def Instr.wellFormed : Instr → Bool
  | .start | .stop | .readMeasurement | .sleep | .wakeup | .cleanFan => true
  | .readAutoclean | .writeAutoclean | .deviceInfo | .readVersion | .reset | .xchg => true
  | .encode _ payload => decide (payload.length ≤ 255)
  | .decode _ => true

/-- The operations the host can start with `GO` (R86: `encode` and `decode` are "function unit, not host-invocable"). -/
def Instr.hostInvocable : Instr → Bool
  | .start | .stop | .readMeasurement | .sleep | .wakeup | .cleanFan => true
  | .readAutoclean | .writeAutoclean | .deviceInfo | .readVersion | .reset | .xchg => true
  | .encode _ _ | .decode _ => false

end Sys2Proof
end

