-- ==== Sys2Proof/Decode.lean ====
section
/-! DEFINITION. The operation encodings of 30_encoding.md: the `OP` selector (R85, R88), the words a function unit
is given, the encoder of both, and the classification of a 24-bit request header by the opcode table (R90). -/

namespace Sys2Proof

/-- Why a word is no operation. -/
inductive Reject where
  /-- `OP` = 12 to 15 select no operation (R88 (a)). -/
  | reservedSelector (op : BitVec 4)
  /-- More than four bits, or not one word, where an `OP` selector stands (R21). -/
  | notASelector
  /-- Fewer than the three header bytes (R71). -/
  | shortHeader
  /-- A request whose address byte is not `ADDR` (R71). -/
  | badAddress
  /-- A request whose `LEN` byte is not the count of its payload bytes (R71). -/
  | lengthMismatch
deriving DecidableEq, Repr

/-- The operation an `OP` selector starts (R85), reserved values rejected by name (R88 (a)). -/
def decodeSelector (op : BitVec 4) : Except Reject Instr :=
  match op.toNat with
  | 0 => .ok .start
  | 1 => .ok .stop
  | 2 => .ok .readMeasurement
  | 3 => .ok .sleep
  | 4 => .ok .wakeup
  | 5 => .ok .cleanFan
  | 6 => .ok .readAutoclean
  | 7 => .ok .writeAutoclean
  | 8 => .ok .deviceInfo
  | 9 => .ok .readVersion
  | 10 => .ok .reset
  | 11 => .ok .xchg
  | _ => .error (.reservedSelector op)

/-- The unit a word is presented to: the host's `OP` register, or one of the function units (R86). Log 13. -/
inductive Port where
  | host
  | encoder
  | decoder
deriving DecidableEq, Repr

/-- The operation that bytes presented to a unit stand for: on the host's side one `OP` selector (R85); at the
encoder the request header and payload, `hdr` of R108; at the decoder the wire bytes themselves (R111). Log 13. -/
def decodeWords (c : Config) : Port → List Byte → Except Reject Instr
  | .host, [b] => if b.toNat < 16 then decodeSelector (b.setWidth 4) else .error .notASelector
  | .host, _ => .error .notASelector
  | .encoder, adr :: cmd :: len :: payload =>
    if adr ≠ c.addr then .error .badAddress
    else if payload.length ≠ len.toNat then .error .lengthMismatch
    else .ok (.encode cmd payload)
  | .encoder, _ => .error .shortHeader
  | .decoder, wire => .ok (.decode wire)

/-- The `OP` selector of a host-invocable operation (R85). -/
def Instr.selector : Instr → Option (BitVec 4)
  | .start => some 0
  | .stop => some 1
  | .readMeasurement => some 2
  | .sleep => some 3
  | .wakeup => some 4
  | .cleanFan => some 5
  | .readAutoclean => some 6
  | .writeAutoclean => some 7
  | .deviceInfo => some 8
  | .readVersion => some 9
  | .reset => some 10
  | .xchg => some 11
  | .encode _ _ => none
  | .decode _ => none

/-- The words of an operation, with the unit they are presented to. -/
def encode (c : Config) : Instr → Port × List Byte
  | .encode cmd payload => (.encoder, Machine.requestHead c cmd payload)
  | .decode wire => (.decoder, wire)
  | i => (.host, [((i.selector).getD 0).setWidth 8])

/-- The rows of the opcode table whose mask is the whole header: command code and `LEN` of each typed operation
(R80, R82, R90). -/
def typedRows (c : Config) : List (Byte × Byte × Instr) :=
  [(Config.ccStart, 0, .start), (c.ccStop, 0, .stop), (c.ccReadMeas, 0, .readMeasurement), (c.ccSleep, 0, .sleep),
    (c.ccWakeup, 0, .wakeup), (c.ccCleanFan, 0, .cleanFan), (c.ccReadAci, 1, .readAutoclean),
    (c.ccWriteAci, 5, .writeAutoclean), (c.ccDevInfo, 1, .deviceInfo), (c.ccReadVer, 0, .readVersion),
    (c.ccReset, 0, .reset)]

/-- The frame with the given header whose every later body byte is 0. -/
def zeroResponse (c : Config) (adr cmd len : Byte) : List Byte :=
  Machine.wireFrame c ([adr, cmd, len] ++ List.replicate (len.toNat + 1) 0)

/-- The opcode-table row of a header `ADR : CMD : LEN` (R90), the narrowest mask first: the typed rows, then `XCHG`
(any header whose `ADR` is `ADDR`), then `decode` (any header). The row `encode` matches the same words as `XCHG`,
so no header selects it. DESIGN CHOICE, log 12. -/
def decodeHeader (c : Config) (adr cmd len : Byte) : Instr :=
  if adr ≠ c.addr then .decode (zeroResponse c adr cmd len)
  else match (typedRows c).find? (fun r => r.1 == cmd && r.2.1 == len) with
    | some r => r.2.2
    | none => .xchg

/-- The decoder on an opcode-table word, `ADR[23:16] CMD[15:8] LEN[7:0]` (R90), with the default parameters. Log 12. -/
def decodeTableWord (nbits w : Nat) : Option Instr :=
  if nbits = 24 ∧ w < 2 ^ 24 then
    some (decodeHeader Config.standard (BitVec.ofNat 8 (w / 2 ^ 16)) (BitVec.ofNat 8 (w / 2 ^ 8)) (BitVec.ofNat 8 w))
  else none

end Sys2Proof
end

