-- ==== Sys2Proof/Machine/Memory.lean ====
section
/-! DEFINITION. A byte buffer as plain data: a list of (index, byte) with indexes strictly rising. An index that is
not listed holds no value (R43 10_state.md), so no entry equals what an unlisted index holds. Log 3. -/

namespace Sys2Proof.Machine

/-- A byte buffer: the indexes that hold a value, in rising order. -/
abbrev Memory := List Host.Cell

/-- The byte an index holds, none if it holds no value. Every access is one byte (R55). -/
def Memory.get? : Memory → Nat → Option Byte
  | [], _ => none
  | (k, b) :: m, a => if a = k then some b else Memory.get? m a

/-- Write one byte, keeping the indexes rising. -/
def Memory.set : Memory → Nat → Byte → Memory
  | [], a, v => [(a, v)]
  | (k, b) :: m, a, v =>
    if a < k then (a, v) :: (k, b) :: m
    else if a = k then (k, v) :: m
    else (k, b) :: Memory.set m a v

/-- Write bytes at consecutive indexes from `a` up. -/
def Memory.setAll : Memory → Nat → List Byte → Memory
  | m, _, [] => m
  | m, a, v :: vs => Memory.setAll (m.set a v) (a + 1) vs

/-- Every listed index is above `lo` (when there is a bound) and the indexes rise strictly. -/
def Memory.risesAbove : Option Nat → Memory → Bool
  | _, [] => true
  | lo, (k, _) :: m => (match lo with | none => true | some l => decide (l < k)) && Memory.risesAbove (some k) m

/-- The canonical form: indexes strictly rising. -/
def Memory.wf (m : Memory) : Bool := Memory.risesAbove none m

/-- No index at or above `n` is listed: the buffer has `n` bytes (R50). -/
def Memory.fits (m : Memory) (n : Nat) : Bool := m.all (fun cell => decide (cell.1 < n))

end Sys2Proof.Machine
end

