-- ==== Sys2Proof/Machine/State.lean ====
section
/-! DEFINITION. The state of the block (R20 to R46 10_state.md), the outside world as plain data, the reasons a step
stops, and the state after reset (R45). -/

namespace Sys2Proof.Machine

/-- `PHASE` (R36). Value 3 is never taken and is left out (U11). -/
inductive Phase where
  | idle
  | tx
  | rx
deriving DecidableEq, Repr, Inhabited

/-- `tx_pos` (R38). -/
inductive TxPos where
  | sof
  | body
  | eof
deriving DecidableEq, Repr, Inhabited

/-- `rx_flags`, how many `FLAG` bytes have been received (R39). Value 3 is left out (U11). -/
inductive FlagCount where
  | zero
  | one
  | two
deriving DecidableEq, Repr, Inhabited

/-- The operand registers but `TXP` (R21 to R27). -/
structure Operands where
  /-- `OP` (R21). -/
  op : BitVec 4
  /-- `ARG_CMD` (R22). -/
  argCmd : Byte
  /-- `ARG_LEN` (R23). -/
  argLen : BitVec 9
  /-- `ARG_EXPLEN` (R25). -/
  argExplen : BitVec 9
  /-- `ARG_VALUE` (R26). -/
  argValue : BitVec 32
  /-- `ARG_KIND` (R27). -/
  argKind : BitVec 1
deriving DecidableEq, Repr

/-- The raw result registers, written together (R32). -/
structure RawResult where
  /-- `R_ADR`. -/
  adr : Byte
  /-- `R_CMD`. -/
  cmd : Byte
  /-- `R_STATUS`. -/
  status : Byte
  /-- `R_LEN`. -/
  len : Byte
deriving DecidableEq, Repr

/-- The typed result registers but `STR` (R34, R35). -/
structure TypedResult where
  /-- `PM1_0`. -/
  pm1_0 : BitVec 16
  /-- `PM2_5`. -/
  pm2_5 : BitVec 16
  /-- `PM4_0`. -/
  pm4_0 : BitVec 16
  /-- `PM10`. -/
  pm10 : BitVec 16
  /-- `PSIZE`. -/
  psize : BitVec 16
  /-- `ACI`. -/
  aci : BitVec 32
  /-- `FW_VER`. -/
  fwVer : BitVec 16
  /-- `HW_VER`. -/
  hwVer : BitVec 16
  /-- `SHDLC_VER`. -/
  shdlcVer : BitVec 16
  /-- `STR_LEN`. -/
  strLen : Byte
deriving DecidableEq, Repr

/-- The captured operands, written by the `GO` step and constant until `finish` (R37). -/
structure Captured where
  /-- `c_op`. -/
  op : BitVec 4
  /-- `c_cmd`. -/
  cmd : Byte
  /-- `c_len`. -/
  len : BitVec 9
  /-- `c_kind`. -/
  kind : BitVec 1
  /-- `c_value`. -/
  value : BitVec 32
deriving DecidableEq, Repr

/-- The transmit machine (R38). -/
structure TxMachine where
  /-- `tx_pos`. -/
  pos : TxPos
  /-- `tx_idx`. -/
  idx : BitVec 9
  /-- `tx_escp`: `ESC` has been sent and the transformed byte is owed. -/
  escp : Bool
  /-- `tx_sum`. -/
  sum : Byte
deriving DecidableEq, Repr

/-- The receive machine (R39). -/
structure RxMachine where
  /-- `rx_any`. -/
  any : Bool
  /-- `rx_lead_bad`. -/
  leadBad : Bool
  /-- `rx_flags`. -/
  flags : FlagCount
  /-- `rx_esc`. -/
  esc : Bool
  /-- `rx_ferr`. -/
  ferr : Bool
  /-- `rx_cnt`, saturating at `MAX_BODY + 1`. -/
  cnt : BitVec 9
  /-- `rx_sum`. -/
  sum : Byte
deriving DecidableEq, Repr

/-- The model's own fields: the environment and the host as plain data (R17; log 5, log 6), the function units'
output ports (log 11), the values the host read (log 18) and the counter of unspecified reads (log 4). -/
structure Outside where
  /-- The environment's answers to `tx_put`, in order (R116). -/
  txAnswers : List TxAnswer
  /-- The RX stream (R50, R54, R117), next event first. -/
  rxEvents : List RxEvent
  /-- The TX stream (R50, R54): the bytes accepted, oldest first. -/
  txOut : List Byte
  /-- What the outside does next. -/
  inputs : List Input
  /-- What the host's reads answered, oldest first, zero-extended. -/
  readData : List (HostReg × BitVec 32)
  /-- The result of the last call of the function unit `encode`; none before the first. -/
  encOut : Option (Except ErrKind (List Byte))
  /-- The result of the last call of the function unit `decode`; none before the first. -/
  decOut : Option (Except ErrKind Response)
  /-- How many unspecified reads there have been. -/
  freeCount : Nat
deriving DecidableEq, Repr

/-- The state of the machine: the block's state (R20), the parameters it was built with (R40; log 1), the outside. -/
structure State where
  /-- The hardwired constants and parameters (R40): no step writes them. -/
  cfg : Config
  /-- Operand registers (R21 to R27). -/
  opnd : Operands
  /-- `TXP[0..255]` (R24). -/
  txp : Memory
  /-- `PHASE` (R36). `BUSY` is a view of it. -/
  phase : Phase
  /-- `DONE` (R29). -/
  done : Bool
  /-- `ERR` (R30): none is code 0, "boolean success" (R170). -/
  err : Option ErrKind
  /-- `RXB[0..MAX_BODY-1]` (R31). -/
  rxb : Memory
  /-- Raw result registers (R32). -/
  raw : RawResult
  /-- Typed result registers (R34, R35). -/
  typed : TypedResult
  /-- `STR[0..254]` (R35). -/
  str : Memory
  /-- Captured operands (R37). -/
  cap : Captured
  /-- Transmit machine (R38). -/
  tx : TxMachine
  /-- Receive machine (R39). -/
  rx : RxMachine
  /-- The outside (the model's own fields). -/
  out : Outside
deriving DecidableEq, Repr

/-- The block's state after reset (R45), with the parameters it was built with and the outside as it is.
"No value" is the free value of the place (R43; log 2); a buffer that holds no value lists nothing (log 3). -/
def State.afterReset (c : Config) (o : Outside) : State where
  cfg := c
  opnd := { op := 0, argCmd := 0, argLen := 0, argExplen := 0, argValue := 0, argKind := 0 }
  txp := []
  phase := .idle
  done := false
  err := none
  rxb := []
  raw := {
    adr := Config.noValue .rAdr
    cmd := Config.noValue .rCmd
    status := Config.noValue .rStatus
    len := Config.noValue .rLen }
  typed := {
    pm1_0 := Config.noValue .pm1_0
    pm2_5 := Config.noValue .pm2_5
    pm4_0 := Config.noValue .pm4_0
    pm10 := Config.noValue .pm10
    psize := Config.noValue .psize
    aci := Config.noValue .aci
    fwVer := Config.noValue .fwVer
    hwVer := Config.noValue .hwVer
    shdlcVer := Config.noValue .shdlcVer
    strLen := Config.noValue .strLen }
  str := []
  cap := {
    op := Config.noValue .cOp
    cmd := Config.noValue .cCmd
    len := Config.noValue .cLen
    kind := Config.noValue .cKind
    value := Config.noValue .cValue }
  tx := {
    pos := Config.noValue .txPos
    idx := Config.noValue .txIdx
    escp := Config.noValue .txEscp
    sum := Config.noValue .txSum }
  rx := {
    any := Config.noValue .rxAny
    leadBad := Config.noValue .rxLeadBad
    flags := Config.noValue .rxFlags
    esc := Config.noValue .rxEsc
    ferr := Config.noValue .rxFerr
    cnt := Config.noValue .rxCnt
    sum := Config.noValue .rxSum }
  out := o

/-- An outside that has done nothing and offers nothing. Log 5, log 6. -/
def Outside.quiet : Outside where
  txAnswers := []
  rxEvents := []
  txOut := []
  inputs := []
  readData := []
  encOut := none
  decOut := none
  freeCount := 0

/-- The machine right after reset (R45, R201), built with the default parameters (R8, R9). -/
def State.reset : State := State.afterReset Config.standard Outside.quiet

/-- Why the machine stops with a fault: the host broke its protocol. No claim is made of any later state (U7). -/
inductive Fault where
  /-- Raised by `step` on a write of 1 to `GO` while `BUSY = 1` (R207, U7). Safe: the spec gives it no meaning. -/
  | goWhileBusy
  /-- Raised by `step` on a write of `TXP`, `OP` or an `ARG_*` register while `BUSY = 1` (R208, U7). Safe: the spec
  gives it no meaning. -/
  | operandWriteWhileBusy
deriving DecidableEq, Repr

/-- Why a step has no meaning. -/
inductive Refusal where
  /-- Raised by an arm of `exec` that is rejected by name. No arm is. -/
  | notModelled (mnemonic : String)
  /-- Raised by `step` on a `GO` with `OP` = 12 to 15 (R88 (a), U8), and in TX or RX with such a `c_op`, which no run
  reaches (log 15). Safe: the spec says a model refuses it. -/
  | reservedSelector (op : BitVec 4)
deriving DecidableEq, Repr

end Sys2Proof.Machine
end

