-- ==== Sys2Proof/Machine/Flags.lean ====
section
/-! DEFINITION. The control bits (R28, R29 10_state.md), the result code (R30; R170 60_exceptions.md) and the counters
that are not plain registers. -/

namespace Sys2Proof.Machine

/-- `BUSY = (PHASE != IDLE)` at all times (R36). -/
def State.busy (s : State) : Bool := s.phase != .idle

/-- The 4-bit code of an error kind (R170). -/
def ErrKind.code : ErrKind → BitVec 4
  | .encodingError => 1
  | .framingError => 2
  | .checksumError => 3
  | .truncatedFrameError => 4
  | .timeoutError => 5
  | .transportError => 6
  | .protocolError => 7

/-- The content of `ERR`: 0 is the source's "boolean success" (R30). -/
def errCode : Option ErrKind → BitVec 4
  | none => 0
  | some e => e.code

/-- `rx_flags` after one more `FLAG` (R125). From 2 it stays, which no run reaches (log 15). -/
def FlagCount.succ : FlagCount → FlagCount
  | .zero => .one
  | .one => .two
  | .two => .two

/-- `rx_cnt` after one more body byte: counted up to `MAX_BODY`, and `MAX_BODY + 1` from there (R39, R125). -/
def countBody (c : Config) (cnt : BitVec 9) : BitVec 9 :=
  if cnt.toNat < c.maxBody then cnt + 1 else BitVec.ofNat 9 (c.maxBody + 1)

end Sys2Proof.Machine
end

