-- ==== Sys2Proof/Machine/Operands.lean ====
section
/-! DEFINITION. Byte order and fields (R56 20_memory.md; R84 30_encoding.md), the reads of the three buffers, the
request payloads (R82) and the response field extractor (R153 41_command_layer.md). -/

namespace Sys2Proof.Machine

/-- `be16(h, l) = 256*h + l` (R13). -/
def be16 (h l : Byte) : BitVec 16 := h ++ l

/-- `be32(b3, b2, b1, b0)`, `b3` the most significant (R13). -/
def be32 (b3 b2 b1 b0 : Byte) : BitVec 32 := b3 ++ b2 ++ b1 ++ b0

/-- A 32-bit value as four bytes, most significant first (R82, R84). -/
def bytes32 (v : BitVec 32) : List Byte :=
  [v.extractLsb' 24 8, v.extractLsb' 16 8, v.extractLsb' 8 8, v.extractLsb' 0 8]

/-- `TXP[i]`. A byte the buffer holds no value for is a free value, the same at every read (R43, R204, U5; log 2). -/
def State.txpByte (s : State) (i : Nat) : Byte := (s.txp.get? i).getD (Config.noValue (.txp i))

/-- `RXB[i]`, as the block reads it. -/
def State.rxbByte (s : State) (i : Nat) : Byte := (s.rxb.get? i).getD (Config.noValue (.rxb i))

/-- `RXP[i] = RXB[H + i]` (R33). -/
def State.rxpByte (s : State) (i : Nat) : Byte := s.rxbByte (s.cfg.headerLen + i)

/-- `STR[i]` (R35). -/
def State.strByte (s : State) (i : Nat) : Byte := (s.str.get? i).getD (Config.noValue (.str i))

/-- The 16-bit field at payload offset `o` (R84). -/
def State.field16 (s : State) (o : Nat) : BitVec 16 := be16 (s.rxpByte o) (s.rxpByte (o + 1))

/-- The 32-bit field at payload offset `o` (R84). -/
def State.field32 (s : State) (o : Nat) : BitVec 32 :=
  be32 (s.rxpByte o) (s.rxpByte (o + 1)) (s.rxpByte (o + 2)) (s.rxpByte (o + 3))

/-- The index of the string terminator: the least `i < R_LEN` with `RXP[i] = 0x00` (R150, R153). -/
def State.terminator (s : State) : Option Nat :=
  (List.range s.raw.len.toNat).find? (fun i => s.rxpByte i == 0x00)

/-- The payload bytes `RXP[0 .. n-1]` (R33). -/
def State.rxpBytes (s : State) (n : Nat) : List Byte := (List.range n).map s.rxpByte

/-- The request payload of a typed operation (R82). -/
def autocleanReadPayload (s : State) : List Byte := [s.cfg.subAci]

/-- The request payload of `WRITE_AUTOCLEAN` (R82, R149). -/
def autocleanWritePayload (s : State) : List Byte := s.cfg.subAci :: bytes32 s.opnd.argValue

/-- The request payload of `DEVICE_INFO`: the selector of the string `ARG_KIND` asks for (R82, R150). -/
def deviceInfoPayload (s : State) : List Byte :=
  [if s.opnd.argKind = 0 then s.cfg.selProduct else s.cfg.selSerial]

end Sys2Proof.Machine
end

