-- ==== Sys2Proof/Machine/Ops.lean ====
section
/-! DEFINITION. The shared operations: `finish`, how every operation ends, with or without error (R178
60_exceptions.md); the `GO` step (R121), the transmit steps (R122 to R124), the receive steps (R125 to R127), all
40_frame_codec.md; the checks of a typed operation (R140 41_command_layer.md); the reset event (R200). -/

namespace Sys2Proof.Machine

/-- `finish(e)`: `ERR <- e; PHASE <- IDLE; DONE <- 1`, in one step (R178).
It saves no state, switches no mode and transfers control nowhere. -/
def finish (e : Option ErrKind) (s : State) : State := { s with err := e, phase := .idle, done := true }

/-- The transmit machine as the `GO` step leaves it (R121). -/
def TxMachine.fresh : TxMachine := { pos := .sof, idx := 0, escp := false, sum := 0 }

/-- The receive machine as the entry to `RX` leaves it (R124). -/
def RxMachine.fresh : RxMachine :=
  { any := false, leadBad := false, flags := .zero, esc := false, ferr := false, cnt := 0, sum := 0 }

/-- The `GO` step (R121) of the operation with selector `sel`, once the build step has given the command code, the
length of the payload and the content of `TXP`. `step` calls an operation's meaning only when `OP` selects it, so
`c_op <- sel` is R121's copy of `OP` (log 10). -/
def goStep (sel : BitVec 4) (cmd : Byte) (len : BitVec 9) (txp : Memory) (s : State) : State :=
  let built := { s with
    done := false
    err := none
    cap := { op := sel, cmd := cmd, len := len, kind := s.opnd.argKind, value := s.opnd.argValue }
    txp := txp }
  if len.toNat > maxPayload then finish (some .encodingError) built
  else { built with phase := .tx, tx := TxMachine.fresh }

/-- The `GO` step of a typed operation: its payload goes to `TXP[0 ..]`, its length to `c_len` (R121, R140 step 1).
With an empty payload `TXP` is not touched (R24). -/
def goTyped (sel : BitVec 4) (cmd : Byte) (payload : List Byte) (s : State) : State :=
  goStep sel cmd (BitVec.ofNat 9 payload.length) (s.txp.setAll 0 payload) s

/-- `cur`, the body byte being sent (R123). `tx_idx` above `3 + c_len` is not reached (log 15). -/
def curByte (s : State) : Byte :=
  if s.tx.idx.toNat = 0 then s.cfg.addr
  else if s.tx.idx.toNat = 1 then s.cap.cmd
  else if s.tx.idx.toNat = 2 then s.cap.len.setWidth 8
  else if s.tx.idx.toNat ≤ 2 + s.cap.len.toNat then s.txpByte (s.tx.idx.toNat - 3)
  else s.tx.sum ^^^ 0xFF

/-- The body byte is reserved and its `ESC` has not been sent (R123). -/
def needsEscape (s : State) : Bool := !s.tx.escp && isReserved s.cfg (curByte s)

/-- The byte offered to the transport in `TX` (R122 to R124). -/
def txOffer (s : State) : Byte :=
  match s.tx.pos with
  | .sof => s.cfg.flag
  | .body => if needsEscape s then s.cfg.esc else if s.tx.escp then curByte s ^^^ s.cfg.xorm else curByte s
  | .eof => s.cfg.flag

/-- What an `accept` does to the block (R122 to R124). -/
def txAdvance (s : State) : State :=
  match s.tx.pos with
  | .sof => { s with tx := { s.tx with pos := .body } }
  | .body =>
    if needsEscape s then { s with tx := { s.tx with escp := true } }
    else if s.tx.idx.toNat < 3 + s.cap.len.toNat then
      { s with tx := { s.tx with escp := false, sum := add8 s.tx.sum (curByte s), idx := s.tx.idx + 1 } }
    else { s with tx := { s.tx with escp := false, pos := .eof } }
  | .eof => { s with phase := .rx, rx := RxMachine.fresh }

/-- `tx_put` (R116): take the environment's next answer. An accepted byte joins the TX stream (R54), a faulted one
counts as not sent (R114) and ends the operation with `TransportError` (R122 to R124, R176). With no answer the block
waits in `TX`, without limit (R114, R211; log 5). -/
def txStep (s : State) : State :=
  match s.out.txAnswers with
  | [] => s
  | .fault :: rest => finish (some .transportError) { s with out := { s.out with txAnswers := rest } }
  | .accept :: rest =>
    txAdvance { s with out := { s.out with txAnswers := rest, txOut := s.out.txOut ++ [txOffer s] } }

/-- `push(v)` of R125: a body byte is stored while it fits, always counted and summed. -/
def rxPush (v : Byte) (s : State) : State :=
  { s with
    rxb := if s.rx.cnt.toNat < s.cfg.maxBody then s.rxb.set s.rx.cnt.toNat v else s.rxb
    rx := { s.rx with cnt := countBody s.cfg s.rx.cnt, sum := add8 s.rx.sum v } }

/-- The good end of the evaluation: the raw result registers are written together (R32, R127). -/
def writeRaw (s : State) : State :=
  { s with raw := {
      adr := s.rxbByte 0
      cmd := s.rxbByte 1
      status := if s.cfg.rxHasState then s.rxbByte 2 else 0x00
      len := s.rxbByte (s.cfg.headerLen - 1) } }

/-- The evaluation, in the step that receives the second `FLAG` (R127). -/
def evaluate (post : State → State) (s : State) : State :=
  if s.rx.leadBad then finish (some .framingError) s
  else if s.rx.ferr || s.rx.esc then finish (some .framingError) s
  else if s.rx.cnt.toNat < s.cfg.headerLen + 1 then finish (some .truncatedFrameError) s
  else if s.rx.sum ≠ 0xFF then finish (some .checksumError) s
  else if s.rx.cnt.toNat < s.cfg.headerLen + 1 + (s.rxbByte (s.cfg.headerLen - 1)).toNat then
    finish (some .truncatedFrameError) s
  else if s.rx.cnt.toNat > s.cfg.headerLen + 1 + (s.rxbByte (s.cfg.headerLen - 1)).toNat then
    finish (some .framingError) s
  else post (writeRaw s)

/-- The receive step on `byte(b)` (R125). -/
def rxByte (post : State → State) (b : Byte) (s : State) : State :=
  if !s.rx.any then
    if b = s.cfg.flag then { s with rx := { s.rx with any := true, flags := .one } }
    else { s with rx := { s.rx with any := true, leadBad := true } }
  else if b = s.cfg.flag then
    let counted := { s with rx := { s.rx with flags := s.rx.flags.succ } }
    if counted.rx.flags = .two then evaluate post counted else counted
  else if !s.rx.leadBad && s.rx.flags == .one then
    if s.rx.esc then
      let partnered := { s with rx := { s.rx with esc := false } }
      if isEscapedCode s.cfg b then rxPush (b ^^^ s.cfg.xorm) partnered
      else { partnered with rx := { partnered.rx with ferr := true } }
    else if b = s.cfg.esc then { s with rx := { s.rx with esc := true } }
    else rxPush b s
  else s

/-- The receive step on the next event of the RX stream (R125, R126); the event is taken for good (R59).
With no event the block waits in `RX` (log 5). -/
def rxStep (post : State → State) (s : State) : State :=
  match s.out.rxEvents with
  | [] => s
  | .byte b :: rest => rxByte post b { s with out := { s.out with rxEvents := rest } }
  | .timeout :: rest =>
    finish (some (if s.rx.any then .truncatedFrameError else .timeoutError))
      { s with out := { s.out with rxEvents := rest } }
  | .fault :: rest => finish (some .transportError) { s with out := { s.out with rxEvents := rest } }

/-- Steps 3 to 5 of a typed operation (R140): the status (R141), the length, the extraction. -/
def typedPost (accepts : State → Bool) (extract : State → State) (s : State) : State :=
  if s.raw.status ≠ 0x00 then finish (some .protocolError) s
  else if !accepts s then finish (some .protocolError) s
  else finish none (extract s)

/-- One step of a host-invocable operation, by `PHASE` (R120): its `GO` step, a transmit step, a receive step. -/
def runOperation (go post : State → State) (s : State) : Host.Outcome State Fault Refusal :=
  match s.phase with
  | .idle => .next (go s)
  | .tx => .next (txStep s)
  | .rx => .next (rxStep post s)

/-- The reset event (R200): the block's state becomes that of R45; what the transport holds and what was sent stay.
The function units' output ports and the host's record of reads are not block state and stay. Log 14. -/
def resetEvent (s : State) : State := State.afterReset s.cfg s.out

end Sys2Proof.Machine
end

