-- ==== Sys2Proof/Machine/CommandLayer.lean ====
section
/-! DEFINITION. The Command Layer: the eleven typed operations (R140 to R158 41_command_layer.md). Each meaning is
the operation's step by `PHASE`: its build in IDLE, its checks and extraction at the end of RX. -/

namespace Sys2Proof.Machine

/-- The acknowledge-only operations accept a response payload of any length and ignore it (R156). -/
def ackPost : State → State := typedPost (fun _ => true) id

/-- `START` (R142). -/
def execStart (s : State) : Host.Outcome State Fault Refusal :=
  runOperation (goTyped 0 Config.ccStart []) ackPost s

/-- `STOP` (R143). -/
def execStop (s : State) : Host.Outcome State Fault Refusal :=
  runOperation (goTyped 1 s.cfg.ccStop []) ackPost s

/-- `READ_MEASUREMENT` writes its five registers together (R34, R144 step 5). -/
def extractMeasurement (s : State) : State :=
  { s with typed := { s.typed with
      pm1_0 := s.field16 0
      pm2_5 := s.field16 2
      pm4_0 := s.field16 4
      pm10 := s.field16 6
      psize := s.field16 8 } }

/-- `READ_MEASUREMENT` (R144): exactly 10 payload bytes. -/
def execReadMeasurement (s : State) : Host.Outcome State Fault Refusal :=
  runOperation (goTyped 2 s.cfg.ccReadMeas [])
    (typedPost (fun t => t.raw.len.toNat == 10) extractMeasurement) s

/-- `SLEEP` (R145): to the sensor, the block has no power state (R189). -/
def execSleep (s : State) : Host.Outcome State Fault Refusal :=
  runOperation (goTyped 3 s.cfg.ccSleep []) ackPost s

/-- `WAKEUP` (R146): exactly this one frame. -/
def execWakeup (s : State) : Host.Outcome State Fault Refusal :=
  runOperation (goTyped 4 s.cfg.ccWakeup []) ackPost s

/-- `CLEAN_FAN` (R147). -/
def execCleanFan (s : State) : Host.Outcome State Fault Refusal :=
  runOperation (goTyped 5 s.cfg.ccCleanFan []) ackPost s

/-- `READ_AUTOCLEAN` writes `ACI` (R148 step 5). -/
def extractAutoclean (s : State) : State := { s with typed := { s.typed with aci := s.field32 0 } }

/-- `READ_AUTOCLEAN` (R148): exactly 4 payload bytes. -/
def execReadAutoclean (s : State) : Host.Outcome State Fault Refusal :=
  runOperation (fun t => goTyped 6 t.cfg.ccReadAci (autocleanReadPayload t) t)
    (typedPost (fun t => t.raw.len.toNat == 4) extractAutoclean) s

/-- `WRITE_AUTOCLEAN` (R149): an empty response, no typed result. -/
def execWriteAutoclean (s : State) : Host.Outcome State Fault Refusal :=
  runOperation (fun t => goTyped 7 t.cfg.ccWriteAci (autocleanWritePayload t) t)
    (typedPost (fun t => t.raw.len.toNat == 0) id) s

/-- `DEVICE_INFO` copies the string with its terminator at `t` into `STR` and writes `STR_LEN` (R150 step 5). -/
def extractString (s : State) : State :=
  match s.terminator with
  | some t => { s with
      str := s.str.setAll 0 (s.rxpBytes (t + 1))
      typed := { s.typed with strLen := BitVec.ofNat 8 t } }
  | none => s

/-- `DEVICE_INFO` (R150): a payload with a 0x00 in it. -/
def execDeviceInfo (s : State) : Host.Outcome State Fault Refusal :=
  runOperation (fun t => goTyped 8 t.cfg.ccDevInfo (deviceInfoPayload t) t)
    (typedPost (fun t => t.terminator.isSome) extractString) s

/-- `READ_VERSION` writes its three registers (R151 step 5). -/
def extractVersion (s : State) : State :=
  { s with typed := { s.typed with
      fwVer := s.field16 0
      hwVer := s.field16 2
      shdlcVer := s.field16 4 } }

/-- `READ_VERSION` (R151): exactly `VERSION_LEN` payload bytes. -/
def execReadVersion (s : State) : Host.Outcome State Fault Refusal :=
  runOperation (goTyped 9 s.cfg.ccReadVer [])
    (typedPost (fun t => t.raw.len.toNat == t.cfg.versionLen) extractVersion) s

/-- `RESET` (R152): asks the sensor to reset; it is not the reset event of R200. -/
def execReset (s : State) : Host.Outcome State Fault Refusal :=
  runOperation (goTyped 10 s.cfg.ccReset []) ackPost s

end Sys2Proof.Machine
end

