-- ==== Sys2Proof/Machine/FrameCodec.lean ====
section
/-! DEFINITION. The Frame Codec's operations: `XCHG` (R119), and the pure function units `encode` (R108) and `decode`
(R111), 40_frame_codec.md. -/

namespace Sys2Proof.Machine

/-- `XCHG` (R119): the host's command code, length and `TXP`; no check of status, length or command code of the
response; `ARG_EXPLEN` ignored (R25). -/
def execXchg (s : State) : Host.Outcome State Fault Refusal :=
  runOperation (fun t => goStep 11 t.opnd.argCmd t.opnd.argLen t.txp t) (finish none) s

/-- `encode(cmd, payload)` (R108): pure, "reads no state and writes none"; its result leaves on the unit's output
port (log 11). -/
def execEncode (cmd : Byte) (payload : List Byte) (s : State) : Host.Outcome State Fault Refusal :=
  .next { s with out := { s.out with encOut := some (frameEncode s.cfg cmd payload) } }

/-- `decode(w)` (R111): pure; its result leaves on the unit's output port (log 11). -/
def execDecode (wire : List Byte) (s : State) : Host.Outcome State Fault Refusal :=
  .next { s with out := { s.out with decOut := some (frameDecode s.cfg wire) } }

end Sys2Proof.Machine
end

