-- ==== Sys2Proof/Machine/Dispatch.lean ====
section
/-! DEFINITION. One arm per operation: the step operation `i` takes in state `s`. -/

namespace Sys2Proof.Machine

-- `exec i s` is the step that operation i takes in state s, by PHASE (log 10).
def exec (i : Instr) (s : State) : Host.Outcome State Fault Refusal :=
  match i with
  | .start => Sys2Proof.Machine.execStart s
  | .stop => Sys2Proof.Machine.execStop s
  | .readMeasurement => Sys2Proof.Machine.execReadMeasurement s
  | .sleep => Sys2Proof.Machine.execSleep s
  | .wakeup => Sys2Proof.Machine.execWakeup s
  | .cleanFan => Sys2Proof.Machine.execCleanFan s
  | .readAutoclean => Sys2Proof.Machine.execReadAutoclean s
  | .writeAutoclean => Sys2Proof.Machine.execWriteAutoclean s
  | .deviceInfo => Sys2Proof.Machine.execDeviceInfo s
  | .readVersion => Sys2Proof.Machine.execReadVersion s
  | .reset => Sys2Proof.Machine.execReset s
  | .xchg => Sys2Proof.Machine.execXchg s
  | .encode cmd payload => Sys2Proof.Machine.execEncode cmd payload s
  | .decode wire => Sys2Proof.Machine.execDecode wire s

end Sys2Proof.Machine
end

