-- ==== Sys2Proof/Machine/HostAccess.lean ====
section
/-! DEFINITION. The host's register accesses (R44 10_state.md; R206 to R209 70_reset_and_hazards.md). -/

namespace Sys2Proof.Machine

/-- What a host write does while `BUSY = 0` (R44). `GO` holds nothing (R28); a write of 1 to it is the `GO` step,
which `step` runs. -/
def applyWrite (w : HostWrite) (s : State) : State :=
  match w with
  | .op v => { s with opnd := { s.opnd with op := v } }
  | .argCmd v => { s with opnd := { s.opnd with argCmd := v } }
  | .argLen v => { s with opnd := { s.opnd with argLen := v } }
  | .argExplen v => { s with opnd := { s.opnd with argExplen := v } }
  | .argValue v => { s with opnd := { s.opnd with argValue := v } }
  | .argKind v => { s with opnd := { s.opnd with argKind := v } }
  | .txp i v => { s with txp := s.txp.set i.val v }
  | .go _ => s

/-- `RXP[i]` is defined only after an operation that finished with `ERR` = 0 or 7, and below `R_LEN` (R31, R33,
U6); `DONE` = 1 says that one finished. DEDUCED, log 21. -/
def State.rxpDefined (s : State) (i : Nat) : Bool :=
  s.done && (s.err == none || s.err == some .protocolError) && decide (i < s.raw.len.toNat)

/-- The width of a register (R21 to R35). -/
def HostReg.width : HostReg → Nat
  | .op => 4
  | .argCmd => 8
  | .argLen | .argExplen => 9
  | .argValue => 32
  | .argKind => 1
  | .txp _ => 8
  | .go | .busy | .done => 1
  | .err => 4
  | .rAdr | .rCmd | .rStatus | .rLen => 8
  | .rxp _ => 8
  | .pm1_0 | .pm2_5 | .pm4_0 | .pm10 | .psize => 16
  | .aci => 32
  | .fwVer | .hwVer | .shdlcVer => 16
  | .str _ => 8
  | .strLen => 8

/-- The content a register or buffer byte has, zero-extended (R13). A write-only `GO` reads as 0 (R28). -/
def State.content (s : State) : HostReg → BitVec 32
  | .op => s.opnd.op.setWidth 32
  | .argCmd => s.opnd.argCmd.setWidth 32
  | .argLen => s.opnd.argLen.setWidth 32
  | .argExplen => s.opnd.argExplen.setWidth 32
  | .argValue => s.opnd.argValue
  | .argKind => s.opnd.argKind.setWidth 32
  | .txp i => (s.txpByte i.val).setWidth 32
  | .go => 0
  | .busy => if s.busy then 1 else 0
  | .done => if s.done then 1 else 0
  | .err => (errCode s.err).setWidth 32
  | .rAdr => s.raw.adr.setWidth 32
  | .rCmd => s.raw.cmd.setWidth 32
  | .rStatus => s.raw.status.setWidth 32
  | .rLen => s.raw.len.setWidth 32
  | .rxp i => (s.rxpByte i.val).setWidth 32
  | .pm1_0 => s.typed.pm1_0.setWidth 32
  | .pm2_5 => s.typed.pm2_5.setWidth 32
  | .pm4_0 => s.typed.pm4_0.setWidth 32
  | .pm10 => s.typed.pm10.setWidth 32
  | .psize => s.typed.psize.setWidth 32
  | .aci => s.typed.aci
  | .fwVer => s.typed.fwVer.setWidth 32
  | .hwVer => s.typed.hwVer.setWidth 32
  | .shdlcVer => s.typed.shdlcVer.setWidth 32
  | .str i => (s.strByte i.val).setWidth 32
  | .strLen => s.typed.strLen.setWidth 32

/-- A host read has a definite answer: `GO`, `BUSY`, `DONE` and `ERR` at any time (R28, R209), `RXP` where R31 and R33
define it, everything else while `BUSY = 0` (R44). Reads of the operand registers while `BUSY = 1` are taken with
those of the results (log 7). -/
def State.readDefined (s : State) : HostReg → Bool
  | .go | .busy | .done | .err => true
  | .rxp i => !s.busy && s.rxpDefined i.val
  | _ => !s.busy

/-- A host read: no side effect on the block (R59); the value goes to the host. An unspecified read answers a free
value of the register's width (R31, R33, R209, U6; log 4). -/
def hostRead (r : HostReg) (s : State) : State :=
  if s.readDefined r then { s with out := { s.out with readData := s.out.readData ++ [(r, s.content r)] } }
  else { s with out := { s.out with
    readData := s.out.readData ++ [(r, (Config.freeRead r.width s.out.freeCount).setWidth 32)]
    freeCount := s.out.freeCount + 1 } }

end Sys2Proof.Machine
end

