-- ==== Sys2Proof/Machine/Run.lean ====
section
/-! DEFINITION. Who moves next, and what it does (R17 00_scope.md; R28, R36, R44 10_state.md; R207, R208
70_reset_and_hazards.md). -/

namespace Sys2Proof.Machine

/-- The block's own step: none in IDLE (R201: "the block does nothing until the host writes `GO`"), else the step of
the operation in flight, which `c_op` selects (R158). -/
def blockStep (s : State) : Host.Outcome State Fault Refusal :=
  match s.phase with
  | .idle => .next s
  | .tx | .rx =>
    match decodeSelector s.cap.op with
    | .ok i => exec i s
    | .error _ => .refused (.reservedSelector s.cap.op)

/-- A write of 1 to `GO`: starts the operation `OP` selects (R28, R121). -/
def hostGo (s : State) : Host.Outcome State Fault Refusal :=
  if s.busy then .fault .goWhileBusy
  else match decodeSelector s.opnd.op with
    | .ok i => exec i s
    | .error _ => .refused (.reservedSelector s.opnd.op)

/-- A host write (R28, R44, R207, R208). Writing 0 to `GO` does nothing (R28), while `BUSY = 1` too (log 8). -/
def hostWrite (w : HostWrite) (s : State) : Host.Outcome State Fault Refusal :=
  match w with
  | .go v => if v = 1 then hostGo s else .next s
  | .op _ | .argCmd _ | .argLen _ | .argExplen _ | .argValue _ | .argKind _ | .txp _ _ =>
    if s.busy then .fault .operandWriteWhileBusy else .next (applyWrite w s)

/-- The function unit's operation that a call stands for. -/
def UnitCall.instr : UnitCall → Instr
  | .encode cmd payload => .encode cmd payload
  | .decode wire => .decode wire

/-- One input of the outside, already taken from the list. `pollDone` is handled by `nextStep`. -/
def takeInput (a : Input) (s : State) : Host.Outcome State Fault Refusal :=
  match a with
  | .write w => hostWrite w s
  | .read r => .next (hostRead r s)
  | .letRun => blockStep s
  | .pollDone => .next s
  | .resetEvent => .next (resetEvent s)
  | .unit c => exec c.instr s

/-- The inputs not yet taken become `rest`. -/
def State.withInputs (s : State) (rest : List Input) : State := { s with out := { s.out with inputs := rest } }

/-- One step of the machine: the outside's next input; with none, the block moves. A poll of `DONE` that reads 0 lets
the block step and is tried again (R206). Log 6. -/
def nextStep (s : State) : Host.Outcome State Fault Refusal :=
  match s.out.inputs with
  | [] => blockStep s
  | .pollDone :: rest => if s.done then .next (s.withInputs rest) else blockStep s
  | a :: rest => takeInput a (s.withInputs rest)

/-- The operand registers and `TXP` that make the next `GO` run host-invocable operation `i` on header `cmd`, `len`
with every later bit 0: payload bytes of zeros for `XCHG`, value 0 for `WRITE_AUTOCLEAN`, kind 0 for `DEVICE_INFO`. -/
def State.withOperands (s : State) (i : Instr) (cmd len : Byte) : State :=
  match i with
  | .xchg => { s with
      opnd := { s.opnd with op := 11, argCmd := cmd, argLen := len.setWidth 9 }
      txp := s.txp.setAll 0 (List.replicate len.toNat 0) }
  | .writeAutoclean => { s with opnd := { s.opnd with op := 7, argValue := 0 } }
  | .deviceInfo => { s with opnd := { s.opnd with op := 8, argKind := 0 } }
  | i => { s with opnd := { s.opnd with op := i.selector.getD s.opnd.op } }

/-- The state whose next step runs operation `i` of a table word: for a host-invocable operation, an idle block, the
operands in place and a write of 1 to `GO` as the next input; for a function unit, its call as the next input. -/
def State.offering (s : State) (i : Instr) (cmd len : Byte) : State :=
  match i with
  | .encode c p => s.withInputs (.unit (.encode c p) :: s.out.inputs)
  | .decode w => s.withInputs (.unit (.decode w) :: s.out.inputs)
  | i => { (s.withOperands i cmd len).withInputs (.write (.go 1) :: s.out.inputs) with phase := .idle }

end Sys2Proof.Machine
end

