-- ==== Sys2Proof/Machine/Step.lean ====
section
/-! DEFINITION. One step, and how a table word is placed where the next step runs it. -/

namespace Sys2Proof.Machine

/-- One step of the machine (`nextStep`). -/
def step (s : State) : Host.Outcome State Fault Refusal := nextStep s

/-- The state whose next step runs the operation of the opcode-table word `w` (log 12); `s` itself where the decoder
refuses it. -/
def State.withFetchWord (s : State) (nbits w : Nat) : State :=
  match decodeTableWord nbits w with
  | some i => s.offering i (BitVec.ofNat 8 (w / 2 ^ 8)) (BitVec.ofNat 8 w)
  | none => s

end Sys2Proof.Machine
end

