-- ==== Sys2Proof/Safety.lean ====
section
/-! DEFINITION. The words the statements use: what an operation asks for and what its response comes to as pure
functions of registers and bytes, when a frame ends well, what stays unchanged, and the machine's invariant. -/

namespace Sys2Proof.Machine

/-- The bytes `TXP[0 .. n-1]`. -/
def State.txpBytes (s : State) (n : Nat) : List Byte := (List.range n).map s.txpByte

/-- The command code operation `i` puts on the wire (R158). -/
def requestCode (s : State) (i : Instr) : Byte := (s.cfg.commandCode i).getD s.opnd.argCmd

/-- The request payload of operation `i` (R82). -/
def requestPayload (s : State) (i : Instr) : List Byte :=
  match i with
  | .readAutoclean => [s.cfg.subAci]
  | .writeAutoclean => s.cfg.subAci :: bytes32 s.opnd.argValue
  | .deviceInfo => [if s.opnd.argKind = 0 then s.cfg.selProduct else s.cfg.selSerial]
  | .xchg => s.txpBytes s.opnd.argLen.toNat
  | .start | .stop | .readMeasurement | .sleep | .wakeup | .cleanFan | .readVersion | .reset => []
  | .encode _ _ => []
  | .decode _ => []

/-- The response payloads operation `i` accepts (R83). -/
def acceptsPayload (c : Config) (i : Instr) (p : List Byte) : Bool :=
  match i with
  | .readMeasurement => p.length == 10
  | .readAutoclean => p.length == 4
  | .writeAutoclean => p.length == 0
  | .deviceInfo => p.contains 0x00
  | .readVersion => p.length == c.versionLen
  | .start | .stop | .sleep | .wakeup | .cleanFan | .reset | .xchg => true
  | .encode _ _ => true
  | .decode _ => true

/-- What a response that passed `decode` ends operation `i` with (R128, R140 steps 3 and 4, R177): `XCHG` always
succeeds. -/
def responseResult (c : Config) (i : Instr) (r : Response) : Option ErrKind :=
  if i = .xchg then none
  else if r.status ≠ 0x00 then some .protocolError
  else if acceptsPayload c i r.payload then none
  else some .protocolError

/-- The typed result registers after operation `i` succeeds with payload `p` (R83, R84, R144, R148, R150, R151). -/
def typedAfter (i : Instr) (p : List Byte) (old : TypedResult) : TypedResult :=
  match i with
  | .readMeasurement => { old with
      pm1_0 := be16 (p.getD 0 0) (p.getD 1 0)
      pm2_5 := be16 (p.getD 2 0) (p.getD 3 0)
      pm4_0 := be16 (p.getD 4 0) (p.getD 5 0)
      pm10 := be16 (p.getD 6 0) (p.getD 7 0)
      psize := be16 (p.getD 8 0) (p.getD 9 0) }
  | .readAutoclean => { old with aci := be32 (p.getD 0 0) (p.getD 1 0) (p.getD 2 0) (p.getD 3 0) }
  | .deviceInfo => { old with strLen := BitVec.ofNat 8 (p.idxOf 0x00) }
  | .readVersion => { old with
      fwVer := be16 (p.getD 0 0) (p.getD 1 0)
      hwVer := be16 (p.getD 2 0) (p.getD 3 0)
      shdlcVer := be16 (p.getD 4 0) (p.getD 5 0) }
  | .start | .stop | .sleep | .wakeup | .cleanFan | .writeAutoclean | .reset | .xchg => old
  | .encode _ _ => old
  | .decode _ => old

/-- `STR[j]` after operation `i` succeeds with payload `p`: `DEVICE_INFO` copies up to the terminator (R150). -/
def strByteAfter (i : Instr) (p : List Byte) (old : Byte) (j : Nat) : Byte :=
  if i = .deviceInfo ∧ j ≤ p.idxOf 0x00 then p.getD j 0 else old

/-- The raw result registers that report a response (R32, R119). -/
def Response.raw (r : Response) : RawResult :=
  { adr := r.adr, cmd := r.cmd, status := r.status, len := BitVec.ofNat 8 r.payload.length }

/-- In `RX`, the next event is the closing `FLAG` of a frame whose body passes every check of `decode` and carries
`len` payload bytes (R127). -/
structure State.EndsGoodFrame (s : State) (len : Nat) (rest : List RxEvent) : Prop where
  phase : s.phase = .rx
  event : s.out.rxEvents = .byte s.cfg.flag :: rest
  any : s.rx.any = true
  lead : s.rx.leadBad = false
  flags : s.rx.flags = .one
  esc : s.rx.esc = false
  ferr : s.rx.ferr = false
  sum : s.rx.sum = 0xFF
  cnt : s.rx.cnt.toNat = s.cfg.headerLen + 1 + len
  declared : (s.rxbByte (s.cfg.headerLen - 1)).toNat = len

/-- The status the response reports (R75, R127): 0x00 when no state byte is received. -/
def State.receivedStatus (s : State) : Byte := if s.cfg.rxHasState then s.rxbByte 2 else 0x00

/-- The raw result registers the evaluation writes for the body in `RXB` (R127). -/
def State.receivedRaw (s : State) : RawResult :=
  { adr := s.rxbByte 0, cmd := s.rxbByte 1, status := s.receivedStatus, len := s.rxbByte (s.cfg.headerLen - 1) }

/-- Every byte of the three buffers reads as before. -/
def sameBuffers (s t : State) : Prop :=
  (∀ a, t.txpByte a = s.txpByte a) ∧ (∀ a, t.rxbByte a = s.rxbByte a) ∧ (∀ a, t.strByte a = s.strByte a)

/-- The outside is as before but for the RX events taken. -/
def onlyEventsTaken (s t : State) (rest : List RxEvent) : Prop := t.out = { s.out with rxEvents := rest }

/-- The receive machine after the closing `FLAG`. -/
def closedRx (s : State) : RxMachine := { s.rx with flags := .two }

/-- What the step that ends a good frame leaves unchanged for every operation: parameters, operand and captured
registers, the transmit machine, `TXP` and `RXB`, and the outside but for the event taken. -/
def endFrame (s t : State) (rest : List RxEvent) : Prop :=
  t.cfg = s.cfg ∧ t.opnd = s.opnd ∧ t.cap = s.cap ∧ t.tx = s.tx ∧ t.rx = closedRx s ∧
  (∀ a, t.txpByte a = s.txpByte a) ∧ (∀ a, t.rxbByte a = s.rxbByte a) ∧ onlyEventsTaken s t rest

/-- An operation has ended with result `e` (R178). -/
def endedWith (t : State) (e : Option ErrKind) : Prop := t.phase = .idle ∧ t.done = true ∧ t.err = e

/-- A read phase with `flags` more `FLAG` bytes to come ends within these events (R191): a `timeout` or `fault`
comes, or that many `FLAG` bytes. -/
def readPhaseEnds (c : Config) : Nat → List RxEvent → Bool
  | _, [] => false
  | _, .timeout :: _ => true
  | _, .fault :: _ => true
  | n, .byte b :: rest =>
    if b = c.flag then (if n ≤ 1 then true else readPhaseEnds c (n - 1) rest) else readPhaseEnds c n rest

/-- How many more `FLAG` bytes end the read phase (R115). -/
def State.flagsMissing (s : State) : Nat :=
  match s.rx.flags with
  | .zero => 2
  | .one => 1
  | .two => 0

/-- The whole request body before its checksum, as captured (R71, R123). -/
def State.capturedHead (s : State) : List Byte :=
  [s.cfg.addr, s.cap.cmd, s.cap.len.setWidth 8] ++ s.txpBytes s.cap.len.toNat

/-- The machine's invariant. -/
structure State.Inv (s : State) : Prop where
  /-- The parameters are valid (R8, R9). -/
  cfg : s.cfg.valid
  /-- The buffers are in canonical form and no index outside them is listed (R50, R60). -/
  txp : s.txp.wf = true ∧ s.txp.fits 256 = true
  rxb : s.rxb.wf = true ∧ s.rxb.fits s.cfg.maxBody = true
  str : s.str.wf = true ∧ s.str.fits 255 = true
  /-- While busy `DONE` and `ERR` are 0 (R29, R30, R44). -/
  flags : s.phase ≠ .idle → s.done = false ∧ s.err = none
  /-- While busy an operation is in flight and its payload fits (R36, R121). -/
  captured : s.phase ≠ .idle → s.cap.op.toNat ≤ 11 ∧ s.cap.len.toNat ≤ maxPayload
  /-- Before the opening delimiter is sent the transmit machine is fresh (R121, R122). -/
  txStart : s.phase = .tx → s.tx.pos = .sof → s.tx = TxMachine.fresh
  /-- The body index stays within the body (R38, R60), and the running sum is of the bytes passed (R38, R123). -/
  txBody : s.phase = .tx → s.tx.pos = .body →
    s.tx.idx.toNat ≤ 3 + s.cap.len.toNat ∧ s.tx.sum = sum8 (s.capturedHead.take s.tx.idx.toNat)
  /-- The transformed byte is owed only for a reserved byte (R123). -/
  txEscape : s.phase = .tx → s.tx.escp = true → s.tx.pos = .body ∧ isReserved s.cfg (curByte s) = true
  /-- At the closing delimiter nothing is owed (R124). -/
  txEnd : s.phase = .tx → s.tx.pos = .eof → s.tx.escp = false
  /-- The second `FLAG` ends the read phase (R115, R118). -/
  rxOpen : s.phase = .rx → s.rx.flags ≠ .two
  /-- Before the first byte the receive machine is fresh (R124). -/
  rxFirst : s.phase = .rx → s.rx.any = false → s.rx = RxMachine.fresh
  /-- The first byte was `FLAG` or not (R39, R125). -/
  rxLead : s.phase = .rx → s.rx.any = true → s.rx.leadBad = false → s.rx.flags = .one
  /-- `rx_cnt` saturates at `MAX_BODY + 1` (R39), and every byte counted and stored holds a value (R125). -/
  rxCount : s.phase = .rx → s.rx.cnt.toNat ≤ s.cfg.maxBody + 1 ∧
    ∀ a, a < s.rx.cnt.toNat → a < s.cfg.maxBody → (s.rxb.get? a).isSome = true
  /-- `rx_sum` is the sum of the body bytes while all are stored (R39). -/
  rxSum : s.phase = .rx → s.rx.cnt.toNat ≤ s.cfg.maxBody →
    s.rx.sum = sum8 ((List.range s.rx.cnt.toNat).map s.rxbByte)

end Sys2Proof.Machine
end

