-- ==== Sys2Proof/Certificates/Slice0/Obligations.lean ====
section
/-! DEFINITION. The statements for the provers. Each docstring names the rule of spec/ it formalises; a clause that
rests on a choice of the model names its log entry. -/

open Sys2Proof Sys2Proof.Machine

/-! ### The checksum unit, the stuffer and the destuffer -/

/-- R101: `sum8` by its recursion, as the sum modulo 256, and order-free; the rule's worked example. -/
def Obligations.ChecksumSumRules : Prop :=
  sum8 [] = 0x00 ∧
  (∀ (s : List Byte) (b : Byte), sum8 (s ++ [b]) = add8 (sum8 s) b) ∧
  (∀ s : List Byte, (sum8 s).toNat = (s.map (·.toNat)).sum % 256) ∧
  (∀ s t : List Byte, s.Perm t → sum8 s = sum8 t) ∧
  sum8 [0xFF, 0x02, 0xFF, 0xFF] = 0xFF

/-- R102: the three forms of `chk`, the law it obeys, its corner cases and the source's worked example. -/
def Obligations.ChecksumLaw : Prop :=
  (∀ s : List Byte, chk s = ~~~ sum8 s ∧ chk s = sum8 s ^^^ 0xFF ∧ chk s = 0xFF - sum8 s) ∧
  (∀ s : List Byte, sum8 (s ++ [chk s]) = 0xFF) ∧
  chk [] = 0xFF ∧
  (∀ s : List Byte, sum8 s = 0xFF → chk s = 0x00) ∧
  (∀ s : List Byte, sum8 s = 0x81 → chk s = 0x7E) ∧
  (∀ s : List Byte, sum8 s = 0x82 → chk s = 0x7D) ∧
  chk [0x00, 0x00, 0x00] = 0xFF

/-- R103 and R104: what one byte is stuffed to, that `stuff` concatenates that, and its three laws. -/
def Obligations.StuffingLaws : Prop :=
  (∀ (c : Config) (b : Byte), stuff1 c b = if b = c.flag ∨ b = c.esc then [c.esc, b ^^^ c.xorm] else [b]) ∧
  stuff1 Config.standard 0x7E = [0x7D, 0x5E] ∧ stuff1 Config.standard 0x7D = [0x7D, 0x5D] ∧
  (∀ b : Byte, b ≠ 0x7E → b ≠ 0x7D → stuff1 Config.standard b = [b]) ∧
  (∀ (c : Config) (s : List Byte), stuff c s = s.flatMap (stuff1 c)) ∧
  (∀ c : Config, c.valid → ∀ s : List Byte, c.flag ∉ stuff c s) ∧
  (∀ (c : Config) (s : List Byte),
    (stuff c s).length = s.length + s.countP (fun b => b == c.flag || b == c.esc)) ∧
  (∀ (c : Config) (s t : List Byte), stuff c (s ++ t) = stuff c s ++ stuff c t)

/-- R107: the destuffer inverts the stuffer and accepts nothing else, so two interiors never give one body. -/
def Obligations.UnstuffInvertsStuffExactly : Prop :=
  ∀ c : Config, c.valid →
    (∀ s : List Byte, unstuff c (stuff c s) = .ok s) ∧
    (∀ w s : List Byte, unstuff c w = .ok s → w = stuff c s) ∧
    (∀ w w' s : List Byte, unstuff c w = .ok s → unstuff c w' = .ok s → w = w')

/-- R106: the only failure of `unstuff` is `FramingError`, and it fails exactly on an interior that holds `FLAG`
outside an escape pair, `ESC` with another partner than the two escaped codes, or `ESC` at its end; here as: it
succeeds exactly on the stuffed sequences. The rule's corner cases with the default constants. -/
def Obligations.UnstuffRejectsOnlyByFraming : Prop :=
  (∀ (c : Config) (w : List Byte) (e : ErrKind), unstuff c w = .error e → e = .framingError) ∧
  (∀ c : Config, c.valid → ∀ w : List Byte, ((∃ s, unstuff c w = .ok s) ↔ ∃ s, w = stuff c s)) ∧
  unstuff Config.standard [0x7D, 0x7D] = .error .framingError ∧
  unstuff Config.standard [0x7D, 0x20] = .error .framingError ∧
  unstuff Config.standard [0x5E] = .ok [0x5E] ∧
  unstuff Config.standard [0x00, 0x7D] = .error .framingError ∧
  unstuff Config.standard [0x00, 0x7E, 0x00] = .error .framingError

/-! ### encode and decode, the function units -/

/-- R108: `encode` fails exactly above 255 payload bytes, with `EncodingError`; else it is the stuffed header, payload
and checksum between two delimiters. The source's worked example. R109 (e): "The output's first and last bytes are
`FLAG` and no other byte is". -/
def Obligations.EncodeFailsExactlyAbove255 : Prop :=
  (∀ (c : Config) (cmd : Byte) (p : List Byte),
    ((∃ e, frameEncode c cmd p = .error e) ↔ 256 ≤ p.length) ∧
    (∀ e, frameEncode c cmd p = .error e → e = .encodingError) ∧
    (p.length ≤ 255 → frameEncode c cmd p = .ok ([c.flag] ++
      stuff c ([c.addr, cmd, BitVec.ofNat 8 p.length] ++ p ++
        [chk ([c.addr, cmd, BitVec.ofNat 8 p.length] ++ p)]) ++ [c.flag]))) ∧
  frameEncode Config.standard 0x00 [] = .ok [0x7E, 0x00, 0x00, 0x00, 0xFF, 0x7E] ∧
  (∀ c : Config, c.valid → ∀ (cmd : Byte) (p w : List Byte), frameEncode c cmd p = .ok w →
    ∃ interior, w = [c.flag] ++ interior ++ [c.flag] ∧ c.flag ∉ interior)

/-- R78: the wire length of a request, its bounds with the default constants, and the frame that reaches the longest. -/
def Obligations.RequestLengthBounds : Prop :=
  (∀ c : Config, ∀ (cmd : Byte) (p w : List Byte), frameEncode c cmd p = .ok w →
    w.length = (p.length + 4) +
      (requestHead c cmd p ++ [chk (requestHead c cmd p)]).countP (fun b => b == c.flag || b == c.esc) + 2 ∧
    w.length ≤ 520) ∧
  (∀ (cmd : Byte) (p w : List Byte), frameEncode Config.standard cmd p = .ok w → 6 ≤ w.length ∧ w.length ≤ 518) ∧
  (∃ w, frameEncode Config.standard 0x7E (List.replicate 129 0x7E ++ List.replicate 126 0x7D) = .ok w ∧
    w.length = 518)

/-- R110: the round trip holds with five-field responses and does not hold with a state byte. -/
def Obligations.FrameRoundTrip : Prop :=
  (∀ c : Config, c.valid → c.rxHasState = false → ∀ (cmd : Byte) (p : List Byte), p.length ≤ 255 →
    ∃ w, frameEncode c cmd p = .ok w ∧ frameDecode c w = .ok ⟨c.addr, cmd, 0x00, p⟩) ∧
  (∃ (cmd : Byte) (p w : List Byte), p.length ≤ 255 ∧
    frameEncode { Config.standard with rxHasState := true } cmd p = .ok w ∧
    ∀ r, frameDecode { Config.standard with rxHasState := true } w = .ok r → r.cmd = cmd → r.payload ≠ p)

/-- R112 (c): changing one body byte before the checksum of a good frame, the count kept, is a `ChecksumError`. -/
def Obligations.OneChangedBodyByteIsChecksumError : Prop :=
  ∀ c : Config, c.valid → ∀ (b : List Byte) (r : Response), frameDecode c (wireFrame c b) = .ok r →
    ∀ (k : Nat) (v : Byte), k + 1 < b.length → b.getD k 0 ≠ v →
      frameDecode c (wireFrame c (b.set k v)) = .error .checksumError

/-- R112 (a), (b), (d), (e), (f), (g): corner cases and laws of `decode`; R75: with `RX_HAS_STATE` the response body
has six fields, the state byte summed and reported as the status. -/
def Obligations.DecodeCornerCases : Prop :=
  (∀ c : Config, frameDecode c [] = .error .framingError ∧ frameDecode c [c.flag] = .error .framingError) ∧
  (∀ c : Config, c.valid → ∀ b : List Byte, b.length < c.headerLen + 1 →
    frameDecode c (wireFrame c b) = .error .truncatedFrameError) ∧
  frameDecode Config.standard [0x7E, 0x00, 0x03, 0x02, 0xFA, 0x7E] = .error .truncatedFrameError ∧
  frameDecode Config.standard [0x7E, 0x00, 0x03, 0x00, 0x05, 0xF7, 0x7E] = .error .framingError ∧
  (∃ p : List Byte, ∃ w, frameEncode Config.standard 0x20 p = .ok w ∧
    frameDecode Config.standard (w.set 2 0x7D) = .ok ⟨0x00, 0x7E, 0x00, List.replicate 93 0x00⟩) ∧
  (∀ c : Config, c.valid → c.rxHasState = false → ∀ (adr cmd : Byte) (p : List Byte), p.length ≤ 255 →
    let hdr := [adr, cmd, BitVec.ofNat 8 p.length] ++ p
    frameDecode c (wireFrame c (hdr ++ [chk hdr])) = .ok ⟨adr, cmd, 0x00, p⟩) ∧
  (∀ c : Config, c.valid → c.rxHasState = true → ∀ (adr cmd st : Byte) (p : List Byte), p.length ≤ 255 →
    let hdr := [adr, cmd, st, BitVec.ofNat 8 p.length] ++ p
    frameDecode c (wireFrame c (hdr ++ [chk hdr])) = .ok ⟨adr, cmd, st, p⟩)

/-- R108, R111: the function units complete in every state, whatever their operands; their result leaves on their
output port (the model's own field, log 11) and no block state changes. -/
def Obligations.FunctionUnitsAreTotalAndPure : Prop :=
  (∀ (s : State) (cmd : Byte) (p : List Byte), ∃ t, exec (.encode cmd p) s = .next t ∧
    t.out.encOut = some (frameEncode s.cfg cmd p) ∧ t = { s with out := { s.out with encOut := t.out.encOut } }) ∧
  (∀ (s : State) (w : List Byte), ∃ t, exec (.decode w) s = .next t ∧
    t.out.decOut = some (frameDecode s.cfg w) ∧ t = { s with out := { s.out with decOut := t.out.decOut } })

/-! ### collect -/

/-- R118: what `collect` records and when it ends: at the second `FLAG` with everything received since the first
byte, at a timeout by whether anything was recorded, at a fault; nothing is skipped and later events are not taken. -/
def Obligations.CollectEndsAtSecondFlag : Prop :=
  (∀ (c : Config) (events left : List RxEvent) (rec : List Byte), collect c events = .frame rec left ↔
    events = rec.map RxEvent.byte ++ left ∧ rec.count c.flag = 2 ∧ rec.getLast? = some c.flag) ∧
  (∀ (c : Config) (rec : List Byte) (left : List RxEvent), rec.count c.flag < 2 →
    collect c (rec.map RxEvent.byte ++ .timeout :: left) =
      .failed (if rec = [] then .timeoutError else .truncatedFrameError) left ∧
    collect c (rec.map RxEvent.byte ++ .fault :: left) = .failed .transportError left)

/-! ### Encodings of the operations -/

/-- Every word the encoder writes is read back, and every word read is what the encoder writes (R85, R71, R108, R111;
the three ports are the model's presentation, log 13). -/
def Obligations.WordsDecodeToTheirOperation : Prop :=
  (∀ (c : Config) (i : Instr), i.wellFormed = true → decodeWords c (encode c i).1 (encode c i).2 = .ok i) ∧
  (∀ (c : Config) (p : Port) (bs : List Byte) (i : Instr), decodeWords c p bs = .ok i →
    encode c i = (p, bs) ∧ i.wellFormed = true)

/-- R85: the selector table, the reserved values rejected. R90 on words written out from the table: the header of every
typed row, a header only `XCHG` (and `encode`) matches, and one only `decode` matches (log 12). -/
def Obligations.TableWordsDecode : Prop :=
  decodeSelector 0 = .ok .start ∧ decodeSelector 1 = .ok .stop ∧ decodeSelector 2 = .ok .readMeasurement ∧
  decodeSelector 3 = .ok .sleep ∧ decodeSelector 4 = .ok .wakeup ∧ decodeSelector 5 = .ok .cleanFan ∧
  decodeSelector 6 = .ok .readAutoclean ∧ decodeSelector 7 = .ok .writeAutoclean ∧
  decodeSelector 8 = .ok .deviceInfo ∧ decodeSelector 9 = .ok .readVersion ∧ decodeSelector 10 = .ok .reset ∧
  decodeSelector 11 = .ok .xchg ∧
  (∀ op : BitVec 4, 12 ≤ op.toNat → decodeSelector op = .error (.reservedSelector op)) ∧
  decodeTableWord 24 0x000000 = some .start ∧ decodeTableWord 24 0x000100 = some .stop ∧
  decodeTableWord 24 0x000300 = some .readMeasurement ∧ decodeTableWord 24 0x001000 = some .sleep ∧
  decodeTableWord 24 0x001100 = some .wakeup ∧ decodeTableWord 24 0x005600 = some .cleanFan ∧
  decodeTableWord 24 0x008001 = some .readAutoclean ∧ decodeTableWord 24 0x008005 = some .writeAutoclean ∧
  decodeTableWord 24 0x00D001 = some .deviceInfo ∧ decodeTableWord 24 0x00D100 = some .readVersion ∧
  decodeTableWord 24 0x00D300 = some .reset ∧ decodeTableWord 24 0x00D201 = some .xchg ∧
  decodeTableWord 24 0x053300 = some (.decode [0x7E, 0x05, 0x33, 0x00, 0x00, 0x7E])

/-! ### The step -/

/-- A step runs the decoded operation: on a write of 1 to `GO` in IDLE the one `OP` selects (R121), while busy the one
`c_op` selects (R158), on a call the function unit. What the step adds is that the input is taken (log 6, log 10). -/
def Obligations.StepRunsTheDecodedOperation : Prop :=
  (∀ (s : State) (i : Instr) (rest : List Input), s.phase = .idle →
    s.out.inputs = .write (.go 1) :: rest → decodeSelector s.opnd.op = .ok i →
    step s = exec i (s.withInputs rest)) ∧
  (∀ (s : State) (i : Instr), s.phase ≠ .idle → s.out.inputs = [] → decodeSelector s.cap.op = .ok i →
    step s = exec i s) ∧
  (∀ (s : State) (i : Instr) (rest : List Input), s.phase ≠ .idle → s.out.inputs = .letRun :: rest →
    decodeSelector s.cap.op = .ok i → step s = exec i (s.withInputs rest)) ∧
  (∀ (s : State) (i : Instr) (rest : List Input), s.phase ≠ .idle → s.done = false →
    s.out.inputs = .pollDone :: rest → decodeSelector s.cap.op = .ok i → step s = exec i s) ∧
  (∀ (s : State) (u : UnitCall) (rest : List Input), s.out.inputs = .unit u :: rest →
    step s = exec u.instr (s.withInputs rest))

/-- A table word placed by `withFetchWord` is what the very next step runs (R90, R121; log 12): the step is `exec` of
the decoded operation with the inputs as before, the block idle and `OP` selecting it if it is host-invocable. -/
def Obligations.TableWordRunsNext : Prop :=
  ∀ (s : State) (nbits w : Nat) (i : Instr), decodeTableWord nbits w = some i →
    ∃ t : State, step (s.withFetchWord nbits w) = exec i t ∧ t.cfg = s.cfg ∧ t.out = s.out ∧
      (i.hostInvocable = true → t.phase = .idle ∧ i.selector = some t.opnd.op) ∧
      (i = .xchg → t.opnd.argCmd.toNat = w / 256 % 256 ∧ t.opnd.argLen.toNat = w % 256 ∧
        ∀ a, a < w % 256 → t.txpByte a = 0x00)

/-- R88 (a), U8: a `GO` with a reserved selector is refused. -/
def Obligations.ReservedSelectorIsRefused : Prop :=
  ∀ (s : State) (rest : List Input), s.phase = .idle → 12 ≤ s.opnd.op.toNat →
    s.out.inputs = .write (.go 1) :: rest → step s = .refused (.reservedSelector s.opnd.op)

/-- R207: a `GO` while `BUSY = 1` is a fault of the host, whatever `OP` holds; the machine stops for good. -/
def Obligations.GoWhileBusyFaults : Prop :=
  ∀ (s : State) (rest : List Input), s.busy = true → s.out.inputs = .write (.go 1) :: rest →
    step s = .fault .goWhileBusy ∧ ∀ n, Sys2Proof.core.run (n + 1) s = .fault .goWhileBusy

/-- R208: a host write to `TXP`, `OP` or an `ARG_*` register while `BUSY = 1` is treated as a second `GO` is (R207): a
fault of the host, and the machine stops for good. -/
def Obligations.OperandWriteWhileBusyFaults : Prop :=
  ∀ (s : State) (w : HostWrite) (rest : List Input), s.busy = true → s.out.inputs = .write w :: rest →
    (∀ v, w ≠ .go v) →
    step s = .fault .operandWriteWhileBusy ∧ ∀ n, Sys2Proof.core.run (n + 1) s = .fault .operandWriteWhileBusy

/-- R44: a host write while `BUSY = 0` sets the one register or `TXP` byte it names and nothing else: every other
readable place, the sequencer and the outside (but for the input taken) stay. R28: writing 0 to `GO` does nothing (in
every phase, log 8). -/
def Obligations.HostWriteSetsOnePlace : Prop :=
  (∀ (s : State) (rest : List Input), s.out.inputs = .write (.go 0) :: rest →
    step s = .next (s.withInputs rest)) ∧
  ∀ (s : State) (w : HostWrite) (rest : List Input), s.busy = false → s.out.inputs = .write w :: rest →
    (∀ v, w ≠ .go v) →
    ∃ t, step s = .next t ∧
      (∀ r, t.content r = match w with
        | .op v => if r = .op then v.setWidth 32 else s.content r
        | .argCmd v => if r = .argCmd then v.setWidth 32 else s.content r
        | .argLen v => if r = .argLen then v.setWidth 32 else s.content r
        | .argExplen v => if r = .argExplen then v.setWidth 32 else s.content r
        | .argValue v => if r = .argValue then v else s.content r
        | .argKind v => if r = .argKind then v.setWidth 32 else s.content r
        | .txp k v => if r = .txp k then v.setWidth 32 else s.content r
        | .go _ => s.content r) ∧
      t.cfg = s.cfg ∧ t.phase = s.phase ∧ t.done = s.done ∧ t.err = s.err ∧ t.rxb = s.rxb ∧ t.raw = s.raw ∧
      t.typed = s.typed ∧ t.str = s.str ∧ t.cap = s.cap ∧ t.tx = s.tx ∧ t.rx = s.rx ∧
      t.out = { s.out with inputs := rest }

/-- R59, R44, R209: a host read changes nothing but what the host has been told. A defined read answers the register's
content, recorded with zero-extension to 32 bits (log 18); an unspecified one a free value of its width, different
reads having values of their own (log 4, log 7). The content of each register and buffer byte is its own, and reads of
the operand registers (log 7), of `TXP` (log 7), of the result registers and of `STR` are defined exactly while `BUSY` =
0. A place nothing has written is among them: that a read of it (`any value` by R43 and U5) answers the one free value
of the place, the same at every read, is the model's choice (log 2, unsafe), and no value of it is claimed. `RXP` has a
statement of its own, and so have `GO`, `BUSY`, `DONE` and `ERR`. -/
def Obligations.HostReadHasNoSideEffect : Prop :=
  (∀ (s : State) (r : HostReg) (rest : List Input), s.out.inputs = .read r :: rest →
    ∃ (t : State) (v : BitVec 32), step s = .next t ∧
      t = { s with out := { s.out with
        inputs := rest, readData := s.out.readData ++ [(r, v)], freeCount := t.out.freeCount } } ∧
      (s.readDefined r = true → v = s.content r ∧ t.out.freeCount = s.out.freeCount) ∧
      (s.readDefined r = false → v = (Config.freeRead r.width s.out.freeCount).setWidth 32 ∧
        t.out.freeCount = s.out.freeCount + 1)) ∧
  (∀ (s : State) (r : HostReg), r ∉ [HostReg.go, .busy, .done, .err] → (∀ k, r ≠ .rxp k) →
    (s.readDefined r = true ↔ s.busy = false)) ∧
  (∀ s : State,
    s.content .op = s.opnd.op.setWidth 32 ∧ s.content .argCmd = s.opnd.argCmd.setWidth 32 ∧
    s.content .argLen = s.opnd.argLen.setWidth 32 ∧ s.content .argExplen = s.opnd.argExplen.setWidth 32 ∧
    s.content .argValue = s.opnd.argValue ∧ s.content .argKind = s.opnd.argKind.setWidth 32 ∧
    (∀ k, s.content (.txp k) = (s.txpByte k.val).setWidth 32) ∧
    s.content .rAdr = s.raw.adr.setWidth 32 ∧ s.content .rCmd = s.raw.cmd.setWidth 32 ∧
    s.content .rStatus = s.raw.status.setWidth 32 ∧ s.content .rLen = s.raw.len.setWidth 32 ∧
    s.content .pm1_0 = s.typed.pm1_0.setWidth 32 ∧ s.content .pm2_5 = s.typed.pm2_5.setWidth 32 ∧
    s.content .pm4_0 = s.typed.pm4_0.setWidth 32 ∧ s.content .pm10 = s.typed.pm10.setWidth 32 ∧
    s.content .psize = s.typed.psize.setWidth 32 ∧ s.content .aci = s.typed.aci ∧
    s.content .fwVer = s.typed.fwVer.setWidth 32 ∧ s.content .hwVer = s.typed.hwVer.setWidth 32 ∧
    s.content .shdlcVer = s.typed.shdlcVer.setWidth 32 ∧
    (∀ k, s.content (.str k) = (s.strByte k.val).setWidth 32) ∧
    s.content .strLen = s.typed.strLen.setWidth 32)

/-- R44, R29, R209: `BUSY`, `DONE` and `ERR` are readable at any time; `GO` reads as 0 (R28), `BUSY` as 1 exactly outside
IDLE (R36), `DONE` as the flag, `ERR` as the code R170's table gives the result. While `BUSY = 1`, in a state of the
invariant, the three read 1, 0, 0. -/
def Obligations.ControlBitsReadAtAnyTime : Prop :=
  (∀ s : State, s.readDefined .busy = true ∧ s.readDefined .done = true ∧ s.readDefined .err = true ∧
    s.readDefined .go = true ∧ s.content .go = 0 ∧
    s.content .busy = (if s.phase = .idle then 0 else 1) ∧ s.content .done = (if s.done = true then 1 else 0) ∧
    s.content .err = (match s.err with
      | none => 0
      | some .encodingError => 1
      | some .framingError => 2
      | some .checksumError => 3
      | some .truncatedFrameError => 4
      | some .timeoutError => 5
      | some .transportError => 6
      | some .protocolError => 7)) ∧
  (∀ s : State, s.Inv → s.busy = true → s.content .busy = 1 ∧ s.content .done = 0 ∧ s.content .err = 0)

/-- R31, R33: `RXP[i]` reads `RXB[H + i]` where it is defined: idle after an operation that finished with `ERR` = 0 or
7, below `R_LEN`; every other read of it is unspecified. That `DONE` = 1 says "after an operation that finished" is the
model's reading (log 21). -/
def Obligations.RxpIsAWindowOntoRxb : Prop :=
  ∀ (s : State) (i : Fin 255),
    s.content (.rxp i) = (s.rxbByte (s.cfg.headerLen + i.val)).setWidth 32 ∧
    (s.readDefined (.rxp i) = true ↔
      s.busy = false ∧ s.done = true ∧ (s.err = none ∨ s.err = some .protocolError) ∧ i.val < s.raw.len.toNat)

/-! ### Reset -/

/-- R45 and R201, every value they give: the phase, the flags, the operand registers; no buffer holds a value; the
block does nothing until the host writes `GO`. R204: "a `GO` straight after reset is a `START`". The registers with no
value are free values (log 2). -/
def Obligations.ResetLeavesTheStatedValues : Prop :=
  State.reset.phase = .idle ∧ State.reset.busy = false ∧ State.reset.done = false ∧ State.reset.err = none ∧
  State.reset.opnd = { op := 0, argCmd := 0, argLen := 0, argExplen := 0, argValue := 0, argKind := 0 } ∧
  (∀ a, State.reset.txp.get? a = none ∧ State.reset.rxb.get? a = none ∧ State.reset.str.get? a = none) ∧
  State.reset.cfg = Config.standard ∧ step State.reset = .next State.reset ∧
  (∃ t, step { State.reset with out := { State.reset.out with inputs := [.write (.go 1)] } } = .next t ∧
    exec .start State.reset = .next t ∧ t.phase = .tx ∧ t.cap.op = 0 ∧ t.cap.cmd = 0x00 ∧ t.cap.len = 0)

/-- R200: the reset event gives the block the state after reset from any state, in flight or not; bytes sent stay
sent, what the transport holds stays, the hardwired parameters stay (R202); the model's own records stay (log 14). -/
def Obligations.ResetEventAbandonsTheOperation : Prop :=
  ∀ (s : State) (rest : List Input), s.out.inputs = .resetEvent :: rest →
    ∃ t, step s = .next t ∧ t = { State.reset with cfg := s.cfg, out := { s.out with inputs := rest } }

/-! ### The GO step -/

/-- R121, R24, R142 to R147, R151, R152: the `GO` step of the eight empty-payload operations: the command code of each
on the wire, length 0, `TXP` not touched, the transmit machine fresh; everything else but the captured operands and
the flags stays. -/
def Obligations.GoStepOfEmptyPayloadOperations : Prop :=
  ∀ (s : State) (i : Instr) (sel : BitVec 4) (cc : Byte),
    (i, sel, cc) ∈ [(Instr.start, 0, 0x00), (.stop, 1, s.cfg.ccStop), (.readMeasurement, 2, s.cfg.ccReadMeas),
      (.sleep, 3, s.cfg.ccSleep), (.wakeup, 4, s.cfg.ccWakeup), (.cleanFan, 5, s.cfg.ccCleanFan),
      (.readVersion, 9, s.cfg.ccReadVer), (.reset, 10, s.cfg.ccReset)] →
    s.phase = .idle →
    ∃ t, exec i s = .next t ∧ t = { s with
      done := false
      err := none
      phase := .tx
      cap := { op := sel, cmd := cc, len := 0, kind := s.opnd.argKind, value := s.opnd.argValue }
      tx := { pos := .sof, idx := 0, escp := false, sum := 0 } }

/-- R121, R82, R148, R149, R150: the `GO` step of the three operations that send a payload: the payload's bytes in
`TXP[0 ..]`, every other byte of `TXP` as it was, the rest as for the empty-payload operations. -/
def Obligations.GoStepOfPayloadOperations : Prop :=
  ∀ (s : State) (i : Instr) (sel : BitVec 4) (cc : Byte) (payload : List Byte),
    (i, sel, cc, payload) ∈ [
      (Instr.readAutoclean, 6, s.cfg.ccReadAci, [s.cfg.subAci]),
      (.writeAutoclean, 7, s.cfg.ccWriteAci, [s.cfg.subAci,
        BitVec.ofNat 8 (s.opnd.argValue.toNat / 2 ^ 24), BitVec.ofNat 8 (s.opnd.argValue.toNat / 2 ^ 16),
        BitVec.ofNat 8 (s.opnd.argValue.toNat / 2 ^ 8), BitVec.ofNat 8 s.opnd.argValue.toNat]),
      (.deviceInfo, 8, s.cfg.ccDevInfo, [if s.opnd.argKind = 0 then s.cfg.selProduct else s.cfg.selSerial])] →
    s.phase = .idle →
    ∃ t, exec i s = .next t ∧
      (∀ a, t.txpByte a = if a < payload.length then payload.getD a 0 else s.txpByte a) ∧
      t = { s with
        txp := t.txp
        done := false
        err := none
        phase := .tx
        cap := {
          op := sel, cmd := cc, len := BitVec.ofNat 9 payload.length
          kind := s.opnd.argKind, value := s.opnd.argValue }
        tx := { pos := .sof, idx := 0, escp := false, sum := 0 } }

/-- R121, R119: the `GO` step of `XCHG`: `ARG_CMD`, `ARG_LEN` and `TXP` as the host left them; above 255 it ends at once
with `EncodingError` and nothing is sent. -/
def Obligations.GoStepOfXchg : Prop :=
  ∀ s : State, s.phase = .idle →
    (s.opnd.argLen.toNat ≤ 255 →
      ∃ t, exec .xchg s = .next t ∧ t = { s with
        done := false
        err := none
        phase := .tx
        cap := {
          op := 11, cmd := s.opnd.argCmd, len := s.opnd.argLen
          kind := s.opnd.argKind, value := s.opnd.argValue }
        tx := { pos := .sof, idx := 0, escp := false, sum := 0 } }) ∧
    (256 ≤ s.opnd.argLen.toNat →
      ∃ t, exec .xchg s = .next t ∧ endedWith t (some .encodingError) ∧ t = { s with
        done := true
        err := some .encodingError
        cap := {
          op := 11, cmd := s.opnd.argCmd, len := s.opnd.argLen
          kind := s.opnd.argKind, value := s.opnd.argValue } })

/-- R171: an operation's step leaves `EncodingError` in `ERR` exactly when it is the `GO` step of `XCHG` with `ARG_LEN`
from 256 up, and then nothing is sent and no event is taken. The premise rules out only busy states that already hold
that error, which the invariant says do not exist (its clause `flags`); an idle state that holds it is within. -/
def Obligations.EncodingErrorOnlyFromXchg : Prop :=
  ∀ (s t : State) (i : Instr), (s.phase ≠ .idle → s.err ≠ some .encodingError) → i.hostInvocable = true →
    exec i s = .next t →
    (t.err = some .encodingError ↔ s.phase = .idle ∧ i = .xchg ∧ 256 ≤ s.opnd.argLen.toNat) ∧
    (t.err = some .encodingError → t.out = s.out)

/-! ### The transmit machine -/

/-- R122, R123, R124: one accepted byte in `TX`, for every operation: the byte offered joins the TX stream, and the
machine advances by `tx_pos`; the entry to `RX` re-initialises the receive machine; all else stays. -/
def Obligations.AcceptedByteAdvancesTheTransmitMachine : Prop :=
  ∀ (s : State) (i : Instr) (rest : List TxAnswer), i.hostInvocable = true → s.phase = .tx →
    s.out.txAnswers = .accept :: rest →
    let sent (x : Byte) : Outside := { s.out with txAnswers := rest, txOut := s.out.txOut ++ [x] }
    let cur := curByte s
    (s.tx.pos = .sof → exec i s = .next { s with tx := { s.tx with pos := .body }, out := sent s.cfg.flag }) ∧
    (s.tx.pos = .body → s.tx.escp = false → (cur = s.cfg.flag ∨ cur = s.cfg.esc) →
      exec i s = .next { s with tx := { s.tx with escp := true }, out := sent s.cfg.esc }) ∧
    (s.tx.pos = .body → (s.tx.escp = true ∨ (cur ≠ s.cfg.flag ∧ cur ≠ s.cfg.esc)) →
      ∀ x, x = (if s.tx.escp then cur ^^^ s.cfg.xorm else cur) →
      (s.tx.idx.toNat < 3 + s.cap.len.toNat → exec i s = .next { s with
        tx := { s.tx with escp := false, sum := add8 s.tx.sum cur, idx := s.tx.idx + 1 }, out := sent x }) ∧
      (3 + s.cap.len.toNat ≤ s.tx.idx.toNat → exec i s = .next { s with
        tx := { s.tx with escp := false, pos := .eof }, out := sent x })) ∧
    (s.tx.pos = .eof → exec i s = .next { s with
      phase := .rx
      rx := { any := false, leadBad := false, flags := .zero, esc := false, ferr := false, cnt := 0, sum := 0 }
      out := sent s.cfg.flag })

/-- R114, R122 to R124, R176: a fault on a write ends the operation with `TransportError`; the offered byte counts as
not sent, the bytes accepted stay sent, and nothing else changes. -/
def Obligations.WriteFaultEndsTheOperation : Prop :=
  ∀ (s : State) (i : Instr) (rest : List TxAnswer), i.hostInvocable = true → s.phase = .tx →
    s.out.txAnswers = .fault :: rest →
    ∃ t, exec i s = .next t ∧ endedWith t (some .transportError) ∧ t.out.txOut = s.out.txOut ∧
      t = { s with
        phase := .idle, done := true, err := some .transportError, out := { s.out with txAnswers := rest } }

/-- R211: while the transport does not answer, the block stays in `TX` with `BUSY = 1` for any number of steps, and no
error code is produced; the stay is not a stop of the machine. -/
def Obligations.UnansweredWriteWaitsForEver : Prop :=
  ∀ s : State, s.Inv → s.phase = .tx → s.out.inputs = [] → s.out.txAnswers = [] →
    ∀ n, Sys2Proof.core.run n s = .next s ∧ s.busy = true ∧ s.err = none

/-- R124: over a whole `TX` phase with every byte accepted, from the state the `GO` step leaves, the bytes accepted are
exactly `encode(c_cmd, TXP[0 .. c_len-1])`; the block is then in `RX` with a fresh receive machine. -/
def Obligations.TransmitPhaseSendsEncode : Prop :=
  ∀ (s : State) (w : List Byte) (rest : List TxAnswer), s.Inv → s.phase = .tx → s.tx = TxMachine.fresh →
    s.out.inputs = [] → frameEncode s.cfg s.cap.cmd (s.txpBytes s.cap.len.toNat) = .ok w →
    s.out.txAnswers = List.replicate w.length .accept ++ rest →
    ∃ t : State, Sys2Proof.core.run w.length s = .next t ∧ t.phase = .rx ∧ t.rx = RxMachine.fresh ∧
      t = { s with
        phase := .rx, tx := t.tx, rx := t.rx
        out := { s.out with txAnswers := rest, txOut := s.out.txOut ++ w } }

/-! ### The receive machine -/

/-- R125: one byte in `RX`, for every operation and every case of the rule but the second `FLAG`: the first byte, the
`FLAG` that follows a bad first byte, a byte dropped, an escape pair, a plain interior byte. A pushed byte is stored at
`rx_cnt` while the body fits; all else stays. -/
def Obligations.ReceivedByteAdvancesTheReceiveMachine : Prop :=
  ∀ (s : State) (i : Instr) (b : Byte) (rest : List RxEvent), i.hostInvocable = true → s.phase = .rx →
    s.out.rxEvents = .byte b :: rest →
    let after (rx : RxMachine) : State := { s with rx := rx, out := { s.out with rxEvents := rest } }
    let pushes (v : Byte) : Prop := ∃ t, exec i s = .next t ∧
      (∀ a, t.rxbByte a = if a = s.rx.cnt.toNat ∧ a < s.cfg.maxBody then v else s.rxbByte a) ∧
      t = { after { s.rx with
        esc := false
        cnt := if s.rx.cnt.toNat < s.cfg.maxBody then s.rx.cnt + 1 else BitVec.ofNat 9 (s.cfg.maxBody + 1)
        sum := add8 s.rx.sum v } with rxb := t.rxb }
    (s.rx.any = false → b = s.cfg.flag → exec i s = .next (after { s.rx with any := true, flags := .one })) ∧
    (s.rx.any = false → b ≠ s.cfg.flag → exec i s = .next (after { s.rx with any := true, leadBad := true })) ∧
    (s.rx.any = true → b = s.cfg.flag → s.rx.flags = .zero → exec i s = .next (after { s.rx with flags := .one })) ∧
    (s.rx.any = true → b ≠ s.cfg.flag → s.rx.leadBad = true → exec i s = .next (after s.rx)) ∧
    (s.rx.any = true → b ≠ s.cfg.flag → s.rx.leadBad = false → s.rx.flags = .one →
      (s.rx.esc = true → (b = s.cfg.flag ^^^ s.cfg.xorm ∨ b = s.cfg.esc ^^^ s.cfg.xorm) → pushes (b ^^^ s.cfg.xorm)) ∧
      (s.rx.esc = true → b ≠ s.cfg.flag ^^^ s.cfg.xorm → b ≠ s.cfg.esc ^^^ s.cfg.xorm →
        exec i s = .next (after { s.rx with esc := false, ferr := true })) ∧
      (s.rx.esc = false → b = s.cfg.esc → exec i s = .next (after { s.rx with esc := true })) ∧
      (s.rx.esc = false → b ≠ s.cfg.esc → pushes b))

/-- R127: the evaluation in the step that receives the second `FLAG`, in the rule's order; an error leaves everything
but the result code, the phase and the flags; a good body writes the raw result registers and goes to the
post-processing. -/
def Obligations.SecondFlagEvaluatesInOrder : Prop :=
  ∀ (s : State) (i : Instr) (rest : List RxEvent), i.hostInvocable = true → s.phase = .rx →
    s.out.rxEvents = .byte s.cfg.flag :: rest → s.rx.any = true → s.rx.flags = .one →
    let fails (e : ErrKind) : Prop := exec i s = .next { s with
      phase := .idle, done := true, err := some e, rx := closedRx s, out := { s.out with rxEvents := rest } }
    let cnt := s.rx.cnt.toNat
    let declared := (s.rxbByte (s.cfg.headerLen - 1)).toNat
    (s.rx.leadBad = true → fails .framingError) ∧
    (s.rx.leadBad = false →
      ((s.rx.ferr = true ∨ s.rx.esc = true) → fails .framingError) ∧
      (s.rx.ferr = false → s.rx.esc = false →
        (cnt < s.cfg.headerLen + 1 → fails .truncatedFrameError) ∧
        (s.cfg.headerLen + 1 ≤ cnt → s.rx.sum ≠ 0xFF → fails .checksumError) ∧
        (s.cfg.headerLen + 1 ≤ cnt → s.rx.sum = 0xFF →
          (cnt < s.cfg.headerLen + 1 + declared → fails .truncatedFrameError) ∧
          (s.cfg.headerLen + 1 + declared < cnt → fails .framingError) ∧
          (cnt = s.cfg.headerLen + 1 + declared →
            ∃ t, exec i s = .next t ∧ endedWith t t.err ∧ (t.err = none ∨ t.err = some .protocolError) ∧
              t.raw.adr = s.rxbByte 0 ∧ t.raw.cmd = s.rxbByte 1 ∧
              t.raw.status = (if s.cfg.rxHasState then s.rxbByte 2 else 0x00) ∧
              t.raw.len = s.rxbByte (s.cfg.headerLen - 1)))))

/-- R126: a `timeout` or a `fault` in `RX` ends the operation with the error the rule gives, whatever the receive
machine holds besides `rx_any`; no result register is written. -/
def Obligations.TimeoutAndReadFaultEndTheOperation : Prop :=
  ∀ (s : State) (i : Instr) (rest : List RxEvent), i.hostInvocable = true → s.phase = .rx →
    (s.out.rxEvents = .fault :: rest → exec i s = .next { s with
      phase := .idle, done := true, err := some .transportError, out := { s.out with rxEvents := rest } }) ∧
    (s.out.rxEvents = .timeout :: rest → s.rx.any = false → exec i s = .next { s with
      phase := .idle, done := true, err := some .timeoutError, out := { s.out with rxEvents := rest } }) ∧
    (s.out.rxEvents = .timeout :: rest → s.rx.any = true → exec i s = .next { s with
      phase := .idle, done := true, err := some .truncatedFrameError, out := { s.out with rxEvents := rest } })

/-- R127: over a whole read phase from a fresh receive machine that `collect` ends with a frame, the block computes
`decode` of the bytes collected: its error, or the raw result registers and the payload in `RXP`; later events stay
in the stream (R115, R210). -/
def Obligations.ReceivePhaseComputesDecode : Prop :=
  ∀ (s : State) (rec : List Byte) (left : List RxEvent), s.Inv → s.phase = .rx → s.rx = RxMachine.fresh →
    s.out.inputs = [] → collect s.cfg s.out.rxEvents = .frame rec left →
    ∃ t : State, Sys2Proof.core.run rec.length s = .next t ∧ t.phase = .idle ∧ t.done = true ∧
      t.out = { s.out with rxEvents := left } ∧
      (∀ e, frameDecode s.cfg rec = .error e →
        t.err = some e ∧ t.raw = s.raw ∧ t.typed = s.typed ∧ t.str = s.str) ∧
      (∀ r, frameDecode s.cfg rec = .ok r →
        (t.err = none ∨ t.err = some .protocolError) ∧ t.raw = r.raw ∧ t.rxpBytes r.payload.length = r.payload)

/-- R191, R117, R190: if the stream holds what ends the read phase, the block is idle within as many steps as there are
events, "not indefinitely"; fairness of the stream is the premise (log 19). -/
def Obligations.ReadPhaseEndsUnderFairness : Prop :=
  ∀ s : State, s.Inv → s.phase = .rx → s.out.inputs = [] →
    readPhaseEnds s.cfg s.flagsMissing s.out.rxEvents = true →
    ∃ (n : Nat) (t : State), n ≤ s.out.rxEvents.length ∧ Sys2Proof.core.run n s = .next t ∧
      t.phase = .idle ∧ t.done = true

/-! ### How the operations complete -/

/-- R142, R143, R145, R146, R147, R152, R156: the six acknowledge-only operations complete on a good frame of any
payload length with a good status: `ERR` = 0, the raw result written, no typed result, nothing else changed. -/
def Obligations.AcknowledgeOnlyOperationsComplete : Prop :=
  ∀ (i : Instr), i ∈ [Instr.start, .stop, .sleep, .wakeup, .cleanFan, .reset] →
  ∀ (s : State) (len : Nat) (rest : List RxEvent), s.EndsGoodFrame len rest → s.receivedStatus = 0x00 →
    ∃ t, exec i s = .next t ∧ endedWith t none ∧ t.raw = s.receivedRaw ∧ t.typed = s.typed ∧
      (∀ a, t.strByte a = s.strByte a) ∧ endFrame s t rest

/-- R144: `READ_MEASUREMENT` completes on a good frame of 10 payload bytes: the five registers hold the five
big-endian fields in order, every other result register but the raw ones as it was. -/
def Obligations.ReadMeasurementCompletes : Prop :=
  ∀ (s : State) (rest : List RxEvent), s.EndsGoodFrame 10 rest → s.receivedStatus = 0x00 →
    ∃ t, exec .readMeasurement s = .next t ∧ endedWith t none ∧ t.raw = s.receivedRaw ∧
      t.typed.pm1_0.toNat = 256 * (s.rxpByte 0).toNat + (s.rxpByte 1).toNat ∧
      t.typed.pm2_5.toNat = 256 * (s.rxpByte 2).toNat + (s.rxpByte 3).toNat ∧
      t.typed.pm4_0.toNat = 256 * (s.rxpByte 4).toNat + (s.rxpByte 5).toNat ∧
      t.typed.pm10.toNat = 256 * (s.rxpByte 6).toNat + (s.rxpByte 7).toNat ∧
      t.typed.psize.toNat = 256 * (s.rxpByte 8).toNat + (s.rxpByte 9).toNat ∧
      t.typed = { s.typed with
        pm1_0 := t.typed.pm1_0, pm2_5 := t.typed.pm2_5, pm4_0 := t.typed.pm4_0
        pm10 := t.typed.pm10, psize := t.typed.psize } ∧
      (∀ a, t.strByte a = s.strByte a) ∧ endFrame s t rest

/-- R148: `READ_AUTOCLEAN` completes on a good frame of 4 payload bytes: `ACI` holds their big-endian value. -/
def Obligations.ReadAutocleanCompletes : Prop :=
  ∀ (s : State) (rest : List RxEvent), s.EndsGoodFrame 4 rest → s.receivedStatus = 0x00 →
    ∃ t, exec .readAutoclean s = .next t ∧ endedWith t none ∧ t.raw = s.receivedRaw ∧
      t.typed.aci.toNat = 2 ^ 24 * (s.rxpByte 0).toNat + 2 ^ 16 * (s.rxpByte 1).toNat +
        2 ^ 8 * (s.rxpByte 2).toNat + (s.rxpByte 3).toNat ∧
      t.typed = { s.typed with aci := t.typed.aci } ∧ (∀ a, t.strByte a = s.strByte a) ∧ endFrame s t rest

/-- R149: `WRITE_AUTOCLEAN` completes on a good frame with no payload; no typed result, `ACI` included, is written. -/
def Obligations.WriteAutocleanCompletes : Prop :=
  ∀ (s : State) (rest : List RxEvent), s.EndsGoodFrame 0 rest → s.receivedStatus = 0x00 →
    ∃ t, exec .writeAutoclean s = .next t ∧ endedWith t none ∧ t.raw = s.receivedRaw ∧ t.typed = s.typed ∧
      (∀ a, t.strByte a = s.strByte a) ∧ endFrame s t rest

/-- R150: `DEVICE_INFO` completes on a good frame whose payload's first 0x00 is at index `z`: `STR[0 .. z]` is the
payload up to and with the terminator, `STR` above it as it was, `STR_LEN` is `z`. -/
def Obligations.DeviceInfoCompletes : Prop :=
  ∀ (s : State) (len z : Nat) (rest : List RxEvent), s.EndsGoodFrame len rest → s.receivedStatus = 0x00 →
    z < len → s.rxpByte z = 0x00 → (∀ j, j < z → s.rxpByte j ≠ 0x00) →
    ∃ t, exec .deviceInfo s = .next t ∧ endedWith t none ∧ t.raw = s.receivedRaw ∧
      (∀ a, t.strByte a = if a ≤ z then s.rxpByte a else s.strByte a) ∧
      t.typed.strLen.toNat = z ∧ t.typed = { s.typed with strLen := t.typed.strLen } ∧ endFrame s t rest

/-- R151: `READ_VERSION` completes on a good frame of `VERSION_LEN` payload bytes: the three version registers hold
the first three big-endian fields in order. -/
def Obligations.ReadVersionCompletes : Prop :=
  ∀ (s : State) (rest : List RxEvent), s.EndsGoodFrame s.cfg.versionLen rest → s.receivedStatus = 0x00 →
    ∃ t, exec .readVersion s = .next t ∧ endedWith t none ∧ t.raw = s.receivedRaw ∧
      t.typed.fwVer.toNat = 256 * (s.rxpByte 0).toNat + (s.rxpByte 1).toNat ∧
      t.typed.hwVer.toNat = 256 * (s.rxpByte 2).toNat + (s.rxpByte 3).toNat ∧
      t.typed.shdlcVer.toNat = 256 * (s.rxpByte 4).toNat + (s.rxpByte 5).toNat ∧
      t.typed = { s.typed with
        fwVer := t.typed.fwVer, hwVer := t.typed.hwVer, shdlcVer := t.typed.shdlcVer } ∧
      (∀ a, t.strByte a = s.strByte a) ∧ endFrame s t rest

/-- R119: `XCHG` completes on every good frame, whatever its status, length and command code: the raw result only. -/
def Obligations.XchgCompletes : Prop :=
  ∀ (s : State) (len : Nat) (rest : List RxEvent), s.EndsGoodFrame len rest →
    ∃ t, exec .xchg s = .next t ∧ endedWith t none ∧ t.raw = s.receivedRaw ∧ t.typed = s.typed ∧
      (∀ a, t.strByte a = s.strByte a) ∧ endFrame s t rest

/-- R177, R141: on a good frame a typed operation ends with `ProtocolError` when the status is not 0x00, or the payload
length is not the required one, or the string has no terminator; the rejected response is in the raw result registers
and no typed result changes (R155). `XCHG` never does. -/
def Obligations.ProtocolErrorExactlyOnRefusedResponses : Prop :=
  ∀ (s : State) (i : Instr) (len : Nat) (rest : List RxEvent), i.hostInvocable = true → s.EndsGoodFrame len rest →
    let refused := i ≠ .xchg ∧ (s.receivedStatus ≠ 0x00 ∨
      (i = .readMeasurement ∧ len ≠ 10) ∨ (i = .readAutoclean ∧ len ≠ 4) ∨ (i = .writeAutoclean ∧ len ≠ 0) ∨
      (i = .readVersion ∧ len ≠ s.cfg.versionLen) ∨ (i = .deviceInfo ∧ ∀ j, j < len → s.rxpByte j ≠ 0x00))
    ∃ t, exec i s = .next t ∧ (t.err = some .protocolError ↔ refused) ∧
      (refused → endedWith t (some .protocolError) ∧ t.raw = s.receivedRaw ∧ t.typed = s.typed ∧
        (∀ a, t.strByte a = s.strByte a) ∧ endFrame s t rest)

/-- R113, R140, R119 with R19: the headline. From IDLE, a `GO` with the whole outside given as answers and events: the
block's steps compute the normative `exchange`. The bytes sent, the answers and events left, and the result are those
of the pure function; on an error no result register is written; on a response the raw registers and `RXP` report it,
and the typed operation's checks and extraction give `ERR` and the typed results as R83 and R84 say. -/
def Obligations.OperationComputesExchange : Prop :=
  ∀ (s : State) (i : Instr) (res : Except ErrKind Response), s.Inv → s.phase = .idle →
    decodeSelector s.opnd.op = .ok i → s.out.inputs = [.write (.go 1)] →
    let x := exchange s.cfg (requestCode s i) (requestPayload s i) s.out.txAnswers s.out.rxEvents
    x.result = some res →
    ∃ (n : Nat) (t : State), Sys2Proof.core.run n s = .next t ∧ t.phase = .idle ∧ t.done = true ∧
      t.cfg = s.cfg ∧ t.opnd = s.opnd ∧
      t.out = { s.out with
        inputs := [], txOut := s.out.txOut ++ x.sent, txAnswers := x.answersLeft, rxEvents := x.eventsLeft } ∧
      (∀ e, res = .error e → t.err = some e ∧ t.raw = s.raw ∧ t.typed = s.typed ∧
        ∀ a, t.strByte a = s.strByte a) ∧
      (∀ r, res = .ok r → t.err = responseResult s.cfg i r ∧ t.raw = r.raw ∧
        t.rxpBytes r.payload.length = r.payload ∧
        (t.err = none → t.typed = typedAfter i r.payload s.typed ∧
          ∀ a, t.strByte a = strByteAfter i r.payload (s.strByte a) a) ∧
        (t.err ≠ none → t.typed = s.typed ∧ ∀ a, t.strByte a = s.strByte a))

/-! ### Rules about the whole machine -/

/-- R120: the phases move only along the rule's arrows, in every step of the machine; every arrow into IDLE from a busy
phase is a `finish` or the reset event. -/
def Obligations.PhaseMovesOnlyAlongTheArrows : Prop :=
  ∀ s t : State, step s = .next t →
    (s.phase = .idle → t.phase = .idle ∨ t.phase = .tx) ∧
    (s.phase = .tx → t.phase = .idle ∨ t.phase = .tx ∨ t.phase = .rx) ∧
    (s.phase = .rx → t.phase = .idle ∨ t.phase = .rx) ∧
    (s.phase ≠ .idle → t.phase = .idle → t.done = true ∨ ∃ rest, s.out.inputs = .resetEvent :: rest) ∧
    (t.phase ≠ s.phase → t.phase = .tx → t.done = false ∧ t.err = none)

/-- R155: an operation's step that leaves an error in `ERR` has written no typed result register, and with any error
but `ProtocolError` no raw result register either. -/
def Obligations.FailureKeepsTheResults : Prop :=
  ∀ (s t : State) (i : Instr), exec i s = .next t → t.err ≠ none →
    t.typed = s.typed ∧ (∀ a, t.strByte a = s.strByte a) ∧ (t.err ≠ some .protocolError → t.raw = s.raw)

/-- R34, R35: each typed result register is written only by the operation named, only in a step in which it succeeds. -/
def Obligations.TypedResultsWrittenOnlyByTheirOperation : Prop :=
  ∀ (s t : State) (i : Instr), exec i s = .next t →
    (i ≠ .readMeasurement → t.typed.pm1_0 = s.typed.pm1_0 ∧ t.typed.pm2_5 = s.typed.pm2_5 ∧
      t.typed.pm4_0 = s.typed.pm4_0 ∧ t.typed.pm10 = s.typed.pm10 ∧ t.typed.psize = s.typed.psize) ∧
    (i ≠ .readAutoclean → t.typed.aci = s.typed.aci) ∧
    (i ≠ .readVersion → t.typed.fwVer = s.typed.fwVer ∧ t.typed.hwVer = s.typed.hwVer ∧
      t.typed.shdlcVer = s.typed.shdlcVer) ∧
    (i ≠ .deviceInfo → t.typed.strLen = s.typed.strLen ∧ ∀ a, t.strByte a = s.strByte a) ∧
    (t.typed ≠ s.typed ∨ (∃ a, t.strByte a ≠ s.strByte a) → s.phase = .rx ∧ endedWith t none)

/-- R32, R127: the raw result registers are written together, only by the evaluation of a frame that passes every check
of `decode`; every other step of any operation leaves them. -/
def Obligations.RawResultsWrittenOnlyByAGoodFrame : Prop :=
  ∀ (s t : State) (i : Instr), exec i s = .next t → t.raw ≠ s.raw →
    s.phase = .rx ∧ t.raw = s.receivedRaw ∧
    ∃ (b : Byte) (rest : List RxEvent), s.out.rxEvents = .byte b :: rest ∧ b = s.cfg.flag ∧ s.rx.any = true ∧
      s.rx.leadBad = false ∧ s.rx.esc = false ∧ s.rx.ferr = false ∧ s.rx.sum = 0xFF ∧
      s.rx.cnt.toNat = s.cfg.headerLen + 1 + (s.rxbByte (s.cfg.headerLen - 1)).toNat

/-- R37, R62, R65: while an operation is in flight the captured operands stay, and so do the operand registers and
`TXP`, whatever the step does. -/
def Obligations.OperandsAreConstantInFlight : Prop :=
  ∀ s t : State, step s = .next t → s.phase ≠ .idle → t.phase ≠ .idle →
    t.cap = s.cap ∧ t.opnd = s.opnd ∧ ∀ a, t.txpByte a = s.txpByte a

/-- R183, R54, R59, R115: RX events are taken only in `RX`, one at a time from the front; answers only in `TX`; the TX
stream only grows, by at most one byte a step, and only in `TX`. -/
def Obligations.StreamsMoveOnlyInTheirPhase : Prop :=
  ∀ s t : State, step s = .next t →
    (t.out.rxEvents = s.out.rxEvents ∨ s.phase = .rx ∧ ∃ e, s.out.rxEvents = e :: t.out.rxEvents) ∧
    (t.out.txAnswers = s.out.txAnswers ∨ s.phase = .tx ∧ ∃ a, s.out.txAnswers = a :: t.out.txAnswers) ∧
    (t.out.txOut = s.out.txOut ∨ s.phase = .tx ∧ ∃ x, t.out.txOut = s.out.txOut ++ [x])

/-- R40, R202: no step writes the hardwired constants and parameters. -/
def Obligations.ParametersNeverChange : Prop :=
  ∀ s t : State, step s = .next t → t.cfg = s.cfg

/-- R25: no operation reads `ARG_EXPLEN`; a different value there changes nothing else in what any step of any
operation does. -/
def Obligations.ExpectedLengthHasNoEffect : Prop :=
  ∀ (s t : State) (i : Instr) (v : BitVec 9), exec i s = .next t →
    exec i { s with opnd := { s.opnd with argExplen := v } } =
      .next { t with opnd := { t.opnd with argExplen := v } }

/-- R66: no scratch state of one operation is read by the next: two idle states that differ only in captured
operands, transmit machine, receive machine and `RXB` have `GO` steps that differ only in those, and after a good
`GO` only in the receive machine and `RXB`; the entry to `RX` leaves the same receive machine whatever it was; and two
`RX` states that agree on the bytes of `RXB` this read phase has stored (none at the entry) take the same step in
everything but `RXB`, where they still agree so: what an earlier operation left in `RXB` is not read. -/
def Obligations.ScratchIsNotReadAcrossOperations : Prop :=
  (∀ (s t : State) (i : Instr) (cap : Captured) (tx : TxMachine) (rx : RxMachine) (rxb : Memory),
    i.hostInvocable = true → s.phase = .idle → exec i s = .next t →
    ∃ t', exec i { s with cap := cap, tx := tx, rx := rx, rxb := rxb } = .next t' ∧
      t' = { t with tx := t'.tx, rx := t'.rx, rxb := t'.rxb } ∧ (t.phase = .tx → t'.tx = t.tx)) ∧
  (∀ (s t : State) (i : Instr) (rx : RxMachine), i.hostInvocable = true → s.phase = .tx → exec i s = .next t →
    t.phase = .rx → exec i { s with rx := rx } = .next t) ∧
  (∀ (s t : State) (i : Instr) (rxb : Memory), i.hostInvocable = true → s.phase = .rx → s.cfg.valid →
    (∀ a, a < s.rx.cnt.toNat → a < s.cfg.maxBody → State.rxbByte { s with rxb := rxb } a = s.rxbByte a) →
    exec i s = .next t →
    ∃ t', exec i { s with rxb := rxb } = .next t' ∧ t' = { t with rxb := t'.rxb } ∧
      ∀ a, a < t.rx.cnt.toNat → a < t.cfg.maxBody → t'.rxbByte a = t.rxbByte a)

/-- R157: no typed operation compares the response's command code or address: replacing both bytes of the body
changes neither the result code nor any typed result of the step that ends the frame. -/
def Obligations.ResponseEchoIsNotCompared : Prop :=
  ∀ (s t : State) (i : Instr) (adr cmd : Byte) (len : Nat) (rest : List RxEvent), i.hostInvocable = true →
    s.EndsGoodFrame len rest → exec i s = .next t →
    ∃ t', exec i { s with rxb := (s.rxb.set 0 adr).set 1 cmd } = .next t' ∧
      t'.err = t.err ∧ t'.phase = t.phase ∧ t'.done = t.done ∧ t'.typed = t.typed ∧
      (∀ a, t'.strByte a = t.strByte a) ∧
      t'.raw = { t.raw with adr := adr, cmd := cmd }

/-- The invariant holds right after reset (R45). -/
def Obligations.InvariantHoldsAtReset : Prop := State.reset.Inv

/-- Every step keeps the invariant (R29, R30, R36 to R39, R60, R123, R125): the buffers keep their canonical form and
their bounds, the busy flags, the transmit machine's index, sum and owed escape, the receive machine's count and
sum. -/
def Obligations.InvariantKeptByEveryStep : Prop :=
  ∀ s t : State, s.Inv → step s = .next t → t.Inv
end

