-- ==== Sys2Proof/Laws/Codec.lean ====
section
/-! SUPPORT. Small lemmas of the codec's pure functions, by their defining cases. -/

namespace Sys2Proof.Machine

@[simp] theorem sum8_nil : sum8 [] = 0x00 := rfl

theorem foldl_add8 (s : List Byte) (a : Byte) : s.foldl add8 a = add8 a (s.foldl add8 0x00) := by
  induction s generalizing a with
  | nil => simp [add8]
  | cons b s ih =>
    simp only [List.foldl_cons]
    rw [ih (add8 a b), ih (add8 0x00 b)]
    simp [add8, BitVec.add_assoc]

theorem sum8_cons (b : Byte) (s : List Byte) : sum8 (b :: s) = add8 b (sum8 s) := by
  simp only [sum8, List.foldl_cons]
  rw [foldl_add8]
  simp [add8]

theorem sum8_append (s t : List Byte) : sum8 (s ++ t) = add8 (sum8 s) (sum8 t) := by
  simp only [sum8, List.foldl_append]
  rw [foldl_add8]

@[simp] theorem stuff_nil (c : Config) : stuff c [] = [] := rfl

theorem stuff_cons (c : Config) (b : Byte) (s : List Byte) : stuff c (b :: s) = stuff1 c b ++ stuff c s := rfl

theorem stuff1_of_reserved {c : Config} {b : Byte} (h : isReserved c b = true) :
    stuff1 c b = [c.esc, b ^^^ c.xorm] := by simp [stuff1, h]

theorem stuff1_of_plain {c : Config} {b : Byte} (h : isReserved c b = false) : stuff1 c b = [b] := by
  simp [stuff1, h]

theorem isReserved_iff (c : Config) (b : Byte) : isReserved c b = true ↔ b = c.flag ∨ b = c.esc := by
  simp [isReserved]

theorem isEscapedCode_iff (c : Config) (b : Byte) :
    isEscapedCode c b = true ↔ b = c.flag ^^^ c.xorm ∨ b = c.esc ^^^ c.xorm := by
  simp [isEscapedCode]

@[simp] theorem unstuff_nil (c : Config) : unstuff c [] = .ok [] := rfl

/-- An interior byte that is neither `FLAG` nor `ESC` stands for itself (R106). -/
theorem unstuff_plain {c : Config} {b : Byte} (h : isReserved c b = false) (rest : List Byte) :
    unstuff c (b :: rest) = (unstuff c rest).map (b :: ·) := by
  have hb := (isReserved_iff c b).not.mp (by simp [h])
  cases rest with
  | nil => simp [unstuff, h, Except.map]
  | cons d rest => simp [unstuff, not_or.mp hb]

/-- A `FLAG` in the interior fails (R106). -/
theorem unstuff_flag (c : Config) (rest : List Byte) : unstuff c (c.flag :: rest) = .error .framingError := by
  cases rest <;> simp [unstuff, isReserved]

/-- `ESC` with a valid partner (R106). -/
theorem unstuff_escape {c : Config} (hc : c.flag ≠ c.esc) {d : Byte} (h : isEscapedCode c d = true)
    (rest : List Byte) : unstuff c (c.esc :: d :: rest) = (unstuff c rest).map ((d ^^^ c.xorm) :: ·) := by
  simp [unstuff, h, hc.symm]

/-- `ESC` with any other partner fails (R106). -/
theorem unstuff_bad_escape {c : Config} {d : Byte} (h : isEscapedCode c d = false)
    (rest : List Byte) : unstuff c (c.esc :: d :: rest) = .error .framingError := by
  by_cases hc : c.esc = c.flag <;> simp [unstuff, h, hc]

/-- `ESC` as the last interior byte fails (R106). -/
theorem unstuff_last_escape (c : Config) : unstuff c [c.esc] = .error .framingError := by
  simp [unstuff, isReserved]

theorem headerLen_cases (c : Config) : c.headerLen = 3 ∨ c.headerLen = 4 := by
  unfold Config.headerLen
  split <;> simp

theorem maxBody_lt (c : Config) : c.maxBody + 1 < 512 := by
  have := headerLen_cases c
  simp only [Config.maxBody, maxPayload]
  omega

@[simp] theorem collectFrom_nil (c : Config) (rec : List Byte) : collectFrom c rec [] = .waiting rec := rfl

end Sys2Proof.Machine
end

