-- ==== Sys2Proof/Laws/Memory.lean ====
section
/-! SUPPORT. The laws of a byte buffer: a read after a write, and that every operation keeps the canonical form. -/

namespace Sys2Proof.Machine

@[simp] theorem Memory.get?_nil (a : Nat) : Memory.get? [] a = none := rfl

theorem Memory.get?_cons (k : Nat) (b : Byte) (m : Memory) (a : Nat) :
    Memory.get? ((k, b) :: m) a = if a = k then some b else m.get? a := rfl

theorem Memory.set_cons (k : Nat) (b : Byte) (m : Memory) (a : Nat) (v : Byte) :
    Memory.set ((k, b) :: m) a v =
      if a < k then (a, v) :: (k, b) :: m else if a = k then (k, v) :: m else (k, b) :: m.set a v := rfl

/-- The one law of a write: the written index holds the byte, every other index what it held. -/
theorem Memory.get?_set (m : Memory) (a : Nat) (v : Byte) (x : Nat) :
    (m.set a v).get? x = if x = a then some v else m.get? x := by
  induction m with
  | nil => simp [Memory.set, Memory.get?]
  | cons cell m ih =>
    obtain ⟨k, b⟩ := cell
    rw [Memory.set_cons]
    split
    · rw [Memory.get?_cons]
    · split
      · subst_vars
        by_cases hx : x = k <;> simp [Memory.get?_cons, hx]
      · by_cases hx : x = k
        · have : ¬ x = a := by omega
          simp only [Memory.get?_cons, hx, ↓reduceIte]
          split <;> first | rfl | omega
        · simp [Memory.get?_cons, hx, ih]

@[simp] theorem Memory.get?_set_same (m : Memory) (a : Nat) (v : Byte) : (m.set a v).get? a = some v := by
  simp [Memory.get?_set]

theorem Memory.get?_set_other (m : Memory) {a x : Nat} (v : Byte) (h : x ≠ a) : (m.set a v).get? x = m.get? x := by
  simp [Memory.get?_set, h]

@[simp] theorem Memory.setAll_nil (m : Memory) (a : Nat) : m.setAll a [] = m := rfl

theorem Memory.setAll_cons (m : Memory) (a : Nat) (v : Byte) (vs : List Byte) :
    m.setAll a (v :: vs) = (m.set a v).setAll (a + 1) vs := rfl

/-- The law of a block write: index `x` holds the block's byte if it lies in the block, else what it held. -/
theorem Memory.get?_setAll (m : Memory) (a : Nat) (vs : List Byte) (x : Nat) :
    (m.setAll a vs).get? x = if a ≤ x ∧ x < a + vs.length then vs[x - a]? else m.get? x := by
  induction vs generalizing m a with
  | nil =>
    have : ¬ (a ≤ x ∧ x < a + ([] : List Byte).length) := by simp
    rw [if_neg this, Memory.setAll_nil]
  | cons v vs ih =>
    rw [Memory.setAll_cons, ih, Memory.get?_set]
    by_cases hx : x = a
    · subst hx
      simp
    · rw [if_neg hx]
      by_cases h : a + 1 ≤ x ∧ x < a + 1 + vs.length
      · have h' : a ≤ x ∧ x < a + (v :: vs).length := by rw [List.length_cons]; omega
        have e : x - a = (x - (a + 1)) + 1 := by omega
        rw [if_pos h, if_pos h', e, List.getElem?_cons_succ]
      · have h' : ¬ (a ≤ x ∧ x < a + (v :: vs).length) := by rw [List.length_cons]; omega
        rw [if_neg h, if_neg h']

theorem Memory.risesAbove_set (m : Memory) (lo : Option Nat) (a : Nat) (v : Byte)
    (h : Memory.risesAbove lo m = true) (ha : ∀ l, lo = some l → l < a) : Memory.risesAbove lo (m.set a v) = true := by
  induction m generalizing lo with
  | nil => cases lo <;> simp_all [Memory.set, Memory.risesAbove]
  | cons cell m ih =>
    obtain ⟨k, b⟩ := cell
    rw [Memory.set_cons]
    simp only [Memory.risesAbove, Bool.and_eq_true] at h
    split
    · rename_i hlt
      cases lo <;> simp_all [Memory.risesAbove]
    · split
      · subst_vars
        simp [Memory.risesAbove, h]
      · simp only [Memory.risesAbove, Bool.and_eq_true]
        exact ⟨h.1, ih (some k) h.2 (by intro l hl; cases hl; omega)⟩

/-- A write keeps the canonical form. -/
theorem Memory.wf_set {m : Memory} (h : m.wf = true) (a : Nat) (v : Byte) : (m.set a v).wf = true :=
  Memory.risesAbove_set m none a v h (by simp)

/-- A block write keeps the canonical form. -/
theorem Memory.wf_setAll {m : Memory} (h : m.wf = true) (a : Nat) (vs : List Byte) : (m.setAll a vs).wf = true := by
  induction vs generalizing m a with
  | nil => exact h
  | cons v vs ih => exact ih (Memory.wf_set h a v) (a + 1)

/-- A write below the buffer's size stays in the buffer. -/
theorem Memory.fits_set {m : Memory} {n : Nat} (h : m.fits n = true) {a : Nat} (ha : a < n) (v : Byte) :
    (m.set a v).fits n = true := by
  induction m with
  | nil => simpa [Memory.set, Memory.fits] using ha
  | cons cell m ih =>
    obtain ⟨k, b⟩ := cell
    simp only [Memory.fits, List.all_cons, Bool.and_eq_true, decide_eq_true_eq] at h ih ⊢
    rw [Memory.set_cons]
    split
    · simp only [List.all_cons, Bool.and_eq_true, decide_eq_true_eq]
      exact ⟨ha, h⟩
    · split
      · simp only [List.all_cons, Bool.and_eq_true, decide_eq_true_eq]
        exact h
      · simp only [List.all_cons, Bool.and_eq_true, decide_eq_true_eq]
        exact ⟨h.1, ih h.2⟩

/-- A block write below the buffer's size stays in the buffer. -/
theorem Memory.fits_setAll {m : Memory} {n : Nat} (h : m.fits n = true) (a : Nat) (vs : List Byte)
    (ha : a + vs.length ≤ n) : (m.setAll a vs).fits n = true := by
  induction vs generalizing m a with
  | nil => exact h
  | cons v vs ih =>
    simp only [List.length_cons] at ha
    exact ih (Memory.fits_set h (by omega) v) (a + 1) (by omega)

/-- A buffer that holds no value is in canonical form. -/
@[simp] theorem Memory.wf_nil : Memory.wf [] = true := rfl

@[simp] theorem Memory.fits_nil (n : Nat) : Memory.fits [] n = true := rfl

end Sys2Proof.Machine
end

