-- ==== Sys2Proof/Laws/State.lean ====
section
/-! SUPPORT. One lemma per field per update of the state, each true by rfl, so that no proof unfolds a record update. -/

namespace Sys2Proof.Machine

/-! ### `finish` -/

@[simp] theorem finish_cfg (e : Option ErrKind) (s : State) : (finish e s).cfg = s.cfg := rfl
@[simp] theorem finish_opnd (e : Option ErrKind) (s : State) : (finish e s).opnd = s.opnd := rfl
@[simp] theorem finish_txp (e : Option ErrKind) (s : State) : (finish e s).txp = s.txp := rfl
@[simp] theorem finish_phase (e : Option ErrKind) (s : State) : (finish e s).phase = .idle := rfl
@[simp] theorem finish_done (e : Option ErrKind) (s : State) : (finish e s).done = true := rfl
@[simp] theorem finish_err (e : Option ErrKind) (s : State) : (finish e s).err = e := rfl
@[simp] theorem finish_rxb (e : Option ErrKind) (s : State) : (finish e s).rxb = s.rxb := rfl
@[simp] theorem finish_raw (e : Option ErrKind) (s : State) : (finish e s).raw = s.raw := rfl
@[simp] theorem finish_typed (e : Option ErrKind) (s : State) : (finish e s).typed = s.typed := rfl
@[simp] theorem finish_str (e : Option ErrKind) (s : State) : (finish e s).str = s.str := rfl
@[simp] theorem finish_cap (e : Option ErrKind) (s : State) : (finish e s).cap = s.cap := rfl
@[simp] theorem finish_tx (e : Option ErrKind) (s : State) : (finish e s).tx = s.tx := rfl
@[simp] theorem finish_rx (e : Option ErrKind) (s : State) : (finish e s).rx = s.rx := rfl
@[simp] theorem finish_out (e : Option ErrKind) (s : State) : (finish e s).out = s.out := rfl

/-! ### `withInputs` -/

@[simp] theorem withInputs_cfg (s : State) (is : List Input) : (s.withInputs is).cfg = s.cfg := rfl
@[simp] theorem withInputs_opnd (s : State) (is : List Input) : (s.withInputs is).opnd = s.opnd := rfl
@[simp] theorem withInputs_txp (s : State) (is : List Input) : (s.withInputs is).txp = s.txp := rfl
@[simp] theorem withInputs_phase (s : State) (is : List Input) : (s.withInputs is).phase = s.phase := rfl
@[simp] theorem withInputs_done (s : State) (is : List Input) : (s.withInputs is).done = s.done := rfl
@[simp] theorem withInputs_err (s : State) (is : List Input) : (s.withInputs is).err = s.err := rfl
@[simp] theorem withInputs_rxb (s : State) (is : List Input) : (s.withInputs is).rxb = s.rxb := rfl
@[simp] theorem withInputs_raw (s : State) (is : List Input) : (s.withInputs is).raw = s.raw := rfl
@[simp] theorem withInputs_typed (s : State) (is : List Input) : (s.withInputs is).typed = s.typed := rfl
@[simp] theorem withInputs_str (s : State) (is : List Input) : (s.withInputs is).str = s.str := rfl
@[simp] theorem withInputs_cap (s : State) (is : List Input) : (s.withInputs is).cap = s.cap := rfl
@[simp] theorem withInputs_tx (s : State) (is : List Input) : (s.withInputs is).tx = s.tx := rfl
@[simp] theorem withInputs_rx (s : State) (is : List Input) : (s.withInputs is).rx = s.rx := rfl
@[simp] theorem withInputs_out (s : State) (is : List Input) : (s.withInputs is).out = { s.out with inputs := is } := rfl

/-! ### `writeRaw` -/

@[simp] theorem writeRaw_cfg (s : State) : (writeRaw s).cfg = s.cfg := rfl
@[simp] theorem writeRaw_opnd (s : State) : (writeRaw s).opnd = s.opnd := rfl
@[simp] theorem writeRaw_txp (s : State) : (writeRaw s).txp = s.txp := rfl
@[simp] theorem writeRaw_phase (s : State) : (writeRaw s).phase = s.phase := rfl
@[simp] theorem writeRaw_done (s : State) : (writeRaw s).done = s.done := rfl
@[simp] theorem writeRaw_err (s : State) : (writeRaw s).err = s.err := rfl
@[simp] theorem writeRaw_rxb (s : State) : (writeRaw s).rxb = s.rxb := rfl
@[simp] theorem writeRaw_raw (s : State) : (writeRaw s).raw = s.receivedRaw := rfl
@[simp] theorem writeRaw_typed (s : State) : (writeRaw s).typed = s.typed := rfl
@[simp] theorem writeRaw_str (s : State) : (writeRaw s).str = s.str := rfl
@[simp] theorem writeRaw_cap (s : State) : (writeRaw s).cap = s.cap := rfl
@[simp] theorem writeRaw_tx (s : State) : (writeRaw s).tx = s.tx := rfl
@[simp] theorem writeRaw_rx (s : State) : (writeRaw s).rx = s.rx := rfl
@[simp] theorem writeRaw_out (s : State) : (writeRaw s).out = s.out := rfl

/-! ### `rxPush` -/

@[simp] theorem rxPush_cfg (v : Byte) (s : State) : (rxPush v s).cfg = s.cfg := rfl
@[simp] theorem rxPush_opnd (v : Byte) (s : State) : (rxPush v s).opnd = s.opnd := rfl
@[simp] theorem rxPush_txp (v : Byte) (s : State) : (rxPush v s).txp = s.txp := rfl
@[simp] theorem rxPush_phase (v : Byte) (s : State) : (rxPush v s).phase = s.phase := rfl
@[simp] theorem rxPush_done (v : Byte) (s : State) : (rxPush v s).done = s.done := rfl
@[simp] theorem rxPush_err (v : Byte) (s : State) : (rxPush v s).err = s.err := rfl
@[simp] theorem rxPush_rxb (v : Byte) (s : State) : (rxPush v s).rxb = (if s.rx.cnt.toNat < s.cfg.maxBody then s.rxb.set s.rx.cnt.toNat v else s.rxb) := rfl
@[simp] theorem rxPush_raw (v : Byte) (s : State) : (rxPush v s).raw = s.raw := rfl
@[simp] theorem rxPush_typed (v : Byte) (s : State) : (rxPush v s).typed = s.typed := rfl
@[simp] theorem rxPush_str (v : Byte) (s : State) : (rxPush v s).str = s.str := rfl
@[simp] theorem rxPush_cap (v : Byte) (s : State) : (rxPush v s).cap = s.cap := rfl
@[simp] theorem rxPush_tx (v : Byte) (s : State) : (rxPush v s).tx = s.tx := rfl
@[simp] theorem rxPush_rx (v : Byte) (s : State) : (rxPush v s).rx = { s.rx with cnt := countBody s.cfg s.rx.cnt, sum := add8 s.rx.sum v } := rfl
@[simp] theorem rxPush_out (v : Byte) (s : State) : (rxPush v s).out = s.out := rfl

/-! ### `extractMeasurement` -/

@[simp] theorem extractMeasurement_cfg (s : State) : (extractMeasurement s).cfg = s.cfg := rfl
@[simp] theorem extractMeasurement_opnd (s : State) : (extractMeasurement s).opnd = s.opnd := rfl
@[simp] theorem extractMeasurement_txp (s : State) : (extractMeasurement s).txp = s.txp := rfl
@[simp] theorem extractMeasurement_phase (s : State) : (extractMeasurement s).phase = s.phase := rfl
@[simp] theorem extractMeasurement_done (s : State) : (extractMeasurement s).done = s.done := rfl
@[simp] theorem extractMeasurement_err (s : State) : (extractMeasurement s).err = s.err := rfl
@[simp] theorem extractMeasurement_rxb (s : State) : (extractMeasurement s).rxb = s.rxb := rfl
@[simp] theorem extractMeasurement_raw (s : State) : (extractMeasurement s).raw = s.raw := rfl
@[simp] theorem extractMeasurement_typed (s : State) : (extractMeasurement s).typed = { s.typed with pm1_0 := s.field16 0, pm2_5 := s.field16 2, pm4_0 := s.field16 4, pm10 := s.field16 6, psize := s.field16 8 } := rfl
@[simp] theorem extractMeasurement_str (s : State) : (extractMeasurement s).str = s.str := rfl
@[simp] theorem extractMeasurement_cap (s : State) : (extractMeasurement s).cap = s.cap := rfl
@[simp] theorem extractMeasurement_tx (s : State) : (extractMeasurement s).tx = s.tx := rfl
@[simp] theorem extractMeasurement_rx (s : State) : (extractMeasurement s).rx = s.rx := rfl
@[simp] theorem extractMeasurement_out (s : State) : (extractMeasurement s).out = s.out := rfl

/-! ### `extractAutoclean` -/

@[simp] theorem extractAutoclean_cfg (s : State) : (extractAutoclean s).cfg = s.cfg := rfl
@[simp] theorem extractAutoclean_opnd (s : State) : (extractAutoclean s).opnd = s.opnd := rfl
@[simp] theorem extractAutoclean_txp (s : State) : (extractAutoclean s).txp = s.txp := rfl
@[simp] theorem extractAutoclean_phase (s : State) : (extractAutoclean s).phase = s.phase := rfl
@[simp] theorem extractAutoclean_done (s : State) : (extractAutoclean s).done = s.done := rfl
@[simp] theorem extractAutoclean_err (s : State) : (extractAutoclean s).err = s.err := rfl
@[simp] theorem extractAutoclean_rxb (s : State) : (extractAutoclean s).rxb = s.rxb := rfl
@[simp] theorem extractAutoclean_raw (s : State) : (extractAutoclean s).raw = s.raw := rfl
@[simp] theorem extractAutoclean_typed (s : State) : (extractAutoclean s).typed = { s.typed with aci := s.field32 0 } := rfl
@[simp] theorem extractAutoclean_str (s : State) : (extractAutoclean s).str = s.str := rfl
@[simp] theorem extractAutoclean_cap (s : State) : (extractAutoclean s).cap = s.cap := rfl
@[simp] theorem extractAutoclean_tx (s : State) : (extractAutoclean s).tx = s.tx := rfl
@[simp] theorem extractAutoclean_rx (s : State) : (extractAutoclean s).rx = s.rx := rfl
@[simp] theorem extractAutoclean_out (s : State) : (extractAutoclean s).out = s.out := rfl

/-! ### `extractVersion` -/

@[simp] theorem extractVersion_cfg (s : State) : (extractVersion s).cfg = s.cfg := rfl
@[simp] theorem extractVersion_opnd (s : State) : (extractVersion s).opnd = s.opnd := rfl
@[simp] theorem extractVersion_txp (s : State) : (extractVersion s).txp = s.txp := rfl
@[simp] theorem extractVersion_phase (s : State) : (extractVersion s).phase = s.phase := rfl
@[simp] theorem extractVersion_done (s : State) : (extractVersion s).done = s.done := rfl
@[simp] theorem extractVersion_err (s : State) : (extractVersion s).err = s.err := rfl
@[simp] theorem extractVersion_rxb (s : State) : (extractVersion s).rxb = s.rxb := rfl
@[simp] theorem extractVersion_raw (s : State) : (extractVersion s).raw = s.raw := rfl
@[simp] theorem extractVersion_typed (s : State) : (extractVersion s).typed = { s.typed with fwVer := s.field16 0, hwVer := s.field16 2, shdlcVer := s.field16 4 } := rfl
@[simp] theorem extractVersion_str (s : State) : (extractVersion s).str = s.str := rfl
@[simp] theorem extractVersion_cap (s : State) : (extractVersion s).cap = s.cap := rfl
@[simp] theorem extractVersion_tx (s : State) : (extractVersion s).tx = s.tx := rfl
@[simp] theorem extractVersion_rx (s : State) : (extractVersion s).rx = s.rx := rfl
@[simp] theorem extractVersion_out (s : State) : (extractVersion s).out = s.out := rfl

/-! ### `resetEvent` -/

@[simp] theorem resetEvent_cfg (s : State) : (resetEvent s).cfg = s.cfg := rfl
@[simp] theorem resetEvent_opnd (s : State) : (resetEvent s).opnd = (State.afterReset s.cfg s.out).opnd := rfl
@[simp] theorem resetEvent_txp (s : State) : (resetEvent s).txp = [] := rfl
@[simp] theorem resetEvent_phase (s : State) : (resetEvent s).phase = .idle := rfl
@[simp] theorem resetEvent_done (s : State) : (resetEvent s).done = false := rfl
@[simp] theorem resetEvent_err (s : State) : (resetEvent s).err = none := rfl
@[simp] theorem resetEvent_rxb (s : State) : (resetEvent s).rxb = [] := rfl
@[simp] theorem resetEvent_raw (s : State) : (resetEvent s).raw = (State.afterReset s.cfg s.out).raw := rfl
@[simp] theorem resetEvent_typed (s : State) : (resetEvent s).typed = (State.afterReset s.cfg s.out).typed := rfl
@[simp] theorem resetEvent_str (s : State) : (resetEvent s).str = [] := rfl
@[simp] theorem resetEvent_cap (s : State) : (resetEvent s).cap = (State.afterReset s.cfg s.out).cap := rfl
@[simp] theorem resetEvent_tx (s : State) : (resetEvent s).tx = (State.afterReset s.cfg s.out).tx := rfl
@[simp] theorem resetEvent_rx (s : State) : (resetEvent s).rx = (State.afterReset s.cfg s.out).rx := rfl
@[simp] theorem resetEvent_out (s : State) : (resetEvent s).out = s.out := rfl

/-! ### reads of the buffers after updates that do not touch them -/

@[simp] theorem finish_txpByte (e : Option ErrKind) (s : State) (a : Nat) : (finish e s).txpByte a = s.txpByte a := rfl
@[simp] theorem finish_rxbByte (e : Option ErrKind) (s : State) (a : Nat) : (finish e s).rxbByte a = s.rxbByte a := rfl
@[simp] theorem finish_strByte (e : Option ErrKind) (s : State) (a : Nat) : (finish e s).strByte a = s.strByte a := rfl
@[simp] theorem finish_rxpByte (e : Option ErrKind) (s : State) (a : Nat) : (finish e s).rxpByte a = s.rxpByte a := rfl
@[simp] theorem withInputs_txpByte (s : State) (is : List Input) (a : Nat) : (s.withInputs is).txpByte a = s.txpByte a := rfl
@[simp] theorem withInputs_rxbByte (s : State) (is : List Input) (a : Nat) : (s.withInputs is).rxbByte a = s.rxbByte a := rfl
@[simp] theorem withInputs_strByte (s : State) (is : List Input) (a : Nat) : (s.withInputs is).strByte a = s.strByte a := rfl
@[simp] theorem withInputs_rxpByte (s : State) (is : List Input) (a : Nat) : (s.withInputs is).rxpByte a = s.rxpByte a := rfl
@[simp] theorem writeRaw_txpByte (s : State) (a : Nat) : (writeRaw s).txpByte a = s.txpByte a := rfl
@[simp] theorem writeRaw_rxbByte (s : State) (a : Nat) : (writeRaw s).rxbByte a = s.rxbByte a := rfl
@[simp] theorem writeRaw_strByte (s : State) (a : Nat) : (writeRaw s).strByte a = s.strByte a := rfl
@[simp] theorem writeRaw_rxpByte (s : State) (a : Nat) : (writeRaw s).rxpByte a = s.rxpByte a := rfl

end Sys2Proof.Machine
end

