-- ==== Sys2Proof/Laws/Ops.lean ====
section
/-! SUPPORT. What each shared operation can do, said once: the lemmas the proofs cite instead of unfolding it. -/

namespace Sys2Proof.Machine

/-- The state the `GO` step has built before it looks at the length (R121). -/
def built (sel : BitVec 4) (cmd : Byte) (len : BitVec 9) (txp : Memory) (s : State) : State :=
  { s with
    done := false
    err := none
    cap := { op := sel, cmd := cmd, len := len, kind := s.opnd.argKind, value := s.opnd.argValue }
    txp := txp }

/-- All a `GO` step can do: refuse a length above 255 with `EncodingError`, or enter `TX` with a fresh machine. -/
theorem goStep_cases (sel : BitVec 4) (cmd : Byte) (len : BitVec 9) (txp : Memory) (s : State) :
    (maxPayload < len.toNat ∧
      goStep sel cmd len txp s = finish (some .encodingError) (built sel cmd len txp s)) ∨
    (len.toNat ≤ maxPayload ∧
      goStep sel cmd len txp s = { built sel cmd len txp s with phase := .tx, tx := TxMachine.fresh }) := by
  by_cases h : len.toNat > maxPayload
  · exact .inl ⟨h, by simp [goStep, built, h]⟩
  · exact .inr ⟨by omega, by simp [goStep, built, h]⟩

/-- A typed operation's request always fits, so its `GO` step enters `TX`. -/
theorem goTyped_eq (sel : BitVec 4) (cmd : Byte) (payload : List Byte) (h : payload.length ≤ maxPayload) (s : State) :
    goTyped sel cmd payload s =
      { built sel cmd (BitVec.ofNat 9 payload.length) (s.txp.setAll 0 payload) s with
        phase := .tx, tx := TxMachine.fresh } := by
  have hl : (BitVec.ofNat 9 payload.length).toNat ≤ maxPayload := by
    simp only [maxPayload, BitVec.toNat_ofNat] at h ⊢
    omega
  rcases goStep_cases sel cmd (BitVec.ofNat 9 payload.length) (s.txp.setAll 0 payload) s with ⟨h', _⟩ | ⟨_, e⟩
  · omega
  · exact e

/-- All a transmit step can do: wait, end with `TransportError`, or send the offered byte and advance. -/
theorem txStep_cases (s : State) :
    (s.out.txAnswers = [] ∧ txStep s = s) ∨
    (∃ rest, s.out.txAnswers = .fault :: rest ∧
      txStep s = finish (some .transportError) { s with out := { s.out with txAnswers := rest } }) ∨
    (∃ rest, s.out.txAnswers = .accept :: rest ∧
      txStep s = txAdvance { s with out := { s.out with
        txAnswers := rest, txOut := s.out.txOut ++ [txOffer s] } }) := by
  unfold txStep
  split <;> simp_all

/-- All an accepted byte can do to the block (R122 to R124). -/
theorem txAdvance_cases (s : State) :
    (s.tx.pos = .sof ∧ txAdvance s = { s with tx := { s.tx with pos := .body } }) ∨
    (s.tx.pos = .body ∧ needsEscape s = true ∧ txAdvance s = { s with tx := { s.tx with escp := true } }) ∨
    (s.tx.pos = .body ∧ needsEscape s = false ∧ s.tx.idx.toNat < 3 + s.cap.len.toNat ∧
      txAdvance s = { s with tx := { s.tx with
        escp := false, sum := add8 s.tx.sum (curByte s), idx := s.tx.idx + 1 } }) ∨
    (s.tx.pos = .body ∧ needsEscape s = false ∧ 3 + s.cap.len.toNat ≤ s.tx.idx.toNat ∧
      txAdvance s = { s with tx := { s.tx with escp := false, pos := .eof } }) ∨
    (s.tx.pos = .eof ∧ txAdvance s = { s with phase := .rx, rx := RxMachine.fresh }) := by
  unfold txAdvance
  cases hp : s.tx.pos
  · simp
  · cases hn : needsEscape s
    · by_cases hi : s.tx.idx.toNat < 3 + s.cap.len.toNat
      · simp [hi]
      · simp [hi, Nat.not_lt.mp hi]
    · simp
  · simp

/-- All a receive step can do: wait, take a byte, or end on a timeout or a fault. -/
theorem rxStep_cases (post : State → State) (s : State) :
    (s.out.rxEvents = [] ∧ rxStep post s = s) ∨
    (∃ b rest, s.out.rxEvents = .byte b :: rest ∧
      rxStep post s = rxByte post b { s with out := { s.out with rxEvents := rest } }) ∨
    (∃ rest, s.out.rxEvents = .timeout :: rest ∧
      rxStep post s = finish (some (if s.rx.any then .truncatedFrameError else .timeoutError))
        { s with out := { s.out with rxEvents := rest } }) ∨
    (∃ rest, s.out.rxEvents = .fault :: rest ∧
      rxStep post s = finish (some .transportError) { s with out := { s.out with rxEvents := rest } }) := by
  unfold rxStep
  split <;> simp_all

/-- The ends of the evaluation (R127): an error, or the raw result and the post-processing. -/
theorem evaluate_cases (post : State → State) (s : State) :
    (∃ e, e ≠ .protocolError ∧ e ≠ .encodingError ∧ evaluate post s = finish (some e) s) ∨
    (s.rx.leadBad = false ∧ s.rx.ferr = false ∧ s.rx.esc = false ∧ s.rx.sum = 0xFF ∧
      s.rx.cnt.toNat = s.cfg.headerLen + 1 + (s.rxbByte (s.cfg.headerLen - 1)).toNat ∧
      evaluate post s = post (writeRaw s)) := by
  unfold evaluate
  split
  · exact .inl ⟨_, by simp, by simp, rfl⟩
  split
  · exact .inl ⟨_, by simp, by simp, rfl⟩
  split
  · exact .inl ⟨_, by simp, by simp, rfl⟩
  split
  · exact .inl ⟨_, by simp, by simp, rfl⟩
  split
  · exact .inl ⟨_, by simp, by simp, rfl⟩
  split
  · exact .inl ⟨_, by simp, by simp, rfl⟩
  · refine .inr ?_
    simp_all
    omega

/-- All a received byte can do (R125): the first byte, the second `FLAG` and the evaluation, an interior byte, or a
byte dropped. -/
theorem rxByte_cases (post : State → State) (b : Byte) (s : State) :
    (s.rx.any = false ∧ b = s.cfg.flag ∧
      rxByte post b s = { s with rx := { s.rx with any := true, flags := .one } }) ∨
    (s.rx.any = false ∧ b ≠ s.cfg.flag ∧
      rxByte post b s = { s with rx := { s.rx with any := true, leadBad := true } }) ∨
    (s.rx.any = true ∧ b = s.cfg.flag ∧ s.rx.flags = .zero ∧
      rxByte post b s = { s with rx := { s.rx with flags := .one } }) ∨
    (s.rx.any = true ∧ b = s.cfg.flag ∧ s.rx.flags ≠ .zero ∧
      rxByte post b s = evaluate post { s with rx := { s.rx with flags := .two } }) ∨
    (s.rx.any = true ∧ b ≠ s.cfg.flag ∧ s.rx.leadBad = false ∧ s.rx.flags = .one ∧
      ((s.rx.esc = true ∧ isEscapedCode s.cfg b = true ∧
          rxByte post b s = rxPush (b ^^^ s.cfg.xorm) { s with rx := { s.rx with esc := false } }) ∨
       (s.rx.esc = true ∧ isEscapedCode s.cfg b = false ∧
          rxByte post b s = { s with rx := { s.rx with esc := false, ferr := true } }) ∨
       (s.rx.esc = false ∧ b = s.cfg.esc ∧ rxByte post b s = { s with rx := { s.rx with esc := true } }) ∨
       (s.rx.esc = false ∧ b ≠ s.cfg.esc ∧ rxByte post b s = rxPush b s))) ∨
    (s.rx.any = true ∧ b ≠ s.cfg.flag ∧ ¬ (s.rx.leadBad = false ∧ s.rx.flags = .one) ∧ rxByte post b s = s) := by
  unfold rxByte
  cases ha : s.rx.any
  · by_cases hb : b = s.cfg.flag <;> simp [hb]
  · by_cases hb : b = s.cfg.flag
    · cases hf : s.rx.flags <;> simp [hb, FlagCount.succ]
    · cases hl : s.rx.leadBad
      · cases hf : s.rx.flags
        · simp [hb]
        · cases he : s.rx.esc
          · by_cases h2 : b = s.cfg.esc
            · subst h2
              simp [hb]
            · simp [hb, h2]
          · cases h3 : isEscapedCode s.cfg b <;> simp [hb]
        · simp [hb]
      · simp [hb]

/-- The ends of a typed operation (R140 steps 3 to 5). -/
theorem typedPost_cases (accepts : State → Bool) (extract : State → State) (s : State) :
    ((s.raw.status ≠ 0x00 ∨ accepts s = false) ∧ typedPost accepts extract s = finish (some .protocolError) s) ∨
    (s.raw.status = 0x00 ∧ accepts s = true ∧ typedPost accepts extract s = finish none (extract s)) := by
  unfold typedPost
  by_cases h : s.raw.status = 0x00
  · cases ha : accepts s <;> simp [h]
  · exact .inl ⟨.inl h, if_pos h⟩

/-- The build of each host-invocable operation. -/
def goOf : Instr → State → State
  | .start => fun s => goTyped 0 Config.ccStart [] s
  | .stop => fun s => goTyped 1 s.cfg.ccStop [] s
  | .readMeasurement => fun s => goTyped 2 s.cfg.ccReadMeas [] s
  | .sleep => fun s => goTyped 3 s.cfg.ccSleep [] s
  | .wakeup => fun s => goTyped 4 s.cfg.ccWakeup [] s
  | .cleanFan => fun s => goTyped 5 s.cfg.ccCleanFan [] s
  | .readAutoclean => fun s => goTyped 6 s.cfg.ccReadAci (autocleanReadPayload s) s
  | .writeAutoclean => fun s => goTyped 7 s.cfg.ccWriteAci (autocleanWritePayload s) s
  | .deviceInfo => fun s => goTyped 8 s.cfg.ccDevInfo (deviceInfoPayload s) s
  | .readVersion => fun s => goTyped 9 s.cfg.ccReadVer [] s
  | .reset => fun s => goTyped 10 s.cfg.ccReset [] s
  | .xchg => fun s => goStep 11 s.opnd.argCmd s.opnd.argLen s.txp s
  | .encode _ _ => id
  | .decode _ => id

/-- The post-processing of each host-invocable operation (R128). -/
def postOf : Instr → State → State
  | .readMeasurement => typedPost (fun t => t.raw.len.toNat == 10) extractMeasurement
  | .readAutoclean => typedPost (fun t => t.raw.len.toNat == 4) extractAutoclean
  | .writeAutoclean => typedPost (fun t => t.raw.len.toNat == 0) id
  | .deviceInfo => typedPost (fun t => t.terminator.isSome) extractString
  | .readVersion => typedPost (fun t => t.raw.len.toNat == t.cfg.versionLen) extractVersion
  | .xchg => finish none
  | .start | .stop | .sleep | .wakeup | .cleanFan | .reset => ackPost
  | .encode _ _ => id
  | .decode _ => id

/-- Every host-invocable operation is its build, the shared machines and its post-processing. -/
theorem exec_eq_runOperation {i : Instr} (h : i.hostInvocable = true) (s : State) :
    exec i s = runOperation (goOf i) (postOf i) s := by
  cases i <;> first | rfl | simp [Instr.hostInvocable] at h

/-- One step of an operation always answers a next state. -/
theorem runOperation_next (go post : State → State) (s : State) :
    runOperation go post s = .next (match s.phase with
      | .idle => go s
      | .tx => txStep s
      | .rx => rxStep post s) := by
  unfold runOperation
  cases s.phase <;> rfl

/-- `exec` always answers a next state: no operation stops the machine. -/
theorem exec_next (i : Instr) (s : State) : ∃ t, exec i s = .next t := by
  cases i <;> first
    | exact ⟨_, runOperation_next _ _ s⟩
    | exact ⟨_, rfl⟩

/-- What an operation's post-processing leaves unchanged, and that it ends the operation. -/
theorem postOf_frame {i : Instr} (h : i.hostInvocable = true) (s : State) :
    (postOf i s).cfg = s.cfg ∧ (postOf i s).opnd = s.opnd ∧ (postOf i s).txp = s.txp ∧ (postOf i s).rxb = s.rxb ∧
    (postOf i s).raw = s.raw ∧ (postOf i s).cap = s.cap ∧ (postOf i s).tx = s.tx ∧ (postOf i s).rx = s.rx ∧
    (postOf i s).out = s.out ∧ (postOf i s).phase = .idle ∧ (postOf i s).done = true ∧
    ((postOf i s).err = none ∨
      (postOf i s).err = some .protocolError ∧ (postOf i s).typed = s.typed ∧ (postOf i s).str = s.str) := by
  have string_frame : ∀ t : State, (extractString t).cfg = t.cfg ∧ (extractString t).opnd = t.opnd ∧
      (extractString t).txp = t.txp ∧ (extractString t).rxb = t.rxb ∧ (extractString t).raw = t.raw ∧
      (extractString t).cap = t.cap ∧ (extractString t).tx = t.tx ∧ (extractString t).rx = t.rx ∧
      (extractString t).out = t.out := by
    intro t
    unfold extractString
    split <;> simp
  cases i with
  | encode _ _ => simp [Instr.hostInvocable] at h
  | decode _ => simp [Instr.hostInvocable] at h
  | xchg => simp [postOf]
  | deviceInfo =>
    rcases typedPost_cases (fun t => t.terminator.isSome) extractString s with ⟨_, e⟩ | ⟨_, _, e⟩ <;>
      simp [postOf, e, string_frame]
  | readMeasurement =>
    rcases typedPost_cases (fun t => t.raw.len.toNat == 10) extractMeasurement s with ⟨_, e⟩ | ⟨_, _, e⟩ <;>
      simp [postOf, e]
  | readAutoclean =>
    rcases typedPost_cases (fun t => t.raw.len.toNat == 4) extractAutoclean s with ⟨_, e⟩ | ⟨_, _, e⟩ <;>
      simp [postOf, e]
  | writeAutoclean =>
    rcases typedPost_cases (fun t => t.raw.len.toNat == 0) id s with ⟨_, e⟩ | ⟨_, _, e⟩ <;> simp [postOf, e]
  | readVersion =>
    rcases typedPost_cases (fun t => t.raw.len.toNat == t.cfg.versionLen) extractVersion s with ⟨_, e⟩ | ⟨_, _, e⟩ <;>
      simp [postOf, e]
  | _ =>
    rcases typedPost_cases (fun _ => true) id s with ⟨_, e⟩ | ⟨_, _, e⟩ <;> simp [postOf, ackPost, e]

/-- The selector table at once (R85): at or below 11 an operation with that selector, above it a rejection. -/
theorem decodeSelector_table (op : BitVec 4) :
    (match decodeSelector op with
      | .ok i => i.hostInvocable && i.selector == some op && decide (op.toNat ≤ 11)
      | .error _ => decide (11 < op.toNat)) = true := by
  revert op
  decide

/-- The operation a selector starts is host-invocable and has that selector. -/
theorem decodeSelector_ok {op : BitVec 4} {i : Instr} (h : decodeSelector op = .ok i) :
    i.hostInvocable = true ∧ i.selector = some op ∧ op.toNat ≤ 11 := by
  have t := decodeSelector_table op
  simp_all

/-- A selector at or below 11 starts an operation. -/
theorem decodeSelector_total {op : BitVec 4} (h : op.toNat ≤ 11) : ∃ i, decodeSelector op = .ok i := by
  have t := decodeSelector_table op
  cases e : decodeSelector op with
  | ok i => exact ⟨i, rfl⟩
  | error r => simp_all; omega

/-- A selector above 11 starts none. -/
theorem decodeSelector_reserved {op : BitVec 4} (h : 11 < op.toNat) : ∃ e, decodeSelector op = .error e := by
  cases e : decodeSelector op with
  | ok i => have := (decodeSelector_ok e).2.2; omega
  | error r => exact ⟨r, rfl⟩

/-- What the block's own step is. -/
theorem blockStep_cases (s : State) :
    (s.phase = .idle ∧ blockStep s = .next s) ∨
    (s.phase ≠ .idle ∧ ∃ i, decodeSelector s.cap.op = .ok i ∧ i.hostInvocable = true ∧ blockStep s = exec i s) ∨
    (s.phase ≠ .idle ∧ 11 < s.cap.op.toNat ∧ blockStep s = .refused (.reservedSelector s.cap.op)) := by
  unfold blockStep
  cases hp : s.phase
  · exact .inl ⟨rfl, rfl⟩
  all_goals
    refine .inr ?_
    by_cases ho : s.cap.op.toNat ≤ 11
    · obtain ⟨i, hi⟩ := decodeSelector_total ho
      exact .inl ⟨by simp, i, hi, (decodeSelector_ok hi).1, by simp [hi]⟩
    · refine .inr ⟨by simp, by omega, ?_⟩
      obtain ⟨e, he⟩ := decodeSelector_reserved (Nat.not_le.mp ho)
      simp [he]

end Sys2Proof.Machine
end

