-- ==== Sys2Proof/Laws/Step.lean ====
section
/-! SUPPORT. All a step of an operation and a step of the machine can do, each said once, and the small lemmas about
the extracted fields. -/

namespace Sys2Proof.Machine

/-! ### Fields -/

/-- `be16` is the value R13 gives. -/
theorem be16_toNat (h l : Byte) : (be16 h l).toNat = 256 * h.toNat + l.toNat := by
  have := l.isLt
  simp only [be16, BitVec.toNat_append]
  rw [← Nat.shiftLeft_add_eq_or_of_lt (by simpa using this)]
  simp only [Nat.shiftLeft_eq]
  omega

/-- `be32` is the value R13 gives. -/
theorem be32_toNat (a b c d : Byte) :
    (be32 a b c d).toNat = 2 ^ 24 * a.toNat + 2 ^ 16 * b.toNat + 2 ^ 8 * c.toNat + d.toNat := by
  have hb := b.isLt
  have hc := c.isLt
  have hd := d.isLt
  simp only [be32, BitVec.toNat_append]
  rw [← Nat.shiftLeft_add_eq_or_of_lt (by simpa using hd), ← Nat.shiftLeft_add_eq_or_of_lt (by simpa using hc),
    ← Nat.shiftLeft_add_eq_or_of_lt (by simpa using hb)]
  simp only [Nat.shiftLeft_eq]
  omega

theorem terminator_eq_some {s : State} {z : Nat} :
    s.terminator = some z ↔ z < s.raw.len.toNat ∧ s.rxpByte z = 0 ∧ ∀ j, j < z → s.rxpByte j ≠ 0 := by
  simp only [State.terminator, List.find?_range_eq_some]
  simp
  tauto

theorem terminator_eq_none {s : State} : s.terminator = none ↔ ∀ j, j < s.raw.len.toNat → s.rxpByte j ≠ 0 := by
  simp [State.terminator]

theorem extractString_of_terminator {s : State} {z : Nat} (h : s.terminator = some z) :
    extractString s = { s with
      str := s.str.setAll 0 (s.rxpBytes (z + 1)), typed := { s.typed with strLen := BitVec.ofNat 8 z } } := by
  simp [extractString, h]

/-- `STR` after the copy of `RXP[0 .. z]`: one law for every index. -/
theorem strByte_copy (s : State) (z a : Nat) :
    ((s.str.setAll 0 (s.rxpBytes (z + 1))).get? a).getD (Config.noValue (.str a)) =
      if a ≤ z then s.rxpByte a else s.strByte a := by
  rw [Memory.get?_setAll]
  by_cases h : a ≤ z
  · simp [State.rxpBytes, h, Nat.lt_succ_of_le h]
  · simp [State.rxpBytes, h, show ¬ a < z + 1 by omega, State.strByte]

/-! ### One step of an operation -/

/-- The step of a host-invocable operation, phase by phase. -/
theorem exec_by_phase {i : Instr} (h : i.hostInvocable = true) (s : State) :
    (s.phase = .idle → exec i s = .next (goOf i s)) ∧ (s.phase = .tx → exec i s = .next (txStep s)) ∧
    (s.phase = .rx → exec i s = .next (rxStep (postOf i) s)) := by
  rw [exec_eq_runOperation h, runOperation_next]
  refine ⟨?_, ?_, ?_⟩ <;> intro hp <;> rw [hp]

/-- The state in which the post-processing of a good frame runs. -/
def atEnd (s : State) (rest : List RxEvent) : State :=
  { s with rx := closedRx s, out := { s.out with rxEvents := rest }, raw := s.receivedRaw }

/-- The step that ends a good frame is the operation's post-processing (R127, R128). -/
theorem exec_of_good_frame {s : State} {len : Nat} {rest : List RxEvent} (h : s.EndsGoodFrame len rest) {i : Instr}
    (hi : i.hostInvocable = true) : exec i s = .next (postOf i (atEnd s rest)) := by
  have hd := h.declared
  have hc := h.cnt
  rw [(exec_by_phase hi s).2.2 h.phase]
  simp only [rxStep, h.event]
  rcases rxByte_cases (postOf i) s.cfg.flag { s with out := { s.out with rxEvents := rest } } with
    ⟨e, _⟩ | ⟨e, _⟩ | ⟨_, _, e, _⟩ | ⟨_, _, _, e⟩ | ⟨_, e, _⟩ | ⟨_, e, _⟩
  · simp [h.any] at e
  · simp [h.any] at e
  · simp [h.flags] at e
  · rw [e]
    unfold evaluate
    have same : ∀ rx, State.rxbByte { s with rx := rx, out := { s.out with rxEvents := rest } } = s.rxbByte :=
      fun _ => rfl
    simp only [same, hd]
    rw [if_neg (by simp [h.lead]), if_neg (by simp [h.ferr, h.esc]), if_neg (by omega), if_neg (by simp [h.sum]),
      if_neg (by omega), if_neg (by omega)]
    rfl
  · exact absurd rfl e
  · exact absurd rfl e

/-- A typed operation's checks pass: its extraction and a good end. -/
theorem typedPost_accepted {accepts : State → Bool} {extract : State → State} {s : State} (h : s.raw.status = 0)
    (ha : accepts s = true) : typedPost accepts extract s = finish none (extract s) := by
  simp [typedPost, h, ha]

/-- What the post-processing writes to the typed results: nothing, or, on success, the extraction of its operation. -/
theorem postOf_results {i : Instr} (hi : i.hostInvocable = true) (s : State) :
    ((postOf i s).typed = s.typed ∧ (postOf i s).str = s.str) ∨
    ((postOf i s).err = none ∧
      ((i = .readMeasurement ∧ postOf i s = finish none (extractMeasurement s)) ∨
       (i = .readAutoclean ∧ postOf i s = finish none (extractAutoclean s)) ∨
       (i = .readVersion ∧ postOf i s = finish none (extractVersion s)) ∨
       (i = .deviceInfo ∧ ∃ z, s.terminator = some z ∧ postOf i s = finish none (extractString s)))) := by
  cases i with
  | encode _ _ => simp [Instr.hostInvocable] at hi
  | decode _ => simp [Instr.hostInvocable] at hi
  | xchg => exact .inl ⟨rfl, rfl⟩
  | deviceInfo =>
    rcases typedPost_cases (fun t => t.terminator.isSome) extractString s with ⟨_, e⟩ | ⟨_, h, e⟩
    · exact .inl (by simp [postOf, e])
    · exact .inr ⟨by simp [postOf, e], .inr (.inr (.inr ⟨rfl, _, Option.some_get h |>.symm, e⟩))⟩
  | readMeasurement =>
    rcases typedPost_cases (fun t => t.raw.len.toNat == 10) extractMeasurement s with ⟨_, e⟩ | ⟨_, _, e⟩
    · exact .inl (by simp [postOf, e])
    · exact .inr ⟨by simp [postOf, e], .inl ⟨rfl, e⟩⟩
  | readAutoclean =>
    rcases typedPost_cases (fun t => t.raw.len.toNat == 4) extractAutoclean s with ⟨_, e⟩ | ⟨_, _, e⟩
    · exact .inl (by simp [postOf, e])
    · exact .inr ⟨by simp [postOf, e], .inr (.inl ⟨rfl, e⟩)⟩
  | writeAutoclean =>
    rcases typedPost_cases (fun t => t.raw.len.toNat == 0) id s with ⟨_, e⟩ | ⟨_, _, e⟩ <;>
      exact .inl (by simp [postOf, e])
  | readVersion =>
    rcases typedPost_cases (fun t => t.raw.len.toNat == t.cfg.versionLen) extractVersion s with ⟨_, e⟩ | ⟨_, _, e⟩
    · exact .inl (by simp [postOf, e])
    · exact .inr ⟨by simp [postOf, e], .inr (.inr (.inl ⟨rfl, e⟩))⟩
  | _ =>
    rcases typedPost_cases (fun _ => true) id s with ⟨_, e⟩ | ⟨_, _, e⟩ <;> exact .inl (by simp [postOf, ackPost, e])

/-- How an accepted byte that does not end the frame moves the transmit machine (R122, R123). -/
inductive TxMove (s : State) : TxMachine → Prop where
  | opening (h : s.tx.pos = .sof) : TxMove s { s.tx with pos := .body }
  | escape (h : s.tx.pos = .body) (he : needsEscape s = true) : TxMove s { s.tx with escp := true }
  | next (h : s.tx.pos = .body) (he : needsEscape s = false) (hi : s.tx.idx.toNat < 3 + s.cap.len.toNat) :
      TxMove s { s.tx with escp := false, sum := add8 s.tx.sum (curByte s), idx := s.tx.idx + 1 }
  | last (h : s.tx.pos = .body) (he : needsEscape s = false) (hi : 3 + s.cap.len.toNat ≤ s.tx.idx.toNat) :
      TxMove s { s.tx with escp := false, pos := .eof }

/-- How a received byte that pushes nothing and ends nothing moves the receive machine (R125). -/
inductive RxMove (s : State) (b : Byte) : RxMachine → Prop where
  | opening (ha : s.rx.any = false) (hb : b = s.cfg.flag) : RxMove s b { s.rx with any := true, flags := .one }
  | badLead (ha : s.rx.any = false) (hb : b ≠ s.cfg.flag) : RxMove s b { s.rx with any := true, leadBad := true }
  | lateFlag (ha : s.rx.any = true) (hb : b = s.cfg.flag) (hf : s.rx.flags = .zero) :
      RxMove s b { s.rx with flags := .one }
  | badEscape (ha : s.rx.any = true) (hb : b ≠ s.cfg.flag) (hl : s.rx.leadBad = false) (hf : s.rx.flags = .one)
      (he : s.rx.esc = true) (hc : isEscapedCode s.cfg b = false) : RxMove s b { s.rx with esc := false, ferr := true }
  | escape (ha : s.rx.any = true) (hb : b ≠ s.cfg.flag) (hl : s.rx.leadBad = false) (hf : s.rx.flags = .one)
      (he : s.rx.esc = false) (hc : b = s.cfg.esc) : RxMove s b { s.rx with esc := true }
  | dropped (ha : s.rx.any = true) (hb : b ≠ s.cfg.flag) (hl : ¬ (s.rx.leadBad = false ∧ s.rx.flags = .one)) :
      RxMove s b s.rx

/-- Every way one step of an operation goes from `s` to `t`. -/
inductive OpStep (i : Instr) (s t : State) : Prop where
  /-- A function unit answers on its output port. -/
  | unit (hi : i.hostInvocable = false) (e : Option (Except ErrKind (List Byte))) (d : Option (Except ErrKind Response))
      (ht : t = { s with out := { s.out with encOut := e, decOut := d } })
  /-- `XCHG` with a length above 255 ends in its `GO` step. -/
  | goRefused (hi : i = .xchg) (hp : s.phase = .idle) (hl : maxPayload < s.opnd.argLen.toNat) (c : Captured)
      (ht : t = finish (some .encodingError) { s with done := false, err := none, cap := c })
  /-- The `GO` step enters `TX`. -/
  | go (hi : i.hostInvocable = true) (hp : s.phase = .idle) (hx : i = .xchg → s.opnd.argLen.toNat ≤ maxPayload)
      (c : Captured) (payload : List Byte) (hc : i.selector = some c.op) (hl : c.len.toNat ≤ maxPayload)
      (hn : payload.length ≤ 5)
      (ht : t = { s with
        done := false, err := none, cap := c, txp := s.txp.setAll 0 payload, phase := .tx, tx := TxMachine.fresh })
  /-- The environment owes an answer or an event. -/
  | waits (hq : (s.phase = .tx ∧ s.out.txAnswers = []) ∨ (s.phase = .rx ∧ s.out.rxEvents = [])) (ht : t = s)
  /-- A write fault ends the operation. -/
  | txFault (hp : s.phase = .tx) (rest : List TxAnswer) (ha : s.out.txAnswers = .fault :: rest)
      (ht : t = finish (some .transportError) { s with out := { s.out with txAnswers := rest } })
  /-- A byte is sent, the frame goes on. -/
  | txByte (hi : i.hostInvocable = true) (hp : s.phase = .tx) (rest : List TxAnswer)
      (ha : s.out.txAnswers = .accept :: rest) (tx : TxMachine) (hm : TxMove s tx)
      (ht : t = { s with tx := tx, out := { s.out with txAnswers := rest, txOut := s.out.txOut ++ [txOffer s] } })
  /-- The closing delimiter is sent: the entry to `RX`. -/
  | txEnd (hi : i.hostInvocable = true) (hp : s.phase = .tx) (hpos : s.tx.pos = .eof) (rest : List TxAnswer)
      (ha : s.out.txAnswers = .accept :: rest)
      (ht : t = { s with
        phase := .rx, rx := RxMachine.fresh
        out := { s.out with txAnswers := rest, txOut := s.out.txOut ++ [s.cfg.flag] } })
  /-- An event ends the operation with an error of the receive side. -/
  | rxFail (hp : s.phase = .rx) (ev : RxEvent) (rest : List RxEvent) (ha : s.out.rxEvents = ev :: rest) (e : ErrKind)
      (h1 : e ≠ .encodingError) (h2 : e ≠ .protocolError) (rx : RxMachine)
      (ht : t = finish (some e) { s with rx := rx, out := { s.out with rxEvents := rest } })
  /-- The closing `FLAG` of a good frame. -/
  | rxGood (hi : i.hostInvocable = true) (hp : s.phase = .rx) (rest : List RxEvent)
      (ha : s.out.rxEvents = .byte s.cfg.flag :: rest) (hany : s.rx.any = true) (hlead : s.rx.leadBad = false)
      (hferr : s.rx.ferr = false) (hesc : s.rx.esc = false) (hsum : s.rx.sum = 0xFF)
      (hcnt : s.rx.cnt.toNat = s.cfg.headerLen + 1 + (s.rxbByte (s.cfg.headerLen - 1)).toNat)
      (ht : t = postOf i (atEnd s rest))
  /-- A byte that stores nothing. -/
  | rxByte (hi : i.hostInvocable = true) (hp : s.phase = .rx) (b : Byte) (rest : List RxEvent)
      (ha : s.out.rxEvents = .byte b :: rest) (rx : RxMachine) (hm : RxMove s b rx)
      (ht : t = { s with rx := rx, out := { s.out with rxEvents := rest } })
  /-- A body byte. -/
  | rxPush (hi : i.hostInvocable = true) (hp : s.phase = .rx) (b v : Byte) (rest : List RxEvent)
      (ha : s.out.rxEvents = .byte b :: rest) (hb : b ≠ s.cfg.flag) (hany : s.rx.any = true)
      (hlead : s.rx.leadBad = false) (hfl : s.rx.flags = .one)
      (ht : t = Machine.rxPush v { s with rx := { s.rx with esc := false }, out := { s.out with rxEvents := rest } })

theorem goTyped_opStep {i : Instr} {s : State} {sel : BitVec 4} {cmd : Byte} {p : List Byte}
    (hi : i.hostInvocable = true) (hx : i ≠ .xchg) (hsel : i.selector = some sel) (hp : p.length ≤ 5)
    (hph : s.phase = .idle) : OpStep i s (goTyped sel cmd p s) := by
  have hl : (BitVec.ofNat 9 p.length).toNat ≤ maxPayload := by
    simp only [maxPayload, BitVec.toNat_ofNat]
    omega
  exact .go hi hph (fun h => absurd h hx) _ p hsel hl hp (goTyped_eq sel cmd p (by simp [maxPayload]; omega) s)

/-- The inversion of `exec`: a next state comes about in one of the ways of `OpStep`. -/
theorem exec_opStep {i : Instr} {s t : State} (h : exec i s = .next t) : OpStep i s t := by
  by_cases hi : i.hostInvocable = true
  · rcases hp : s.phase
    · rw [(exec_by_phase hi s).1 hp] at h
      cases h
      cases i with
      | xchg =>
        rcases goStep_cases 11 s.opnd.argCmd s.opnd.argLen s.txp s with ⟨hl, e⟩ | ⟨hl, e⟩
        · exact .goRefused rfl hp hl _ (by simp only [goOf]; rw [e]; rfl)
        · exact .go hi hp (fun _ => hl) _ [] rfl hl (by simp) (by simp only [goOf]; rw [e]; rfl)
      | encode _ _ => simp [Instr.hostInvocable] at hi
      | decode _ => simp [Instr.hostInvocable] at hi
      | _ =>
        exact goTyped_opStep hi (by simp) rfl
          (by simp [autocleanReadPayload, autocleanWritePayload, deviceInfoPayload, bytes32]) hp
    · rw [(exec_by_phase hi s).2.1 hp] at h
      cases h
      rcases txStep_cases s with ⟨hn, e⟩ | ⟨rest, ha, e⟩ | ⟨rest, ha, e⟩
      · exact .waits (.inl ⟨hp, hn⟩) e
      · exact .txFault hp rest ha e
      · rcases txAdvance_cases
          { s with out := { s.out with txAnswers := rest, txOut := s.out.txOut ++ [txOffer s] } } with
          ⟨h1, e'⟩ | ⟨h1, h2, e'⟩ | ⟨h1, h2, h3, e'⟩ | ⟨h1, h2, h3, e'⟩ | ⟨h1, e'⟩
        · exact .txByte hi hp rest ha _ (.opening h1) (e.trans e')
        · exact .txByte hi hp rest ha _ (.escape h1 h2) (e.trans e')
        · exact .txByte hi hp rest ha _ (.next h1 h2 h3) (e.trans e')
        · exact .txByte hi hp rest ha _ (.last h1 h2 h3) (e.trans e')
        · have hf : txOffer s = s.cfg.flag := by
            simp only at h1
            simp only [txOffer, h1]
          exact .txEnd hi hp h1 rest ha (by rw [e, e']; simp only [hf])
    · rw [(exec_by_phase hi s).2.2 hp] at h
      cases h
      rcases rxStep_cases (postOf i) s with ⟨hn, e⟩ | ⟨b, rest, ha, e⟩ | ⟨rest, ha, e⟩ | ⟨rest, ha, e⟩
      · exact .waits (.inr ⟨hp, hn⟩) e
      · rcases rxByte_cases (postOf i) b { s with out := { s.out with rxEvents := rest } } with
          ⟨h1, h2, e'⟩ | ⟨h1, h2, e'⟩ | ⟨h1, h2, h3, e'⟩ | ⟨h1, h2, h3, e'⟩ | ⟨h1, h2, h3, h4, hh⟩ | ⟨h1, h2, h3, e'⟩
        · exact .rxByte hi hp b rest ha _ (.opening h1 h2) (e.trans e')
        · exact .rxByte hi hp b rest ha _ (.badLead h1 h2) (e.trans e')
        · exact .rxByte hi hp b rest ha _ (.lateFlag h1 h2 h3) (e.trans e')
        · rcases evaluate_cases (postOf i)
            { s with rx := { s.rx with flags := .two }, out := { s.out with rxEvents := rest } } with
            ⟨k, k1, k2, e2⟩ | ⟨k1, k2, k3, k4, k5, e2⟩
          · exact .rxFail hp _ rest ha k k2 k1 _ (e.trans (e'.trans e2))
          · subst h2
            exact .rxGood hi hp rest ha h1 k1 k2 k3 k4 k5 (e.trans (e'.trans e2))
        · rcases hh with ⟨g1, _, e'⟩ | ⟨g1, g2, e'⟩ | ⟨g1, g2, e'⟩ | ⟨g1, _, e'⟩
          · exact .rxPush hi hp b _ rest ha h2 h1 h3 h4 (e.trans e')
          · exact .rxByte hi hp b rest ha _ (.badEscape h1 h2 h3 h4 g1 g2) (e.trans e')
          · exact .rxByte hi hp b rest ha _ (.escape h1 h2 h3 h4 g1 g2) (e.trans e')
          · have same : s.rx = { s.rx with esc := false } := by
              cases hr : s.rx
              simp_all
            exact .rxPush hi hp b b rest ha h2 h1 h3 h4 (by rw [e, e', ← same])
        · exact .rxByte hi hp b rest ha _ (.dropped h1 h2 h3) (e.trans e')
      · exact .rxFail hp _ rest ha _ (by split <;> simp) (by split <;> simp) s.rx e
      · exact .rxFail hp _ rest ha .transportError (by simp) (by simp) s.rx e
  · cases i <;> first | exact absurd rfl hi | (cases h; exact .unit (by simpa using hi) _ _ rfl)

/-! ### One step of the machine -/

theorem blockStep_next {s t : State} (h : blockStep s = .next t) :
    (s.phase = .idle ∧ t = s) ∨ (s.phase ≠ .idle ∧ ∃ i, decodeSelector s.cap.op = .ok i ∧ exec i s = .next t) := by
  rcases blockStep_cases s with ⟨h1, e⟩ | ⟨h1, i, hd, _, e⟩ | ⟨_, _, e⟩
  · rw [e] at h
    exact .inl ⟨h1, by cases h; rfl⟩
  · exact .inr ⟨h1, i, hd, e ▸ h⟩
  · rw [e] at h
    cases h

/-- A host write touches only operand registers and `TXP`. -/
theorem applyWrite_frame (w : HostWrite) (s : State) :
    (applyWrite w s).cfg = s.cfg ∧ (applyWrite w s).phase = s.phase ∧ (applyWrite w s).done = s.done ∧
    (applyWrite w s).err = s.err ∧ (applyWrite w s).rxb = s.rxb ∧ (applyWrite w s).raw = s.raw ∧
    (applyWrite w s).typed = s.typed ∧ (applyWrite w s).str = s.str ∧ (applyWrite w s).cap = s.cap ∧
    (applyWrite w s).tx = s.tx ∧ (applyWrite w s).rx = s.rx ∧ (applyWrite w s).out = s.out := by
  cases w <;> exact ⟨rfl, rfl, rfl, rfl, rfl, rfl, rfl, rfl, rfl, rfl, rfl, rfl⟩

/-- A host read touches only the record of reads and their counter. -/
theorem hostRead_frame (r : HostReg) (s : State) :
    ∃ d n, hostRead r s = { s with out := { s.out with readData := d, freeCount := n } } := by
  unfold hostRead
  split <;> exact ⟨_, _, rfl⟩

/-- Every way the machine goes from `s` to `t` in one step: nothing but an input taken; the operation in flight; the
operation a `GO` starts; a host write; a host read; the reset event; a function unit. -/
theorem step_cases {s t : State} (h : step s = .next t) :
    (∃ is, t = s.withInputs is) ∨
    (∃ is i, s.phase ≠ .idle ∧ decodeSelector s.cap.op = .ok i ∧ exec i (s.withInputs is) = .next t) ∨
    (∃ is i, s.phase = .idle ∧ decodeSelector s.opnd.op = .ok i ∧ exec i (s.withInputs is) = .next t) ∨
    (∃ is w, s.phase = .idle ∧ t = applyWrite w (s.withInputs is)) ∨
    (∃ is r, t = hostRead r (s.withInputs is)) ∨
    (∃ is, s.out.inputs = .resetEvent :: is ∧ t = resetEvent (s.withInputs is)) ∨
    (∃ is u, exec (UnitCall.instr u) (s.withInputs is) = .next t) := by
  have block : ∀ is, blockStep (s.withInputs is) = .next t → (∃ is, t = s.withInputs is) ∨
      (∃ is i, s.phase ≠ .idle ∧ decodeSelector s.cap.op = .ok i ∧ exec i (s.withInputs is) = .next t) := by
    intro is hb
    rcases blockStep_next hb with ⟨_, e⟩ | ⟨h1, i, hd, e⟩
    · exact .inl ⟨is, e⟩
    · exact .inr ⟨is, i, h1, hd, e⟩
  unfold step nextStep at h
  split at h
  · exact (block s.out.inputs h).imp_right .inl
  · split at h
    · cases h
      exact .inl ⟨_, rfl⟩
    · exact (block s.out.inputs h).imp_right .inl
  · rename_i a rest hne hin
    cases a with
    | write w =>
      simp only [takeInput] at h
      cases w with
      | go v =>
        simp only [hostWrite] at h
        split at h
        · simp only [hostGo] at h
          split at h
          · cases h
          · rename_i hb
            split at h
            · rename_i i hd
              exact .inr (.inr (.inl ⟨rest, i, by simpa [State.busy] using hb, hd, h⟩))
            · cases h
        · cases h
          exact .inl ⟨_, rfl⟩
      | _ =>
        simp only [hostWrite] at h
        split at h
        · cases h
        · rename_i hb
          cases h
          exact .inr (.inr (.inr (.inl ⟨rest, _, by simpa [State.busy] using hb, rfl⟩)))
    | read r =>
      simp only [takeInput] at h
      cases h
      exact .inr (.inr (.inr (.inr (.inl ⟨_, _, rfl⟩))))
    | letRun => exact (block rest h).imp_right .inl
    | pollDone => simp_all
    | resetEvent =>
      simp only [takeInput] at h
      cases h
      exact .inr (.inr (.inr (.inr (.inr (.inl ⟨_, hin, rfl⟩)))))
    | unit u => exact .inr (.inr (.inr (.inr (.inr (.inr ⟨_, _, h⟩)))))

/-- With nothing to take from the outside, a busy block runs the operation in flight. -/
theorem step_busy {s : State} {i : Instr} (hp : s.phase ≠ .idle) (h : s.out.inputs = [])
    (hd : decodeSelector s.cap.op = .ok i) : step s = exec i s := by
  rcases hp' : s.phase <;> simp_all [step, nextStep, blockStep]

/-! ### Several steps -/

/-- One step, then the rest. -/
theorem core_run_succ (n : Nat) (s : State) : Sys2Proof.core.run (n + 1) s = (match step s with
    | .next t => Sys2Proof.core.run n t
    | .fault r => .fault r
    | .refused r => .refused r) := by
  have e : Sys2Proof.core.step s = step s := rfl
  simp only [Host.Core.run, e]
  cases step s <;> rfl

theorem core_run_step {n : Nat} {s t : State} (h : step s = .next t) :
    Sys2Proof.core.run (n + 1) s = Sys2Proof.core.run n t := by
  rw [core_run_succ, h]

/-- Runs compose. -/
theorem core_run_add {m n : Nat} {s t : State} (h : Sys2Proof.core.run m s = .next t) :
    Sys2Proof.core.run (m + n) s = Sys2Proof.core.run n t := by
  induction m generalizing s with
  | zero =>
    cases h
    rw [Nat.zero_add]
  | succ m ih =>
    rw [core_run_succ] at h
    rw [Nat.add_right_comm, core_run_succ]
    cases hs : step s with
    | next s' => rw [hs] at h; exact ih h
    | fault r => rw [hs] at h; cases h
    | refused r => rw [hs] at h; cases h

end Sys2Proof.Machine
end

