-- ==== Sys2Proof/Laws/Receive.lean ====
section
/-! SUPPORT. The receive machine against `decode`: the destuffer as a fold and its law, the state after a sequence of
received bytes, what one more byte does, what the second `FLAG` does, and what the post-processing computes. -/

namespace Sys2Proof.Machine

/-! ### The destuffer as a fold -/

/-- What the receive machine has destuffed: the body, an `ESC` whose partner is awaited, a bad escape pair seen. -/
structure Destuffed where
  body : List Byte
  esc : Bool
  ferr : Bool

/-- Nothing destuffed yet. -/
def Destuffed.start : Destuffed := { body := [], esc := false, ferr := false }

/-- One interior byte of R125. -/
def Destuffed.take (c : Config) (d : Destuffed) (b : Byte) : Destuffed :=
  if d.esc then
    if isEscapedCode c b then { body := d.body ++ [b ^^^ c.xorm], esc := false, ferr := d.ferr }
    else { body := d.body, esc := false, ferr := true }
  else if b = c.esc then { body := d.body, esc := true, ferr := d.ferr }
  else { body := d.body ++ [b], esc := false, ferr := d.ferr }

/-- A bad escape pair is never forgotten (R39: sticky). -/
theorem Destuffed.take_sticky (c : Config) (w : List Byte) (d : Destuffed) (h : d.ferr = true) :
    (w.foldl (Destuffed.take c) d).ferr = true := by
  induction w generalizing d with
  | nil => exact h
  | cons b w ih =>
    apply ih
    simp only [Destuffed.take]
    split <;> split <;> simp [h]

/-- The fold computes `unstuff` of an interior without `FLAG`: both succeed with one body, or both fail. -/
theorem Destuffed.take_unstuff {c : Config} (hc : c.valid) (n : Nat) (w p : List Byte) (hn : w.length ≤ n)
    (hf : c.flag ∉ w) :
    let d := w.foldl (Destuffed.take c) { body := p, esc := false, ferr := false }
    (d.esc = false ∧ d.ferr = false ∧ ∃ b, d.body = p ++ b ∧ unstuff c w = .ok b) ∨
    ((d.esc = true ∨ d.ferr = true) ∧ ∃ e, unstuff c w = .error e) := by
  induction n generalizing w p with
  | zero =>
    have e : w = [] := List.length_eq_zero_iff.mp (by omega)
    subst e
    exact .inl ⟨rfl, rfl, [], by simp, rfl⟩
  | succ n ih =>
    rcases w with _ | ⟨b, w⟩
    · exact .inl ⟨rfl, rfl, [], by simp, rfl⟩
    simp only [List.length_cons, List.mem_cons, not_or] at hn hf
    by_cases hb : b = c.esc
    · subst hb
      rcases w with _ | ⟨d, w⟩
      · exact .inr (by simp [Destuffed.take, unstuff_last_escape])
      simp only [List.length_cons, List.mem_cons, not_or] at hn hf
      simp only [List.foldl_cons, show Destuffed.take c ⟨p, false, false⟩ c.esc = ⟨p, true, false⟩ by
        simp [Destuffed.take]]
      by_cases hd : isEscapedCode c d = true
      · rw [show Destuffed.take c ⟨p, true, false⟩ d = ⟨p ++ [d ^^^ c.xorm], false, false⟩ by simp [Destuffed.take, hd],
          unstuff_escape hc.1 hd]
        rcases ih w (p ++ [d ^^^ c.xorm]) (by omega) hf.2.2 with ⟨h1, h2, x, h3, h4⟩ | ⟨h1, e, h2⟩
        · exact .inl ⟨h1, h2, (d ^^^ c.xorm) :: x, by simp [h3], by rw [h4]; rfl⟩
        · exact .inr ⟨h1, e, by rw [h2]; rfl⟩
      · rw [show Destuffed.take c ⟨p, true, false⟩ d = ⟨p, false, true⟩ by simp [Destuffed.take, hd],
          unstuff_bad_escape (by simpa using hd)]
        exact .inr ⟨.inr (Destuffed.take_sticky c w _ rfl), _, rfl⟩
    · have hr : isReserved c b = false := by simp [isReserved, hb, Ne.symm hf.1]
      simp only [List.foldl_cons, show Destuffed.take c ⟨p, false, false⟩ b = ⟨p ++ [b], false, false⟩ by
        simp [Destuffed.take, hb], unstuff_plain hr]
      rcases ih w (p ++ [b]) (by omega) hf.2 with ⟨h1, h2, x, h3, h4⟩ | ⟨h1, e, h2⟩
      · exact .inl ⟨h1, h2, b :: x, by simp [h3], by rw [h4]; rfl⟩
      · exact .inr ⟨h1, e, by rw [h2]; rfl⟩

/-! ### The receive machine after a sequence of bytes -/

/-- The receive machine and `RXB` hold what has been destuffed, as far as the body fits (R39, R125). -/
def holdsDestuffed (s : State) (d : Destuffed) : Prop :=
  s.rx.esc = d.esc ∧ s.rx.ferr = d.ferr ∧ s.rx.cnt.toNat = min d.body.length (s.cfg.maxBody + 1) ∧
  s.rx.sum = sum8 d.body ∧ ∀ a, a < d.body.length → a < s.cfg.maxBody → s.rxb.get? a = d.body[a]?

/-- The receive machine as it stands after the bytes `rec` of a read phase not yet ended (R125). -/
def hasReceived (s : State) : List Byte → Prop
  | [] => s.rx = RxMachine.fresh
  | b :: w => s.rx.any = true ∧
    (b ≠ s.cfg.flag → s.rx.leadBad = true ∧ s.rx.flags = if s.cfg.flag ∈ w then .one else .zero) ∧
    (b = s.cfg.flag → s.rx.leadBad = false ∧ s.rx.flags = .one ∧
      holdsDestuffed s (w.foldl (Destuffed.take s.cfg) Destuffed.start))

/-- A push appends one byte to what is held. -/
theorem holdsDestuffed_push {s : State} {d : Destuffed} (v : Byte) (out : Outside)
    (h1 : s.rx.ferr = d.ferr) (h2 : s.rx.cnt.toNat = min d.body.length (s.cfg.maxBody + 1))
    (h3 : s.rx.sum = sum8 d.body)
    (h4 : ∀ a, a < d.body.length → a < s.cfg.maxBody → s.rxb.get? a = d.body[a]?) :
    holdsDestuffed (rxPush v { s with rx := { s.rx with esc := false }, out := out })
      { body := d.body ++ [v], esc := false, ferr := d.ferr } := by
  have hm := maxBody_lt s.cfg
  refine ⟨rfl, h1, ?_, ?_, ?_⟩
  · simp only [rxPush_rx, rxPush_cfg, countBody, List.length_append, List.length_cons, List.length_nil]
    split
    · rw [BitVec.toNat_add]
      simp
      omega
    · simp
      omega
  · simp only [rxPush_rx, h3, sum8_append]
    simp [sum8, add8]
  · intro a ha hma
    simp only [List.length_append, List.length_cons, List.length_nil, rxPush_cfg] at ha hma
    simp only [rxPush_rxb]
    split
    · rename_i hl
      have e : s.rx.cnt.toNat = d.body.length := by omega
      rw [Memory.get?_set, e]
      by_cases hx : a = d.body.length
      · subst hx
        simp
      · rw [if_neg hx, List.getElem?_append_left (by omega)]
        exact h4 a (by omega) hma
    · rename_i hl
      rw [List.getElem?_append_left (by omega)]
      exact h4 a (by omega) hma

/-- One more byte that does not end the read phase: the machine stands after one byte more, only the receive machine
and `RXB` have changed. -/
theorem rxStep_hasReceived {s : State} {rec : List Byte} (h : hasReceived s rec) {b : Byte} {rest : List RxEvent}
    (ha : s.out.rxEvents = .byte b :: rest) (hcount : (rec ++ [b]).count s.cfg.flag < 2) (post : State → State) :
    hasReceived (rxStep post s) (rec ++ [b]) ∧
    rxStep post s = { s with
      rxb := (rxStep post s).rxb, rx := (rxStep post s).rx, out := { s.out with rxEvents := rest } } := by
  have hx : rxStep post s = rxByte post b { s with out := { s.out with rxEvents := rest } } := by
    simp only [rxStep, ha]
  rw [hx]
  rcases rec with _ | ⟨b0, w⟩
  · replace h : s.rx = RxMachine.fresh := h
    by_cases hb : b = s.cfg.flag
    · simp only [rxByte, h]
      simp [hb, RxMachine.fresh, hasReceived, holdsDestuffed, Destuffed.start]
    · simp only [rxByte, h]
      simp [hb, RxMachine.fresh, hasReceived]
  obtain ⟨h1, h2, h3⟩ := h
  rw [List.cons_append, List.count_cons, List.count_append] at hcount
  by_cases h0 : b0 = s.cfg.flag
  · have hb : b ≠ s.cfg.flag := by
      rintro rfl
      simp [h0] at hcount
    obtain ⟨h4, h5, h6, h7⟩ := h3 h0
    have after : ∀ t : State, t.cfg = s.cfg → t.rx.any = true → t.rx.leadBad = false → t.rx.flags = .one →
        holdsDestuffed t (Destuffed.take s.cfg (w.foldl (Destuffed.take s.cfg) Destuffed.start) b) →
        hasReceived t ((b0 :: w) ++ [b]) := by
      intro t k1 k2 k3 k4 k5
      refine ⟨k2, fun hn => absurd h0 (by rw [← k1]; exact hn), fun _ => ⟨k3, k4, ?_⟩⟩
      rw [k1]
      show holdsDestuffed t ((w ++ [b]).foldl _ _)
      rw [List.foldl_append]
      exact k5
    rcases rxByte_cases post b { s with out := { s.out with rxEvents := rest } } with
      ⟨e1, _⟩ | ⟨e1, _⟩ | ⟨_, _, e1, _⟩ | ⟨_, e1, _⟩ | ⟨_, _, _, _, e2⟩ | ⟨_, _, e2, _⟩
    · simp [h1] at e1
    · simp [h1] at e1
    · simp [h5] at e1
    · exact absurd e1 hb
    · rcases e2 with ⟨g1, g2, e⟩ | ⟨g1, g2, e⟩ | ⟨g1, g2, e⟩ | ⟨g1, g2, e⟩ <;> simp only at g1 g2 <;> rw [e]
      · refine ⟨after _ rfl h1 h4 h5 ?_, rfl⟩
        simp only [Destuffed.take, ← h6, g1, g2, if_true]
        exact holdsDestuffed_push _ _ h7.1 h7.2.1 h7.2.2.1 h7.2.2.2
      · refine ⟨after _ rfl h1 h4 h5 ?_, rfl⟩
        simp only [Destuffed.take, ← h6, g1, g2, if_true]
        exact ⟨rfl, rfl, h7.2⟩
      · refine ⟨after _ rfl h1 h4 h5 ?_, rfl⟩
        simp only [Destuffed.take, ← h6, g1, g2]
        exact ⟨rfl, h7⟩
      · have same : s.rx = { s.rx with esc := false } := by
          cases hr : s.rx
          simp_all
        have push := holdsDestuffed_push b { s.out with rxEvents := rest } h7.1 h7.2.1 h7.2.2.1 h7.2.2.2
        rw [← same] at push
        refine ⟨after _ rfl h1 h4 h5 ?_, rfl⟩
        simp only [Destuffed.take, ← h6, g1, g2]
        exact push
    · exact absurd ⟨h4, h5⟩ e2
  · obtain ⟨h4, h5⟩ := h2 h0
    by_cases hb : b = s.cfg.flag
    · have hw : s.cfg.flag ∉ w := by
        intro hm
        have := List.count_pos_iff.mpr hm
        simp [hb] at hcount
        omega
      rw [if_neg hw] at h5
      simp [rxByte, h1, hb, h5, FlagCount.succ, hasReceived, h0, h4]
    · have e : rxByte post b { s with out := { s.out with rxEvents := rest } } =
          { s with out := { s.out with rxEvents := rest } } := by
        simp [rxByte, h1, hb, h4]
      rw [e]
      refine ⟨⟨h1, fun _ => ⟨h4, ?_⟩, fun hh => absurd hh h0⟩, rfl⟩
      show s.rx.flags = if s.cfg.flag ∈ w ++ [b] then .one else .zero
      simp only [List.mem_append, List.mem_singleton, Ne.symm hb, or_false]
      exact h5

/-! ### What the post-processing computes -/

/-- A payload read through `RXP`, byte by byte. -/
theorem getD_of_rxpBytes {u : State} {p : List Byte} (h : u.rxpBytes p.length = p) {k : Nat} (hk : k < p.length) :
    p.getD k 0 = u.rxpByte k := by
  have e : p[k]? = some (u.rxpByte k) := by
    rw [← h]
    simp [State.rxpBytes, hk]
  simp [List.getD, e]

/-- The terminator `RXP` holds is the payload's first 0x00 (R150). -/
theorem terminator_of_rxpBytes {u : State} {p : List Byte} (h : u.rxpBytes p.length = p)
    (hl : u.raw.len.toNat = p.length) :
    u.terminator = if p.contains 0x00 then some (p.idxOf 0x00) else none := by
  by_cases hm : p.contains 0x00 = true
  · rw [if_pos hm]
    have hlt : p.idxOf 0x00 < p.length := List.idxOf_lt_length_iff.mpr (by simpa using hm)
    refine terminator_eq_some.mpr ⟨by omega, ?_, ?_⟩
    · rw [← getD_of_rxpBytes h hlt, List.getD, List.getElem?_eq_getElem hlt]
      exact List.getElem_idxOf hlt
    · intro j hj
      rw [← getD_of_rxpBytes h (by omega)]
      have hne := List.not_of_lt_findIdx (p := (· == (0x00 : Byte))) (xs := p) (i := j) (by rw [← List.idxOf]; omega)
      simp only [List.getD, List.getElem?_eq_getElem (show j < p.length by omega), Option.getD_some]
      simpa using hne
  · rw [if_neg hm]
    refine terminator_eq_none.mpr (fun j hj h0 => hm ?_)
    have hj' : j < p.length := by omega
    rw [← getD_of_rxpBytes h hj', List.getD, List.getElem?_eq_getElem hj', Option.getD_some] at h0
    simp only [List.contains_eq_mem, decide_eq_true_eq]
    rw [← h0]
    exact List.getElem_mem _

end Sys2Proof.Machine
end

