-- ==== Sys2Proof/Laws/Transmit.lean ====
section
/-! SUPPORT. The transmit machine against `encode`: the bytes it still owes, and what one accepted byte does to them;
and what the `GO` step of every operation asks for. -/

namespace Sys2Proof.Machine

/-- The captured request body with its checksum. -/
def capturedBody (s : State) : List Byte := s.capturedHead ++ [chk s.capturedHead]

theorem capturedHead_length (s : State) : s.capturedHead.length = 3 + s.cap.len.toNat := by
  simp only [State.capturedHead, State.txpBytes, List.length_append, List.length_map, List.length_range,
    List.length_cons, List.length_nil]

theorem capturedBody_length (s : State) : (capturedBody s).length = 4 + s.cap.len.toNat := by
  simp only [capturedBody, List.length_append, capturedHead_length, List.length_cons, List.length_nil]
  omega

/-- The current byte before the checksum is the head's byte at `tx_idx` (R123). -/
theorem capturedHead_at (s : State) (h : s.tx.idx.toNat < 3 + s.cap.len.toNat) :
    s.capturedHead[s.tx.idx.toNat]? = some (curByte s) := by
  generalize hk : s.tx.idx.toNat = k at h
  simp only [curByte, State.capturedHead, hk]
  rcases k with _ | _ | _ | k
  · rfl
  · rfl
  · rfl
  · simp [State.txpBytes, show k < s.cap.len.toNat by omega, show k + 3 ≤ 2 + s.cap.len.toNat by omega]

/-- In a state of the invariant the current byte is the body's byte at `tx_idx`, the checksum included (R123). -/
theorem capturedBody_at {s : State} (h : s.Inv) (hp : s.phase = .tx) (hpos : s.tx.pos = .body) :
    (capturedBody s).drop s.tx.idx.toNat = curByte s :: (capturedBody s).drop (s.tx.idx.toNat + 1) := by
  obtain ⟨hle, hsum⟩ := h.txBody hp hpos
  have hget : (capturedBody s)[s.tx.idx.toNat]? = some (curByte s) := by
    by_cases hi : s.tx.idx.toNat < 3 + s.cap.len.toNat
    · rw [capturedBody, List.getElem?_append_left (by rw [capturedHead_length]; exact hi)]
      exact capturedHead_at s hi
    · have e : s.tx.idx.toNat = 3 + s.cap.len.toNat := by omega
      rw [e, List.take_of_length_le (by rw [capturedHead_length])] at hsum
      rw [capturedBody, List.getElem?_append_right (by rw [capturedHead_length]; omega), capturedHead_length, e]
      have hc : curByte s = s.tx.sum ^^^ 0xFF := by
        simp only [curByte, e]
        rw [if_neg (by omega), if_neg (by omega), if_neg (by omega), if_neg (by omega)]
      simp [hc, hsum, chk]
  rw [List.drop_eq_getElem?_toList_append, hget]
  rfl

/-- The bytes the transmit machine has still to send. -/
def owedBytes (s : State) : List Byte :=
  match s.tx.pos with
  | .sof => [s.cfg.flag] ++ stuff s.cfg (capturedBody s) ++ [s.cfg.flag]
  | .body =>
    (if s.tx.escp then (curByte s ^^^ s.cfg.xorm) :: stuff s.cfg ((capturedBody s).drop (s.tx.idx.toNat + 1))
      else stuff s.cfg ((capturedBody s).drop s.tx.idx.toNat)) ++ [s.cfg.flag]
  | .eof => [s.cfg.flag]

/-- One accepted byte is the first of the bytes owed: it was the last and the block enters `RX`, or the rest is owed. -/
theorem txAdvance_owed {s : State} (h : s.Inv) (hp : s.phase = .tx) (out : Outside) :
    let t := txAdvance { s with out := out }
    (owedBytes s = [txOffer s] ∧ t = { s with phase := .rx, rx := RxMachine.fresh, out := out }) ∨
    (owedBytes s = txOffer s :: owedBytes t ∧ t.phase = .tx ∧ t = { s with tx := t.tx, out := out }) := by
  intro t
  have body : ∀ tx, capturedBody { s with tx := tx, out := out } = capturedBody s := fun _ => rfl
  have plain : s.tx.escp = false → needsEscape s = false → isReserved s.cfg (curByte s) = false := by
    intro he hn
    simpa [needsEscape, he] using hn
  rcases txAdvance_cases { s with out := out } with
    ⟨h1, e⟩ | ⟨h1, h2, e⟩ | ⟨h1, h2, h3, e⟩ | ⟨h1, h2, h3, e⟩ | ⟨h1, e⟩
  · simp only at h1
    refine .inr ⟨?_, by rw [show t = _ from e]; exact hp, by rw [show t = _ from e]⟩
    rw [show t = _ from e]
    simp only [owedBytes, h1, txOffer, body]
    simp [h.txStart hp h1, TxMachine.fresh]
  · simp only at h1
    replace h2 : needsEscape s = true := h2
    refine .inr ⟨?_, by rw [show t = _ from e]; exact hp, by rw [show t = _ from e]⟩
    rw [show t = _ from e]
    have cur : curByte { s with tx := { pos := .body, idx := s.tx.idx, escp := true, sum := s.tx.sum }, out := out } =
      curByte s := rfl
    simp only [needsEscape, Bool.and_eq_true, Bool.not_eq_true'] at h2
    simp only [owedBytes, h1, txOffer, body, h2.1, capturedBody_at h hp h1, stuff_cons, stuff1_of_reserved h2.2]
    simp [needsEscape, h2, cur]
  · simp only at h1
    replace h2 : needsEscape s = false := h2
    replace h3 : s.tx.idx.toNat < 3 + s.cap.len.toNat := h3
    refine .inr ⟨?_, by rw [show t = _ from e]; exact hp, by rw [show t = _ from e]⟩
    rw [show t = _ from e]
    have hn : (s.tx.idx + 1).toNat = s.tx.idx.toNat + 1 := by
      have hc := (h.captured (by simp [hp])).2
      simp only [maxPayload] at hc
      rw [BitVec.toNat_add]
      simp
      omega
    simp only [owedBytes, h1, txOffer, body, h2, capturedBody_at h hp h1, hn]
    cases he : s.tx.escp
    · simp [stuff_cons, stuff1_of_plain (plain he h2)]
    · simp
  · simp only at h1
    replace h2 : needsEscape s = false := h2
    replace h3 : 3 + s.cap.len.toNat ≤ s.tx.idx.toNat := h3
    refine .inr ⟨?_, by rw [show t = _ from e]; exact hp, by rw [show t = _ from e]⟩
    rw [show t = _ from e]
    have hd : (capturedBody s).drop (s.tx.idx.toNat + 1) = [] :=
      List.drop_eq_nil_of_le (by rw [capturedBody_length]; omega)
    simp only [owedBytes, h1, txOffer, h2, capturedBody_at h hp h1, hd]
    cases he : s.tx.escp
    · simp [stuff_cons, stuff1_of_plain (plain he h2)]
    · simp
  · simp only at h1
    exact .inl ⟨by simp [owedBytes, h1, txOffer], e⟩

/-- A fresh transmit machine owes the encoded frame (R124). -/
theorem owedBytes_fresh {s : State} (h : s.tx = TxMachine.fresh) (hl : s.cap.len.toNat ≤ 255) {w : List Byte}
    (hw : frameEncode s.cfg s.cap.cmd (s.txpBytes s.cap.len.toNat) = .ok w) : owedBytes s = w := by
  have hn : (s.txpBytes s.cap.len.toNat).length = s.cap.len.toNat := by simp [State.txpBytes]
  have head : s.capturedHead = requestHead s.cfg s.cap.cmd (s.txpBytes s.cap.len.toNat) := by
    simp only [State.capturedHead, requestHead, hn]
    congr
  unfold frameEncode at hw
  rw [if_neg (by rw [hn]; simp only [maxPayload]; omega)] at hw
  cases hw
  simp [owedBytes, h, TxMachine.fresh, wireFrame, capturedBody, head]

theorem offerAll_cons (x : Byte) (xs : List Byte) (answers : List TxAnswer) :
    offerAll (x :: xs) answers = (match answers with
      | [] => ([], [], none)
      | .fault :: rest => ([], rest, some false)
      | .accept :: rest => (x :: (offerAll xs rest).1, (offerAll xs rest).2)) := by
  rcases answers with _ | ⟨_ | _, _⟩ <;> rfl

/-- The `GO` step of operation `i` captures its command code and payload and enters `TX`, or, where `encode` has no
frame for them, ends with `EncodingError` (R82, R121, R158). -/
def asksForRequest (i : Instr) (s : State) : Prop :=
  (∀ e, frameEncode s.cfg (requestCode s i) (requestPayload s i) = .error e →
    e = .encodingError ∧
    ∃ c, goOf i s = finish (some .encodingError) { s with done := false, err := none, cap := c }) ∧
  (∀ w, frameEncode s.cfg (requestCode s i) (requestPayload s i) = .ok w →
    ∃ c m, goOf i s = { s with done := false, err := none, cap := c, txp := m, phase := .tx, tx := TxMachine.fresh } ∧
      c.cmd = requestCode s i ∧ c.len.toNat ≤ 255 ∧ (goOf i s).txpBytes c.len.toNat = requestPayload s i ∧
      i.selector = some c.op)

theorem goOf_asksForRequest {i : Instr} (hi : i.hostInvocable = true) (s : State) : asksForRequest i s := by
  have typed : ∀ sel cmd p, i.selector = some sel → goOf i s = goTyped sel cmd p s →
      requestCode s i = cmd → requestPayload s i = p → p.length ≤ 5 → asksForRequest i s := by
    intro sel cmd p hsel hg hc hpp hl
    have e := goTyped_eq sel cmd p (by simp only [maxPayload]; omega) s
    have hn : (BitVec.ofNat 9 p.length).toNat = p.length := by
      simp only [BitVec.toNat_ofNat]
      omega
    refine ⟨fun e' he => ?_, fun w _ => ⟨_, _, hg.trans e, hc.symm, ?_, ?_, hsel⟩⟩
    · rw [hpp] at he
      unfold frameEncode at he
      rw [if_neg (by simp only [maxPayload]; omega)] at he
      cases he
    · show (BitVec.ofNat 9 p.length).toNat ≤ 255
      omega
    · show (goOf i s).txpBytes (BitVec.ofNat 9 p.length).toNat = _
      rw [hn, hg, e, hpp]
      apply List.ext_getElem
      · simp [State.txpBytes]
      · intro k _ hk
        simp only [State.txpBytes, List.getElem_map, List.getElem_range, State.txpByte]
        show ((s.txp.setAll 0 p).get? k).getD _ = _
        rw [Memory.get?_setAll, if_pos (by omega)]
        simp [hk]
  cases i with
  | encode _ _ => simp [Instr.hostInvocable] at hi
  | decode _ => simp [Instr.hostInvocable] at hi
  | xchg =>
    have hlen : (requestPayload s .xchg).length = s.opnd.argLen.toNat := by simp [requestPayload, State.txpBytes]
    rcases goStep_cases 11 s.opnd.argCmd s.opnd.argLen s.txp s with ⟨hl, e⟩ | ⟨hl, e⟩
    · refine ⟨fun e' he => ?_, fun w hw => ?_⟩
      · unfold frameEncode at he
        rw [if_pos (by rw [hlen]; exact hl)] at he
        cases he
        exact ⟨rfl, _, e⟩
      · unfold frameEncode at hw
        rw [if_pos (by rw [hlen]; exact hl)] at hw
        cases hw
    · refine ⟨fun e' he => ?_, fun w hw => ⟨_, _, e, rfl, hl, ?_, rfl⟩⟩
      · unfold frameEncode at he
        rw [if_neg (by rw [hlen]; exact Nat.not_lt.mpr hl)] at he
        cases he
      · show State.txpBytes (goStep 11 s.opnd.argCmd s.opnd.argLen s.txp s) _ = _
        rw [e]
        rfl
  | readAutoclean => exact typed _ _ _ rfl rfl rfl rfl (by simp [autocleanReadPayload])
  | writeAutoclean => exact typed _ _ _ rfl rfl rfl rfl (by simp [autocleanWritePayload, bytes32])
  | deviceInfo => exact typed _ _ _ rfl rfl rfl rfl (by simp [deviceInfoPayload])
  | _ => exact typed _ _ [] rfl rfl rfl rfl (by simp)

end Sys2Proof.Machine
end

