-- ==== Sys2Proof/Tests/Slice0.lean ====
section
/-! SUPPORT. The model's own tests, expected results from spec/95_test_vectors.md (V<n>) or from a rule's worked
example, and one witness per statement that has hypotheses: a concrete state that meets them all. -/

namespace Sys2Proof.Tests

open Sys2Proof.Machine

/-! ### Small states -/

/-- An idle block with the default parameters and every register 0, nothing offered from outside. -/
def idle : State where
  cfg := Config.standard
  opnd := { op := 0, argCmd := 0, argLen := 0, argExplen := 0, argValue := 0, argKind := 0 }
  txp := []
  phase := .idle
  done := false
  err := none
  rxb := []
  raw := { adr := 0, cmd := 0, status := 0, len := 0 }
  typed := {
    pm1_0 := 0, pm2_5 := 0, pm4_0 := 0, pm10 := 0, psize := 0, aci := 0, fwVer := 0, hwVer := 0, shdlcVer := 0
    strLen := 0 }
  str := []
  cap := { op := 0, cmd := 0, len := 0, kind := 0, value := 0 }
  tx := TxMachine.fresh
  rx := RxMachine.fresh
  out := Outside.quiet

/-- `idle` with a write of 1 to `GO` coming and these operands. -/
def going (op : BitVec 4) (len : BitVec 9) : State :=
  { idle with
    opnd := { idle.opnd with op := op, argLen := len }
    out := { Outside.quiet with inputs := [.write (.go 1)] } }

/-- `idle` in `TX`, sending the request of V160 (`READ_AUTOCLEAN`), with these answers to come. -/
def sending (tx : TxMachine) (answers : List TxAnswer) : State :=
  { idle with
    phase := .tx
    txp := [(0, 0x00)]
    cap := { op := 6, cmd := 0x80, len := 1, kind := 0, value := 0 }
    tx := tx
    out := { Outside.quiet with txAnswers := answers } }

/-- `idle` in `RX` with the operation `op` in flight, with these events to come. -/
def receiving (op : BitVec 4) (rx : RxMachine) (events : List RxEvent) : State :=
  { idle with
    phase := .rx
    cap := { idle.cap with op := op }
    rx := rx
    out := { Outside.quiet with rxEvents := events } }

/-- `idle` in `RX` with this body received, the closing `FLAG` next and two bytes after it. -/
def closing (op : BitVec 4) (body : List Byte) : State :=
  { receiving op { RxMachine.fresh with
      any := true, flags := .one, cnt := BitVec.ofNat 9 body.length, sum := sum8 body }
      [.byte 0x7E, .byte 0x55, .timeout] with
    rxb := Memory.setAll [] 0 body }

/-- `closing` with `RX_HAS_STATE`. -/
def closingSix (op : BitVec 4) (body : List Byte) : State :=
  { closing op body with cfg := { Config.standard with rxHasState := true } }

/-- What a test reads of an outcome; none if the machine stopped. -/
def seen {α : Type} (o : Host.Outcome State Fault Refusal) (f : State → α) : Option α :=
  match o with
  | .next t => some (f t)
  | .fault _ => none
  | .refused _ => none

/-! ### Well-formedness -/

/-- R73: "A payload longer than 255 bytes has no encoding". -/
theorem test_encode_256_ill_formed : Instr.wellFormed (.encode 0x00 (List.replicate 256 0x00)) = false := by
  rw [Instr.wellFormed, List.length_replicate]
  decide

theorem test_encode_255_well_formed : Instr.wellFormed (.encode 0x00 (List.replicate 255 0x00)) = true := by
  rw [Instr.wellFormed, List.length_replicate]
  decide

/-! ### Decoding: words written out from the spec -/

/-- R85, one selector per operation. -/
theorem test_decode_selectors :
    (decodeSelector 0b0000, decodeSelector 0b0001, decodeSelector 0b0010, decodeSelector 0b0011) =
      (.ok .start, .ok .stop, .ok .readMeasurement, .ok .sleep) ∧
    (decodeSelector 0b0100, decodeSelector 0b0101, decodeSelector 0b0110, decodeSelector 0b0111) =
      (.ok .wakeup, .ok .cleanFan, .ok .readAutoclean, .ok .writeAutoclean) ∧
    (decodeSelector 0b1000, decodeSelector 0b1001, decodeSelector 0b1010, decodeSelector 0b1011) =
      (.ok .deviceInfo, .ok .readVersion, .ok .reset, .ok .xchg) := by decide

/-- R88 (a). -/
theorem test_decode_reserved :
    decodeSelector 0b1100 = .error (.reservedSelector 12) ∧ decodeSelector 0b1111 = .error (.reservedSelector 15) := by
  decide

/-- R85, R71, R111 through the three ports: a selector, `hdr` of V32, the frame of V50; and the rejections. -/
theorem test_decode_words :
    decodeWords Config.standard .host [0x06] = .ok .readAutoclean ∧
    decodeWords Config.standard .encoder [0x00, 0x80, 0x01, 0x00] = .ok (.encode 0x80 [0x00]) ∧
    decodeWords Config.standard .decoder [0x7E, 0x00, 0x00, 0x00, 0xFF, 0x7E] =
      .ok (.decode [0x7E, 0x00, 0x00, 0x00, 0xFF, 0x7E]) ∧
    decodeWords Config.standard .host [0x16] = .error .notASelector ∧
    decodeWords Config.standard .encoder [0x01, 0x80, 0x00] = .error .badAddress ∧
    decodeWords Config.standard .encoder [0x00, 0x80, 0x02, 0x00] = .error .lengthMismatch ∧
    decodeWords Config.standard .encoder [0x00, 0x80] = .error .shortHeader := by decide

/-- R90, `match` of every typed row of opcode_table.json. -/
theorem test_decode_table_words :
    [0x000000, 0x000100, 0x000300, 0x001000, 0x001100, 0x005600, 0x008001, 0x008005, 0x00D001, 0x00D100, 0x00D300].map
      (decodeTableWord 24) =
    [some .start, some .stop, some .readMeasurement, some .sleep, some .wakeup, some .cleanFan, some .readAutoclean,
      some .writeAutoclean, some .deviceInfo, some .readVersion, some .reset] := by decide

/-- R90, `XCHG` by its mask, `decode` by its mask, and a width the table does not have. -/
theorem test_decode_table_masks :
    decodeTableWord 24 0x008002 = some .xchg ∧
    decodeTableWord 24 0x053300 = some (.decode [0x7E, 0x05, 0x33, 0x00, 0x00, 0x7E]) ∧
    decodeTableWord 16 0x0000 = none := by decide

/-! ### The pure functions -/

/-- V13, V14, V15, V16. -/
theorem test_checksum :
    sum8 [0xFF, 0x02, 0xFF, 0xFF] = 0xFF ∧ chk [0x00, 0x80, 0x01, 0x00] = 0x7E ∧ chk [0x00, 0x82, 0x00] = 0x7D ∧
    chk [0x00, 0x03, 0x0A, 0x00, 0x01, 0x00, 0x02, 0x00, 0x03, 0x00, 0x04, 0x00, 0x05] = 0xE3 := by decide

/-- V22, V23. -/
theorem test_stuff :
    stuff Config.standard [0x5E, 0x5D, 0x20, 0x00, 0xFF] = [0x5E, 0x5D, 0x20, 0x00, 0xFF] ∧
    stuff Config.standard [0x7E, 0x7D, 0x7D, 0x7E] = [0x7D, 0x5E, 0x7D, 0x5D, 0x7D, 0x5D, 0x7D, 0x5E] := by decide

/-- V25 to V29. -/
theorem test_unstuff :
    unstuff Config.standard [0x7D, 0x5E, 0x7D, 0x5D] = .ok [0x7E, 0x7D] ∧
    unstuff Config.standard [0x7D, 0x7D] = .error .framingError ∧
    unstuff Config.standard [0x7D, 0x20] = .error .framingError ∧
    unstuff Config.standard [0x00, 0x7D] = .error .framingError ∧
    unstuff Config.standard [0x00, 0x7E, 0x00] = .error .framingError := by decide

/-- V33, V35, V37 through the function unit's own step. -/
theorem test_encode :
    seen (exec (.encode 0x11 [0x7E, 0x7D]) idle) (fun t => t.out.encOut) =
      some (some (.ok [0x7E, 0x00, 0x11, 0x02, 0x7D, 0x5E, 0x7D, 0x5D, 0xF1, 0x7E])) ∧
    frameEncode Config.standard 0x7E [] = .ok [0x7E, 0x00, 0x7D, 0x5E, 0x00, 0x81, 0x7E] ∧
    frameEncode Config.standard 0x82 [] = .ok [0x7E, 0x00, 0x82, 0x00, 0x7D, 0x5D, 0x7E] := by decide

/-- V48. -/
theorem test_encode_too_long :
    frameEncode Config.standard 0x00 (List.replicate 256 0x00) = .error .encodingError := by
  rw [frameEncode, List.length_replicate]
  decide

/-- V52, V72, V75, V76, V77, the first through the function unit's own step. -/
theorem test_decode :
    seen (exec (.decode [0x7E, 0x00, 0xD0, 0x04, 0x7D, 0x5E, 0x7D, 0x5D, 0x20, 0x5E, 0xB2, 0x7E]) idle)
      (fun t => t.out.decOut) = some (some (.ok ⟨0x00, 0xD0, 0x00, [0x7E, 0x7D, 0x20, 0x5E]⟩)) ∧
    frameDecode Config.standard [0x7E, 0x00, 0x00, 0x00, 0xFF, 0x7D, 0x7E] = .error .framingError ∧
    frameDecode Config.standard [0x7E, 0x00, 0x00, 0x00, 0xFE, 0x7E] = .error .checksumError ∧
    frameDecode Config.standard [0x7E, 0x00, 0x03, 0x02, 0xFA, 0x7E] = .error .truncatedFrameError ∧
    frameDecode Config.standard [0x7E, 0x00, 0x03, 0x00, 0x05, 0xF7, 0x7E] = .error .framingError := by decide

/-- V81, V84. -/
theorem test_decode_six_fields :
    frameDecode { Config.standard with rxHasState := true } [0x7E, 0x00, 0x00, 0x43, 0x00, 0xBC, 0x7E] =
      .ok ⟨0x00, 0x00, 0x43, []⟩ ∧
    frameDecode { Config.standard with rxHasState := true } [0x7E, 0x00, 0x00, 0x00, 0xFF, 0x7E] =
      .error .truncatedFrameError := by decide

/-- V62, V65, V68. -/
theorem test_collect :
    collect Config.standard [.byte 0x55, .timeout] = .failed .truncatedFrameError [] ∧
    collect Config.standard [.byte 0x7E, .byte 0x00, .byte 0x00, .fault, .byte 0x00] =
      .failed .transportError [.byte 0x00] ∧
    collect Config.standard [.byte 0x7E, .byte 0x7E, .byte 0x00] = .frame [0x7E, 0x7E] [.byte 0x00] := by decide

/-- V86: a write fault on the third byte. -/
theorem test_exchange_write_fault :
    exchange Config.standard 0x00 [] [.accept, .accept, .fault] [.byte 0x7E] =
      ⟨[0x7E, 0x00], [], [.byte 0x7E], some (.error .transportError)⟩ := by decide

/-! ### Requests: the frame each operation asks for, and its `GO` step -/

/-- V90 to V96, V102, V103. -/
theorem test_request_frames :
    [Instr.start, .stop, .readMeasurement, .sleep, .wakeup, .cleanFan, .readAutoclean, .readVersion, .reset].map
      (fun i => frameEncode Config.standard (requestCode idle i) (requestPayload idle i)) =
    [.ok [0x7E, 0x00, 0x00, 0x00, 0xFF, 0x7E], .ok [0x7E, 0x00, 0x01, 0x00, 0xFE, 0x7E],
      .ok [0x7E, 0x00, 0x03, 0x00, 0xFC, 0x7E], .ok [0x7E, 0x00, 0x10, 0x00, 0xEF, 0x7E],
      .ok [0x7E, 0x00, 0x11, 0x00, 0xEE, 0x7E], .ok [0x7E, 0x00, 0x56, 0x00, 0xA9, 0x7E],
      .ok [0x7E, 0x00, 0x80, 0x01, 0x00, 0x7D, 0x5E, 0x7E], .ok [0x7E, 0x00, 0xD1, 0x00, 0x2E, 0x7E],
      .ok [0x7E, 0x00, 0xD3, 0x00, 0x2C, 0x7E]] := by decide

/-- V99, V100, V101. -/
theorem test_request_operands :
    frameEncode Config.standard 0x80
      (requestPayload { idle with opnd := { idle.opnd with argValue := 0x7E007D11 } } .writeAutoclean) =
      .ok [0x7E, 0x00, 0x80, 0x05, 0x00, 0x7D, 0x5E, 0x00, 0x7D, 0x5D, 0x11, 0x6E, 0x7E] ∧
    frameEncode Config.standard 0xD0 (requestPayload idle .deviceInfo) =
      .ok [0x7E, 0x00, 0xD0, 0x01, 0x00, 0x2E, 0x7E] ∧
    frameEncode Config.standard 0xD0
      (requestPayload { idle with opnd := { idle.opnd with argKind := 1 } } .deviceInfo) =
      .ok [0x7E, 0x00, 0xD0, 0x01, 0x03, 0x2B, 0x7E] := by decide

/-- P2: after the `GO` step of `WRITE_AUTOCLEAN`, `TXP[0..4]` = `00 7E 00 7D 11`. -/
theorem test_go_write_autoclean :
    seen (exec .writeAutoclean { idle with opnd := { idle.opnd with argValue := 0x7E007D11 } })
      (fun t => (t.phase, t.cap.cmd, t.cap.len, t.txp)) =
    some (.tx, 0x80, 5, [(0, 0x00), (1, 0x7E), (2, 0x00), (3, 0x7D), (4, 0x11)]) := by decide

/-- V88 and P5 step 2: `ARG_LEN` above 255 ends in the `GO` step. -/
theorem test_go_xchg_too_long :
    seen (step (going 11 511)) (fun t => (t.phase, t.done, t.err, t.out.txOut)) =
      some (.idle, true, some .encodingError, []) := by decide

/-! ### The byte-serial machines -/

/-- V160, steps 6, 7 and 8. -/
theorem test_transmit_steps :
    seen (exec .readAutoclean (sending { pos := .body, idx := 4, escp := false, sum := 0x81 } [.accept]))
      (fun t => (t.out.txOut, t.tx)) = some ([0x7D], { pos := .body, idx := 4, escp := true, sum := 0x81 }) ∧
    seen (exec .readAutoclean (sending { pos := .body, idx := 4, escp := true, sum := 0x81 } [.accept]))
      (fun t => (t.out.txOut, t.tx)) = some ([0x5E], { pos := .eof, idx := 4, escp := false, sum := 0x81 }) ∧
    seen (exec .readAutoclean (sending { pos := .eof, idx := 4, escp := false, sum := 0x81 } [.accept]))
      (fun t => (t.out.txOut, t.phase)) = some ([0x7E], .rx) := by decide

/-- V161, the bytes 7D and 5E that push 7E as the fourth body byte. -/
theorem test_receive_escape :
    seen (exec .readAutoclean (receiving 6 ⟨true, false, .one, false, false, 3, 0x84⟩ [.byte 0x7D]))
      (fun t => t.rx) = some ⟨true, false, .one, true, false, 3, 0x84⟩ ∧
    seen (exec .readAutoclean (receiving 6 ⟨true, false, .one, true, false, 3, 0x84⟩ [.byte 0x5E]))
      (fun t => (t.rx, t.rxb)) = some (⟨true, false, .one, false, false, 4, 0x02⟩, [(3, 0x7E)]) := by decide

/-- V89: the count of body bytes saturates at `MAX_BODY + 1` = 260 and the surplus byte is not stored. -/
theorem test_receive_saturates :
    seen (exec .xchg (receiving 11 ⟨true, false, .one, false, false, 259, 0x00⟩ [.byte 0x01]))
      (fun t => (t.rx.cnt, t.rx.sum, t.rxb)) = some (260, 0x01, []) ∧
    seen (exec .xchg (receiving 11 ⟨true, false, .one, false, false, 260, 0x01⟩ [.byte 0x01]))
      (fun t => (t.rx.cnt, t.rx.sum, t.rxb)) = some (260, 0x02, []) := by decide

/-! ### Responses: the step that receives the closing `FLAG` -/

/-- V111, V113 to V117: the acknowledge-only operations ignore the payload. -/
theorem test_acknowledgements :
    seen (exec .start (closing 0 [0x00, 0x00, 0x02, 0xAA, 0xBB, 0x98])) (fun t => (t.err, t.raw)) =
      some (none, ⟨0x00, 0x00, 0x00, 0x02⟩) ∧
    seen (exec .stop (closing 1 [0x00, 0x01, 0x00, 0xFE])) (fun t => (t.err, t.raw.cmd)) = some (none, 0x01) ∧
    seen (exec .sleep (closing 3 [0x00, 0x10, 0x00, 0xEF])) (fun t => t.err) = some none ∧
    seen (exec .wakeup (closing 4 [0x00, 0x11, 0x00, 0xEE])) (fun t => t.err) = some none ∧
    seen (exec .cleanFan (closing 5 [0x00, 0x56, 0x00, 0xA9])) (fun t => t.err) = some none ∧
    seen (exec .reset (closing 10 [0x00, 0xD3, 0x00, 0x2C])) (fun t => t.err) = some none := by decide

/-- V119. -/
theorem test_read_measurement :
    seen (exec .readMeasurement
      (closing 2 [0x00, 0x03, 0x0A, 0x7E, 0x7D, 0x7D, 0x7E, 0x00, 0x7E, 0x5E, 0x5D, 0x12, 0x34, 0x7D]))
      (fun t => (t.err, t.typed.pm1_0, t.typed.pm2_5, t.typed.pm4_0, t.typed.pm10, t.typed.psize)) =
    some (none, 0x7E7D, 0x7D7E, 0x007E, 0x5E5D, 0x1234) := by decide

/-- V120: nine bytes. -/
theorem test_read_measurement_short :
    seen (exec .readMeasurement
      (closing 2 [0x00, 0x03, 0x09, 0x00, 0x01, 0x00, 0x02, 0x00, 0x03, 0x00, 0x04, 0x00, 0xE9]))
      (fun t => (t.err, t.raw.len, t.typed)) = some (some .protocolError, 9, idle.typed) := by decide

/-- V126 (V161), V127. -/
theorem test_read_autoclean :
    seen (exec .readAutoclean (closing 6 [0x00, 0x80, 0x04, 0x7E, 0x00, 0x7D, 0x11, 0x6F]))
      (fun t => (t.err, t.typed.aci)) = some (none, 0x7E007D11) ∧
    seen (exec .readAutoclean (closing 6 [0x00, 0x80, 0x03, 0x00, 0x09, 0x3A, 0x39]))
      (fun t => (t.err, t.typed.aci)) = some (some .protocolError, 0) := by decide

/-- V129, V130. -/
theorem test_write_autoclean :
    seen (exec .writeAutoclean (closing 7 [0x00, 0x80, 0x00, 0x7F])) (fun t => (t.err, t.typed)) =
      some (none, idle.typed) ∧
    seen (exec .writeAutoclean (closing 7 [0x00, 0x80, 0x01, 0x00, 0x7E])) (fun t => t.err) =
      some (some .protocolError) := by decide

/-- V135: the copy stops at the first 0x00. -/
theorem test_device_info :
    seen (exec .deviceInfo (closing 8 [0x00, 0xD0, 0x04, 0x41, 0x00, 0x42, 0x00, 0xA8]))
      (fun t => (t.err, t.typed.strLen, t.str)) = some (none, 1, [(0, 0x41), (1, 0x00)]) := by decide

/-- V132: no terminator. -/
theorem test_device_info_unterminated :
    seen (exec .deviceInfo (closing 8 [0x00, 0xD0, 0x03, 0x41, 0x42, 0x43, 0x66]))
      (fun t => (t.err, t.typed.strLen, t.str)) = some (some .protocolError, 0, []) := by decide

/-- V139, V141. -/
theorem test_read_version :
    seen (exec .readVersion (closing 9 [0x00, 0xD1, 0x06, 0x02, 0x03, 0x00, 0x07, 0x02, 0x00, 0x1A]))
      (fun t => (t.err, t.typed.fwVer, t.typed.hwVer, t.typed.shdlcVer)) = some (none, 0x0203, 0x0007, 0x0200) ∧
    seen (exec .readVersion (closing 9 [0x00, 0xD1, 0x05, 0x02, 0x03, 0x00, 0x07, 0x02, 0x1B]))
      (fun t => t.err) = some (some .protocolError) := by decide

/-- P5 step 1. -/
theorem test_xchg :
    seen (exec .xchg (closing 11 [0x00, 0xD2, 0x02, 0x7D, 0x01, 0xAD]))
      (fun t => (t.err, t.raw, t.typed, t.rxpByte 0, t.rxpByte 1)) =
    some (none, ⟨0x00, 0xD2, 0x00, 0x02⟩, idle.typed, 0x7D, 0x01) := by decide

/-- V151, V154: with `RX_HAS_STATE`. -/
theorem test_six_field_responses :
    seen (exec .start (closingSix 0 [0x00, 0x00, 0x43, 0x00, 0xBC])) (fun t => (t.err, t.raw.status, t.raw.len)) =
      some (some .protocolError, 0x43, 0) ∧
    seen (exec .deviceInfo (closingSix 8 [0x00, 0xD0, 0x00, 0x04, 0x41, 0x42, 0x43, 0x00, 0x65]))
      (fun t => (t.err, t.typed.strLen, t.str)) =
      some (none, 3, [(0, 0x41), (1, 0x42), (2, 0x43), (3, 0x00)]) := by decide

/-- V66, V67, V72, V57, V76, V77 at the second `FLAG`: the order of R127. -/
theorem test_evaluation_errors :
    seen (exec .xchg (closing 11 [0x00, 0x03, 0x0A, 0x00, 0x01])) (fun t => t.err) = some (some .checksumError) ∧
    seen (exec .xchg (receiving 11 ⟨true, true, .one, false, false, 0, 0x00⟩ [.byte 0x7E])) (fun t => t.err) =
      some (some .framingError) ∧
    seen (exec .xchg (receiving 11 ⟨true, false, .one, true, false, 4, 0xFF⟩ [.byte 0x7E])) (fun t => t.err) =
      some (some .framingError) ∧
    seen (exec .xchg (closing 11 [])) (fun t => t.err) = some (some .truncatedFrameError) ∧
    seen (exec .xchg (closing 11 [0x00, 0x03, 0x02, 0xFA])) (fun t => t.err) = some (some .truncatedFrameError) ∧
    seen (exec .xchg (closing 11 [0x00, 0x03, 0x00, 0x05, 0xF7])) (fun t => t.err) = some (some .framingError) := by
  decide

/-! ### The host -/

/-- R44: a read of `OP` and a write of `TXP` while idle; R207: a second `GO` is a fault. -/
theorem test_host_reads :
    seen (step { idle with out := { Outside.quiet with inputs := [.read .op, .letRun] } })
      (fun t => (t.out.readData, t.out.inputs)) = some ([(.op, 0)], [.letRun]) ∧
    seen (step { idle with out := { Outside.quiet with inputs := [.write (.txp 255 0xAA)] } }) (fun t => t.txp) =
      some [(255, 0xAA)] ∧
    seen (step { sending TxMachine.fresh [] with out := { Outside.quiet with inputs := [.write (.go 1)] } })
      (fun t => t.phase) = none := by decide

/-- A table word runs next (log 12): `READ_AUTOCLEAN`'s header, from reset. -/
theorem test_table_word_runs_from_reset :
    seen (step (State.reset.withFetchWord 24 0x008001)) (fun t => (t.phase, t.cap.op, t.cap.cmd, t.cap.len, t.txp)) =
      some (.tx, 6, 0x80, 1, [(0, 0x00)]) := by rfl

/-! ### Witnesses: states and operands that meet the hypotheses of each statement, clause by clause

Each is named after its statement. -/

theorem witness_ChecksumSumRules : [(0x01 : Byte), 0x02].Perm [0x02, 0x01] := by decide

theorem witness_ChecksumLaw : sum8 [0xFF] = 0xFF ∧ sum8 [0x81] = 0x81 ∧ sum8 [0x82] = 0x82 := by decide

theorem witness_StuffingLaws : Config.standard.valid ∧ (0x7F : Byte) ≠ 0x7E ∧ (0x7F : Byte) ≠ 0x7D := by decide

/-- Other constants than the defaults are valid too. -/
theorem witness_UnstuffInvertsStuffExactly :
    ({ Config.standard with flag := 0xC0, esc := 0xDB, xorm := 0x03, addr := 0xC0 } : Config).valid ∧
    unstuff Config.standard [0x7D, 0x5E] = .ok [0x7E] := by decide

theorem witness_UnstuffRejectsOnlyByFraming :
    unstuff Config.standard [0x7D, 0x20] = .error .framingError := by decide

/-- 255 and 256 payload bytes, and a frame. -/
theorem witness_EncodeFailsExactlyAbove255 :
    (List.replicate 255 (0x00 : Byte)).length ≤ 255 ∧
    frameEncode Config.standard 0x00 (List.replicate 256 0x00) = .error .encodingError ∧
    frameEncode Config.standard 0x00 [0xFF] = .ok [0x7E, 0x00, 0x00, 0x01, 0xFF, 0xFF, 0x7E] := by
  refine ⟨by rw [List.length_replicate], test_encode_too_long, by decide⟩

theorem witness_RequestLengthBounds :
    frameEncode Config.standard 0x00 [] = .ok [0x7E, 0x00, 0x00, 0x00, 0xFF, 0x7E] := by decide

theorem witness_FrameRoundTrip : Config.standard.valid ∧ Config.standard.rxHasState = false ∧
    (List.replicate 255 (0x7E : Byte)).length ≤ 255 := by
  refine ⟨by decide, rfl, by rw [List.length_replicate]⟩

/-- V50's body and its first, and last changeable, byte. -/
theorem witness_OneChangedBodyByteIsChecksumError :
    frameDecode Config.standard (wireFrame Config.standard [0x00, 0x00, 0x00, 0xFF]) = .ok ⟨0x00, 0x00, 0x00, []⟩ ∧
    (2 + 1 < ([0x00, 0x00, 0x00, 0xFF] : List Byte).length ∧ ([0x00, 0x00, 0x00, 0xFF] : List Byte).getD 2 0 ≠ 0x01) ∧
    ([0x00, 0x00, 0x00, 0xFF] : List Byte).getD 0 0 ≠ 0x7E := by decide

theorem witness_DecodeCornerCases : Config.standard.valid ∧ Config.standard.rxHasState = false ∧
    ([0x00, 0x00, 0xFF] : List Byte).length < Config.standard.headerLen + 1 ∧
    ({ Config.standard with rxHasState := true } : Config).valid := by decide

theorem witness_CollectEndsAtSecondFlag :
    collect Config.standard [.byte 0x7E, .byte 0x7E, .fault] = .frame [0x7E, 0x7E] [.fault] ∧
    ([0x7E] : List Byte).count Config.standard.flag < 2 ∧ ([] : List Byte).count Config.standard.flag < 2 := by decide

theorem witness_WordsDecodeToTheirOperation :
    Instr.wellFormed (.encode 0x80 [0x00]) = true ∧ Instr.wellFormed .xchg = true ∧
    decodeWords Config.standard .host [0x0B] = .ok .xchg := by decide

theorem witness_TableWordsDecode : 12 ≤ (12 : BitVec 4).toNat ∧ 12 ≤ (15 : BitVec 4).toNat := by decide

/-- One state per clause: a `GO`, nothing to take, `letRun`, `pollDone`, a call of a function unit. -/
theorem witness_StepRunsTheDecodedOperation :
    ((going 11 0).phase = .idle ∧ (going 11 0).out.inputs = .write (.go 1) :: [] ∧
      decodeSelector (going 11 0).opnd.op = .ok .xchg) ∧
    ((sending TxMachine.fresh []).phase ≠ .idle ∧ (sending TxMachine.fresh []).out.inputs = [] ∧
      decodeSelector (sending TxMachine.fresh []).cap.op = .ok .readAutoclean ∧
      (sending TxMachine.fresh []).done = false) ∧
    (∃ s : State, s.phase ≠ .idle ∧ s.out.inputs = .letRun :: [] ∧ decodeSelector s.cap.op = .ok .start) ∧
    (∃ s : State, s.phase ≠ .idle ∧ s.done = false ∧ s.out.inputs = .pollDone :: [] ∧
      decodeSelector s.cap.op = .ok .start) ∧
    (∃ s : State, s.out.inputs = .unit (.decode []) :: []) := by
  refine ⟨by decide, by decide, ⟨{ receiving 0 RxMachine.fresh [] with
    out := { Outside.quiet with inputs := [.letRun] } }, by decide⟩, ⟨{ receiving 0 RxMachine.fresh [] with
    out := { Outside.quiet with inputs := [.pollDone] } }, by decide⟩,
    ⟨{ idle with out := { Outside.quiet with inputs := [.unit (.decode [])] } }, rfl⟩⟩

theorem witness_TableWordRunsNext :
    decodeTableWord 24 0x00D2FF = some .xchg ∧ decodeTableWord 24 0x008005 = some .writeAutoclean ∧
    decodeTableWord 24 0x010000 = some (.decode [0x7E, 0x01, 0x00, 0x00, 0x00, 0x7E]) := by decide

theorem witness_ReservedSelectorIsRefused :
    ((going 12 0).phase = .idle ∧ 12 ≤ (going 12 0).opnd.op.toNat ∧
      (going 12 0).out.inputs = .write (.go 1) :: []) ∧
    12 ≤ (going 15 0).opnd.op.toNat := by decide

theorem witness_GoWhileBusyFaults :
    ∃ s : State, s.busy = true ∧ s.out.inputs = .write (.go 1) :: [] :=
  ⟨{ going 0 0 with phase := .tx }, by decide⟩

theorem witness_OperandWriteWhileBusyFaults :
    ∃ s : State, s.busy = true ∧ s.out.inputs = .write (.txp 255 0x00) :: [] :=
  ⟨{ idle with phase := .rx, out := { Outside.quiet with inputs := [.write (.txp 255 0x00)] } }, by decide⟩

theorem witness_HostWriteSetsOnePlace :
    (∃ s : State, s.busy = false ∧ s.out.inputs = .write (.argLen 511) :: []) ∧
    (∃ s : State, s.out.inputs = .write (.go 0) :: []) :=
  ⟨⟨{ idle with out := { Outside.quiet with inputs := [.write (.argLen 511)] } }, by decide⟩,
    ⟨{ idle with out := { Outside.quiet with inputs := [.write (.go 0)] } }, rfl⟩⟩

/-- A defined read and an unspecified one: `R_LEN` while idle, and while busy; and a register of the second clause. -/
theorem witness_HostReadHasNoSideEffect :
    (∃ s : State, s.out.inputs = .read .rLen :: [] ∧ s.readDefined .rLen = true) ∧
    (∃ s : State, s.out.inputs = .read .rLen :: [] ∧ s.readDefined .rLen = false) ∧
    (HostReg.strLen ∉ [HostReg.go, .busy, .done, .err] ∧ ∀ k, HostReg.strLen ≠ .rxp k) :=
  ⟨⟨{ idle with out := { Outside.quiet with inputs := [.read .rLen] } }, by decide⟩,
    ⟨{ idle with phase := .tx, out := { Outside.quiet with inputs := [.read .rLen] } }, by decide⟩, by decide,
    fun _ h => HostReg.noConfusion h⟩

theorem idle_inv : idle.Inv := by
  constructor <;> decide

/-- A state of the invariant in `TX`: the transmit machine fresh. -/
theorem sending_inv (answers : List TxAnswer) : (sending TxMachine.fresh answers).Inv where
  cfg := (by decide : Config.standard.valid)
  txp := (by decide : (sending TxMachine.fresh []).txp.wf = true ∧ (sending TxMachine.fresh []).txp.fits 256 = true)
  rxb := (by decide : (sending TxMachine.fresh []).rxb.wf = true ∧ (sending TxMachine.fresh []).rxb.fits Config.standard.maxBody = true)
  str := (by decide : (sending TxMachine.fresh []).str.wf = true ∧ (sending TxMachine.fresh []).str.fits 255 = true)
  flags := fun _ => ⟨rfl, rfl⟩
  captured := fun _ => (by decide : (sending TxMachine.fresh []).cap.op.toNat ≤ 11 ∧ (sending TxMachine.fresh []).cap.len.toNat ≤ maxPayload)
  txStart := fun _ _ => rfl
  txBody := fun _ h => TxPos.noConfusion h
  txEscape := fun _ h => Bool.noConfusion h
  txEnd := fun _ _ => rfl
  rxOpen := fun h => Phase.noConfusion h
  rxFirst := fun h => Phase.noConfusion h
  rxLead := fun h => Phase.noConfusion h
  rxCount := fun h => Phase.noConfusion h
  rxSum := fun h => Phase.noConfusion h

/-- A state of the invariant in `RX`: the receive machine fresh. -/
theorem receiving_inv (events : List RxEvent) : (receiving 11 RxMachine.fresh events).Inv where
  cfg := (by decide : Config.standard.valid)
  txp := (by decide : (receiving 11 RxMachine.fresh []).txp.wf = true ∧ (receiving 11 RxMachine.fresh []).txp.fits 256 = true)
  rxb := (by decide : (receiving 11 RxMachine.fresh []).rxb.wf = true ∧ (receiving 11 RxMachine.fresh []).rxb.fits Config.standard.maxBody = true)
  str := (by decide : (receiving 11 RxMachine.fresh []).str.wf = true ∧ (receiving 11 RxMachine.fresh []).str.fits 255 = true)
  flags := fun _ => ⟨rfl, rfl⟩
  captured := fun _ => (by decide : (receiving 11 RxMachine.fresh []).cap.op.toNat ≤ 11 ∧ (receiving 11 RxMachine.fresh []).cap.len.toNat ≤ maxPayload)
  txStart := fun h => Phase.noConfusion h
  txBody := fun h => Phase.noConfusion h
  txEscape := fun h => Phase.noConfusion h
  txEnd := fun h => Phase.noConfusion h
  rxOpen := fun _ h => FlagCount.noConfusion h
  rxFirst := fun _ _ => rfl
  rxLead := fun _ h => Bool.noConfusion h
  rxCount := fun _ => ⟨Nat.zero_le _, fun a h => absurd h (Nat.not_lt_zero a)⟩
  rxSum := fun _ _ => rfl

theorem witness_ControlBitsReadAtAnyTime :
    (sending TxMachine.fresh []).Inv ∧ (sending TxMachine.fresh []).busy = true := ⟨sending_inv [], by decide⟩

/-- R170, R44: what the host reads after an operation that ended with `ProtocolError`. -/
theorem test_read_done_and_err :
    seen (exec .writeAutoclean (closing 7 [0x00, 0x80, 0x01, 0x00, 0x7E]))
      (fun t => (t.content .busy, t.content .done, t.content .err)) = some (0, 1, 7) := by decide

theorem witness_ResetEventAbandonsTheOperation :
    ∃ s : State, s.out.inputs = .resetEvent :: [] ∧ s.phase = .tx :=
  ⟨{ sending TxMachine.fresh [] with out := { Outside.quiet with inputs := [.resetEvent] } }, rfl, rfl⟩

theorem witness_GoStepOfEmptyPayloadOperations :
    idle.phase = .idle ∧ (Instr.reset, (10 : BitVec 4), (0xD3 : Byte)) ∈
      [(Instr.start, 0, 0x00), (.reset, 10, idle.cfg.ccReset)] := by decide

theorem witness_GoStepOfPayloadOperations :
    idle.phase = .idle ∧ (Instr.deviceInfo, (8 : BitVec 4), (0xD0 : Byte), [(0x00 : Byte)]) ∈
      [(.deviceInfo, 8, idle.cfg.ccDevInfo, [if idle.opnd.argKind = 0 then idle.cfg.selProduct else idle.cfg.selSerial])] := by
  decide

/-- The two sides of the bound. -/
theorem witness_GoStepOfXchg :
    (going 11 255).phase = .idle ∧ (going 11 255).opnd.argLen.toNat ≤ 255 ∧
    (going 11 256).phase = .idle ∧ 256 ≤ (going 11 256).opnd.argLen.toNat := by decide

/-- With `ERR` 0 before, and with `EncodingError` in it from the operation before: `XCHG` raises it, `START` clears it. -/
theorem witness_EncodingErrorOnlyFromXchg :
    let again : State := { going 11 256 with done := true, err := some .encodingError }
    Instr.xchg.hostInvocable = true ∧ (going 11 256).phase = .idle ∧
    seen (exec .xchg (going 11 256)) (fun t => t.err) = some (some .encodingError) ∧
    again.Inv ∧ seen (exec .xchg again) (fun t => t.err) = some (some .encodingError) ∧
    seen (exec .start again) (fun t => t.err) = some none := by
  refine ⟨rfl, rfl, by decide, ?_, by decide, by decide⟩
  constructor <;> decide

/-- `SOF`; a reserved byte; the last byte before the checksum and the checksum, the owed and the plain; `EOF`. -/
theorem witness_AcceptedByteAdvancesTheTransmitMachine :
    (sending TxMachine.fresh [.accept]).tx.pos = .sof ∧
    (let s := sending { pos := .body, idx := 4, escp := false, sum := 0x81 } [.accept];
      s.phase = .tx ∧ s.out.txAnswers = .accept :: [] ∧ s.tx.pos = .body ∧ s.tx.escp = false ∧ curByte s = s.cfg.flag) ∧
    (let s := sending { pos := .body, idx := 3, escp := false, sum := 0x81 } [.accept];
      s.tx.pos = .body ∧ (curByte s ≠ s.cfg.flag ∧ curByte s ≠ s.cfg.esc) ∧ s.tx.idx.toNat < 3 + s.cap.len.toNat) ∧
    (let s := sending { pos := .body, idx := 4, escp := true, sum := 0x81 } [.accept];
      s.tx.pos = .body ∧ s.tx.escp = true ∧ 3 + s.cap.len.toNat ≤ s.tx.idx.toNat) ∧
    (sending { pos := .eof, idx := 4, escp := false, sum := 0x81 } [.accept]).tx.pos = .eof := by decide

theorem witness_WriteFaultEndsTheOperation :
    Instr.readAutoclean.hostInvocable = true ∧ (sending TxMachine.fresh [.fault]).phase = .tx ∧
    (sending TxMachine.fresh [.fault]).out.txAnswers = .fault :: [] := by decide

theorem witness_UnansweredWriteWaitsForEver :
    (sending TxMachine.fresh []).Inv ∧ (sending TxMachine.fresh []).phase = .tx ∧
    (sending TxMachine.fresh []).out.inputs = [] ∧ (sending TxMachine.fresh []).out.txAnswers = [] :=
  ⟨sending_inv [], rfl, rfl, rfl⟩

/-- V96: the request of `READ_AUTOCLEAN`, eight accepts. -/
theorem witness_TransmitPhaseSendsEncode :
    let s := sending TxMachine.fresh (List.replicate 8 .accept)
    s.Inv ∧ s.phase = .tx ∧ s.tx = TxMachine.fresh ∧ s.out.inputs = [] ∧
    frameEncode s.cfg s.cap.cmd (s.txpBytes s.cap.len.toNat) = .ok [0x7E, 0x00, 0x80, 0x01, 0x00, 0x7D, 0x5E, 0x7E] ∧
    s.out.txAnswers = List.replicate 8 .accept ++ [] :=
  ⟨sending_inv _, rfl, rfl, rfl, by decide, rfl⟩

/-- The first byte, `FLAG` and not; the `FLAG` after a bad first byte and a byte dropped; and the four interior bytes,
the last where the body is full. -/
theorem witness_ReceivedByteAdvancesTheReceiveMachine :
    (let s := receiving 11 RxMachine.fresh [.byte 0x7E];
      s.phase = .rx ∧ s.out.rxEvents = .byte s.cfg.flag :: [] ∧ s.rx.any = false) ∧
    (let s := receiving 11 RxMachine.fresh [.byte 0x55];
      s.out.rxEvents = .byte 0x55 :: [] ∧ 0x55 ≠ s.cfg.flag ∧ s.rx.any = false) ∧
    (let s := receiving 11 ⟨true, true, .zero, false, false, 0, 0⟩ [.byte 0x7E];
      s.out.rxEvents = .byte s.cfg.flag :: [] ∧ s.rx.any = true ∧ s.rx.flags = .zero) ∧
    (let s := receiving 11 ⟨true, true, .zero, false, false, 0, 0⟩ [.byte 0x55];
      s.rx.any = true ∧ 0x55 ≠ s.cfg.flag ∧ s.rx.leadBad = true) ∧
    (let s := receiving 11 ⟨true, false, .one, true, false, 259, 0⟩ [.byte 0x5E];
      s.rx.any = true ∧ 0x5E ≠ s.cfg.flag ∧ s.rx.leadBad = false ∧ s.rx.flags = .one ∧ s.rx.esc = true ∧
        0x5E = s.cfg.flag ^^^ s.cfg.xorm ∧ 0x20 ≠ s.cfg.flag ^^^ s.cfg.xorm ∧ 0x20 ≠ s.cfg.esc ^^^ s.cfg.xorm) ∧
    (let s := receiving 11 ⟨true, false, .one, false, false, 259, 0⟩ [.byte 0x7D];
      s.rx.esc = false ∧ 0x7D = s.cfg.esc ∧ 0x00 ≠ s.cfg.esc ∧ ¬ s.rx.cnt.toNat < s.cfg.maxBody) := by decide

/-- One state per clause of R127. -/
theorem witness_SecondFlagEvaluatesInOrder :
    (let s := closing 11 [];
      s.phase = .rx ∧ s.out.rxEvents = .byte s.cfg.flag :: [.byte 0x55, .timeout] ∧ s.rx.any = true ∧
        s.rx.flags = .one ∧ s.rx.leadBad = false ∧ s.rx.ferr = false ∧ s.rx.esc = false ∧
        s.rx.cnt.toNat < s.cfg.headerLen + 1) ∧
    (receiving 11 ⟨true, true, .one, false, false, 0, 0⟩ [.byte 0x7E]).rx.leadBad = true ∧
    (receiving 11 ⟨true, false, .one, true, false, 4, 0xFF⟩ [.byte 0x7E]).rx.esc = true ∧
    (let s := closing 11 [0x00, 0x03, 0x00, 0x00];
      s.cfg.headerLen + 1 ≤ s.rx.cnt.toNat ∧ s.rx.sum ≠ 0xFF) ∧
    (let s := closing 11 [0x00, 0x03, 0x02, 0xFA];
      s.rx.sum = 0xFF ∧ s.rx.cnt.toNat < s.cfg.headerLen + 1 + (s.rxbByte (s.cfg.headerLen - 1)).toNat) ∧
    (let s := closing 11 [0x00, 0x03, 0x00, 0x05, 0xF7];
      s.rx.sum = 0xFF ∧ s.cfg.headerLen + 1 + (s.rxbByte (s.cfg.headerLen - 1)).toNat < s.rx.cnt.toNat) ∧
    (let s := closing 11 [0x00, 0x03, 0x00, 0xFC];
      s.rx.sum = 0xFF ∧ s.rx.cnt.toNat = s.cfg.headerLen + 1 + (s.rxbByte (s.cfg.headerLen - 1)).toNat) := by decide

theorem witness_TimeoutAndReadFaultEndTheOperation :
    (receiving 11 RxMachine.fresh [.fault]).phase = .rx ∧
    (receiving 11 RxMachine.fresh [.fault]).out.rxEvents = .fault :: [] ∧
    (receiving 11 RxMachine.fresh [.timeout]).out.rxEvents = .timeout :: [] ∧
    (receiving 11 RxMachine.fresh [.timeout]).rx.any = false ∧
    (receiving 11 { RxMachine.fresh with any := true, flags := .one } [.timeout]).rx.any = true := by decide

/-- V69: a good frame and a second one left in the stream; V75: a bad one. -/
theorem witness_ReceivePhaseComputesDecode :
    (let s := receiving 11 RxMachine.fresh
        [.byte 0x7E, .byte 0x00, .byte 0x00, .byte 0x00, .byte 0xFF, .byte 0x7E, .byte 0x7E];
      s.Inv ∧ s.phase = .rx ∧ s.rx = RxMachine.fresh ∧ s.out.inputs = [] ∧
        collect s.cfg s.out.rxEvents = .frame [0x7E, 0x00, 0x00, 0x00, 0xFF, 0x7E] [.byte 0x7E]) ∧
    frameDecode Config.standard [0x7E, 0x00, 0x00, 0x00, 0xFF, 0x7E] = .ok ⟨0x00, 0x00, 0x00, []⟩ ∧
    frameDecode Config.standard [0x7E, 0x00, 0x00, 0x00, 0xFE, 0x7E] = .error .checksumError :=
  ⟨⟨receiving_inv _, rfl, rfl, rfl, by decide⟩, by decide, by decide⟩

theorem witness_ReadPhaseEndsUnderFairness :
    let s := receiving 11 RxMachine.fresh [.byte 0x7E, .byte 0x00, .timeout]
    s.Inv ∧ s.phase = .rx ∧ s.out.inputs = [] ∧ readPhaseEnds s.cfg s.flagsMissing s.out.rxEvents = true :=
  ⟨receiving_inv _, rfl, rfl, by decide⟩

/-- A good frame ends in every `closing` state whose body is good. -/
theorem good_frame {op : BitVec 4} {body : List Byte} {len : Nat} (hs : sum8 body = 0xFF)
    (hl : body.length = 4 + len) (hb : body.length < 512) (hd : ((closing op body).rxbByte 2).toNat = len) :
    (closing op body).EndsGoodFrame len [.byte 0x55, .timeout] :=
  ⟨rfl, rfl, rfl, rfl, rfl, rfl, rfl, hs, by
    show (BitVec.ofNat 9 body.length).toNat = 3 + 1 + len
    rw [BitVec.toNat_ofNat, Nat.mod_eq_of_lt hb, hl], hd⟩

theorem witness_AcknowledgeOnlyOperationsComplete :
    Instr.start ∈ [Instr.start, .stop, .sleep, .wakeup, .cleanFan, .reset] ∧
    (closing 0 [0x00, 0x00, 0x02, 0xAA, 0xBB, 0x98]).EndsGoodFrame 2 [.byte 0x55, .timeout] ∧
    (closing 0 [0x00, 0x00, 0x02, 0xAA, 0xBB, 0x98]).receivedStatus = 0x00 :=
  ⟨by decide, good_frame (by decide) (by decide) (by decide) (by decide), by decide⟩

theorem witness_ReadMeasurementCompletes :
    let s := closing 2 [0x00, 0x03, 0x0A, 0x00, 0x01, 0x00, 0x02, 0x00, 0x03, 0x00, 0x04, 0x00, 0x05, 0xE3]
    s.EndsGoodFrame 10 [.byte 0x55, .timeout] ∧ s.receivedStatus = 0x00 :=
  ⟨good_frame (by decide) (by decide) (by decide) (by decide), by decide⟩

theorem witness_ReadAutocleanCompletes :
    let s := closing 6 [0x00, 0x80, 0x04, 0x7E, 0x00, 0x7D, 0x11, 0x6F]
    s.EndsGoodFrame 4 [.byte 0x55, .timeout] ∧ s.receivedStatus = 0x00 :=
  ⟨good_frame (by decide) (by decide) (by decide) (by decide), by decide⟩

theorem witness_WriteAutocleanCompletes :
    let s := closing 7 [0x00, 0x80, 0x00, 0x7F]
    s.EndsGoodFrame 0 [.byte 0x55, .timeout] ∧ s.receivedStatus = 0x00 :=
  ⟨good_frame (by decide) (by decide) (by decide) (by decide), by decide⟩

/-- V135, and V134 for the empty string. -/
theorem witness_DeviceInfoCompletes :
    (let s := closing 8 [0x00, 0xD0, 0x04, 0x41, 0x00, 0x42, 0x00, 0xA8];
      s.EndsGoodFrame 4 [.byte 0x55, .timeout] ∧ s.receivedStatus = 0x00 ∧ 1 < 4 ∧ s.rxpByte 1 = 0x00 ∧
        ∀ j, j < 1 → s.rxpByte j ≠ 0x00) ∧
    (let s := closing 8 [0x00, 0xD0, 0x01, 0x00, 0x2E];
      s.EndsGoodFrame 1 [.byte 0x55, .timeout] ∧ s.rxpByte 0 = 0x00) :=
  ⟨⟨good_frame (by decide) (by decide) (by decide) (by decide), by decide, by decide, by decide, by decide⟩,
    good_frame (by decide) (by decide) (by decide) (by decide), by decide⟩

theorem witness_ReadVersionCompletes :
    let s := closing 9 [0x00, 0xD1, 0x06, 0x02, 0x03, 0x00, 0x07, 0x02, 0x00, 0x1A]
    s.EndsGoodFrame s.cfg.versionLen [.byte 0x55, .timeout] ∧ s.receivedStatus = 0x00 :=
  ⟨good_frame (by decide) (by decide) (by decide) (by decide), by decide⟩

theorem witness_XchgCompletes :
    (closing 11 [0x00, 0xD2, 0x02, 0x7D, 0x01, 0xAD]).EndsGoodFrame 2 [.byte 0x55, .timeout] :=
  good_frame (by decide) (by decide) (by decide) (by decide)

/-- A refusal for each reason, and the boundary that is accepted: nine and ten bytes; V127; V130; V141; V132; V151. -/
theorem witness_ProtocolErrorExactlyOnRefusedResponses :
    (closing 2 [0x00, 0x03, 0x09, 0x00, 0x01, 0x00, 0x02, 0x00, 0x03, 0x00, 0x04, 0x00, 0xE9]).EndsGoodFrame 9
      [.byte 0x55, .timeout] ∧
    (closing 2 [0x00, 0x03, 0x0A, 0x00, 0x01, 0x00, 0x02, 0x00, 0x03, 0x00, 0x04, 0x00, 0x05, 0xE3]).EndsGoodFrame 10
      [.byte 0x55, .timeout] ∧
    (closing 6 [0x00, 0x80, 0x03, 0x00, 0x09, 0x3A, 0x39]).EndsGoodFrame 3 [.byte 0x55, .timeout] ∧
    (closing 7 [0x00, 0x80, 0x01, 0x00, 0x7E]).EndsGoodFrame 1 [.byte 0x55, .timeout] ∧
    (closing 9 [0x00, 0xD1, 0x05, 0x02, 0x03, 0x00, 0x07, 0x02, 0x1B]).EndsGoodFrame 5 [.byte 0x55, .timeout] ∧
    ((closing 8 [0x00, 0xD0, 0x03, 0x41, 0x42, 0x43, 0x66]).EndsGoodFrame 3 [.byte 0x55, .timeout] ∧
      ∀ j, j < 3 → (closing 8 [0x00, 0xD0, 0x03, 0x41, 0x42, 0x43, 0x66]).rxpByte j ≠ 0x00) ∧
    ((closingSix 0 [0x00, 0x00, 0x43, 0x00, 0xBC]).EndsGoodFrame 0 [.byte 0x55, .timeout] ∧
      (closingSix 0 [0x00, 0x00, 0x43, 0x00, 0xBC]).receivedStatus ≠ 0x00) := by
  refine ⟨?_, ?_, ?_, ?_, ?_, ⟨?_, by decide⟩, ⟨?_, by decide⟩⟩
  any_goals exact good_frame (by decide) (by decide) (by decide) (by decide)
  exact ⟨rfl, rfl, rfl, rfl, rfl, rfl, rfl, by decide, by decide, by decide⟩

/-- V90 and V110: `START` with six accepts and its reply; V86, V60, V87 give the errors. -/
theorem witness_OperationComputesExchange :
    let s : State := { going 0 0 with out := { (going 0 0).out with
      txAnswers := List.replicate 6 .accept
      rxEvents := [.byte 0x7E, .byte 0x00, .byte 0x00, .byte 0x00, .byte 0xFF, .byte 0x7E] } }
    s.Inv ∧ s.phase = .idle ∧ decodeSelector s.opnd.op = .ok .start ∧ s.out.inputs = [.write (.go 1)] ∧
    (exchange s.cfg (requestCode s .start) (requestPayload s .start) s.out.txAnswers s.out.rxEvents).result =
      some (.ok ⟨0x00, 0x00, 0x00, []⟩) := by
  refine ⟨?_, rfl, by decide, rfl, by decide⟩
  constructor <;> decide

/-- Every arrow of R120: a `GO`, the closing delimiter, a timeout, a write fault. -/
theorem witness_PhaseMovesOnlyAlongTheArrows :
    seen (step (going 0 0)) (fun t => t.phase) = some .tx ∧
    seen (step (sending { pos := .eof, idx := 4, escp := false, sum := 0x81 } [.accept])) (fun t => t.phase) =
      some .rx ∧
    seen (step (receiving 0 RxMachine.fresh [.timeout])) (fun t => (t.phase, t.done)) = some (.idle, true) ∧
    seen (step (sending TxMachine.fresh [.fault])) (fun t => (t.phase, t.done)) = some (.idle, true) := by decide

theorem witness_FailureKeepsTheResults :
    seen (exec .start (receiving 0 RxMachine.fresh [.timeout])) (fun t => t.err) = some (some .timeoutError) := by decide

/-- A typed result changes: `READ_AUTOCLEAN` of V126; and a step of another operation that changes none. -/
theorem witness_TypedResultsWrittenOnlyByTheirOperation :
    seen (exec .readAutoclean (closing 6 [0x00, 0x80, 0x04, 0x7E, 0x00, 0x7D, 0x11, 0x6F]))
      (fun t => decide (t.typed ≠ idle.typed)) = some true ∧
    seen (exec .writeAutoclean (closing 7 [0x00, 0x80, 0x00, 0x7F])) (fun t => decide (t.typed = idle.typed)) =
      some true := by decide

theorem witness_RawResultsWrittenOnlyByAGoodFrame :
    seen (exec .stop (closing 1 [0x00, 0x01, 0x00, 0xFE])) (fun t => decide (t.raw ≠ idle.raw)) = some true := by decide

theorem witness_OperandsAreConstantInFlight :
    seen (step (sending TxMachine.fresh [.accept])) (fun t => t.phase) = some .tx ∧
    (sending TxMachine.fresh [.accept]).phase ≠ .idle := by decide

theorem witness_StreamsMoveOnlyInTheirPhase :
    seen (step (sending TxMachine.fresh [.accept])) (fun t => (t.out.txOut, t.out.txAnswers)) = some ([0x7E], []) ∧
    seen (step (receiving 0 RxMachine.fresh [.byte 0x7E])) (fun t => t.out.rxEvents) = some [] := by decide

theorem witness_ParametersNeverChange :
    seen (step (going 0 0)) (fun t => t.cfg) = some Config.standard := by decide

theorem witness_ExpectedLengthHasNoEffect :
    seen (exec .xchg (going 11 0)) (fun t => t.phase) = some .tx := by decide

/-- A `GO` step from `idle`; the entry to `RX`; and in `RX` at the closing `FLAG` an `RXB` with another byte above the
body, which agrees below `rx_cnt`, and a step with no byte stored yet, where every `RXB` does. -/
theorem witness_ScratchIsNotReadAcrossOperations :
    (Instr.start.hostInvocable = true ∧ idle.phase = .idle ∧ seen (exec .start idle) (fun t => t.phase) = some .tx) ∧
    ((sending { pos := .eof, idx := 4, escp := false, sum := 0x81 } [.accept]).phase = .tx ∧
      seen (exec .readAutoclean (sending { pos := .eof, idx := 4, escp := false, sum := 0x81 } [.accept]))
        (fun t => t.phase) = some .rx) ∧
    (let s := closing 1 [0x00, 0x01, 0x00, 0xFE];
      s.phase = .rx ∧ s.cfg.valid ∧ s.rx.cnt.toNat = 4 ∧
        (∀ a, a < 4 → State.rxbByte { s with rxb := s.rxb.set 9 0xAA } a = s.rxbByte a) ∧
        s.rxb.set 9 0xAA ≠ s.rxb ∧ seen (exec .stop s) (fun t => t.err) = some none) ∧
    (receiving 11 RxMachine.fresh [.byte 0x7E]).rx.cnt.toNat = 0 := by decide

theorem witness_ResponseEchoIsNotCompared :
    Instr.stop.hostInvocable = true ∧
    (closing 1 [0x00, 0x01, 0x00, 0xFE]).EndsGoodFrame 0 [.byte 0x55, .timeout] ∧
    seen (exec .stop (closing 1 [0x00, 0x01, 0x00, 0xFE])) (fun t => t.err) = some none :=
  ⟨rfl, good_frame (by decide) (by decide) (by decide) (by decide), by decide⟩

theorem witness_InvariantKeptByEveryStep :
    idle.Inv ∧ seen (step idle) (fun t => t.phase) = some .idle ∧
    (sending TxMachine.fresh [.accept]).Inv ∧
    seen (step (sending TxMachine.fresh [.accept])) (fun t => t.tx.pos) = some .body :=
  ⟨idle_inv, by decide, sending_inv _, by decide⟩

end Sys2Proof.Tests
end

section
/-! PROOFS. The invariant: it holds at reset, and every step keeps it. One lemma per way a step moves the machine, each
about the clauses of the invariant that the move touches. -/

namespace Sys2Proof.Machine

/-! ### States in which only some clauses matter -/

/-- In IDLE the invariant asks for valid parameters and sound buffers only: every other clause is about a busy phase. -/
theorem inv_of_idle {s : State} (hp : s.phase = .idle) (hc : s.cfg.valid)
    (htxp : s.txp.wf = true ∧ s.txp.fits 256 = true) (hrxb : s.rxb.wf = true ∧ s.rxb.fits s.cfg.maxBody = true)
    (hstr : s.str.wf = true ∧ s.str.fits 255 = true) : s.Inv := by
  refine ⟨hc, htxp, hrxb, hstr, ?_, ?_, ?_, ?_, ?_, ?_, ?_, ?_, ?_, ?_, ?_⟩ <;> simp [hp]

/-- No clause of the invariant speaks of the outside. -/
theorem State.Inv.withOut {s : State} (h : s.Inv) (o : Outside) : State.Inv { s with out := o } :=
  ⟨h.cfg, h.txp, h.rxb, h.str, h.flags, h.captured, h.txStart, h.txBody, h.txEscape, h.txEnd, h.rxOpen, h.rxFirst,
    h.rxLead, h.rxCount, h.rxSum⟩

/-! ### The `GO` step -/

/-- The entry to `TX`: the transmit machine is fresh and the captured operation and length are in range (R121). -/
theorem State.Inv.enterTx {s : State} (h : s.Inv) {c : Captured} {payload : List Byte} (hop : c.op.toNat ≤ 11)
    (hlen : c.len.toNat ≤ maxPayload) (hn : payload.length ≤ 5) :
    State.Inv { s with
      done := false, err := none, cap := c, txp := s.txp.setAll 0 payload, phase := .tx, tx := TxMachine.fresh } where
  cfg := h.cfg
  txp := ⟨Memory.wf_setAll h.txp.1 0 payload, Memory.fits_setAll h.txp.2 0 payload (by omega)⟩
  rxb := h.rxb
  str := h.str
  flags := fun _ => ⟨rfl, rfl⟩
  captured := fun _ => ⟨hop, hlen⟩
  txStart := fun _ _ => rfl
  txBody := by simp [TxMachine.fresh]
  txEscape := by simp [TxMachine.fresh]
  txEnd := by simp [TxMachine.fresh]
  rxOpen := by simp
  rxFirst := by simp
  rxLead := by simp
  rxCount := by simp
  rxSum := by simp

/-! ### The transmit machine -/

/-- In `TX` the invariant is kept by a move of the transmit machine that meets its four clauses. -/
theorem State.Inv.withTx {s : State} (h : s.Inv) (hp : s.phase = .tx) {tx : TxMachine} (o : Outside)
    (hstart : tx.pos = .sof → tx = TxMachine.fresh)
    (hbody : tx.pos = .body →
      tx.idx.toNat ≤ 3 + s.cap.len.toNat ∧ tx.sum = sum8 (s.capturedHead.take tx.idx.toNat))
    (hescape : tx.escp = true → tx.pos = .body ∧ isReserved s.cfg (curByte { s with tx := tx }) = true)
    (hend : tx.pos = .eof → tx.escp = false) : State.Inv { s with tx := tx, out := o } := by
  refine ⟨h.cfg, h.txp, h.rxb, h.str, h.flags, h.captured, fun _ => hstart, fun _ => hbody, fun _ => hescape,
    fun _ => hend, ?_, ?_, ?_, ?_, ?_⟩ <;> simp [hp]

/-- `tx_sum` after one more byte is the sum of one byte more of the captured head (R123). -/
theorem add8_curByte {s : State} (hi : s.tx.idx.toNat < 3 + s.cap.len.toNat)
    (hs : s.tx.sum = sum8 (s.capturedHead.take s.tx.idx.toNat)) :
    add8 s.tx.sum (curByte s) = sum8 (s.capturedHead.take (s.tx.idx.toNat + 1)) := by
  rw [List.take_add_one, capturedHead_at s hi, sum8_append, ← hs]
  simp [sum8_cons, add8]

/-- An accepted byte that does not end the frame keeps the invariant (R122, R123). -/
theorem State.Inv.txMove {s : State} (h : s.Inv) (hp : s.phase = .tx) {tx : TxMachine} (hm : TxMove s tx)
    (o : Outside) : State.Inv { s with tx := tx, out := o } := by
  cases hm with
  | opening hpos =>
    have fresh := h.txStart hp hpos
    apply h.withTx hp <;> simp [fresh, TxMachine.fresh]
  | escape hpos he =>
    have hres : isReserved s.cfg (curByte s) = true := by
      simp only [needsEscape, Bool.and_eq_true] at he
      exact he.2
    apply h.withTx hp
    · simp [hpos]
    · exact h.txBody hp
    · exact fun _ => ⟨hpos, hres⟩
    · simp [hpos]
  | next hpos he hi =>
    have hlen : s.cap.len.toNat ≤ 255 := (h.captured (by simp [hp])).2
    have hidx : (s.tx.idx + 1).toNat = s.tx.idx.toNat + 1 := by
      rw [BitVec.toNat_add]
      simp
      omega
    apply h.withTx hp
    · simp [hpos]
    · intro _
      simp only [hidx]
      exact ⟨by omega, add8_curByte hi (h.txBody hp hpos).2⟩
    · simp
    · simp
  | last hpos he hi => apply h.withTx hp <;> simp

/-! ### The receive machine -/

/-- The entry to `RX`: the receive machine is fresh (R124). -/
theorem State.Inv.enterRx {s : State} (h : s.Inv) (hp : s.phase = .tx) (o : Outside) :
    State.Inv { s with phase := .rx, rx := RxMachine.fresh, out := o } where
  cfg := h.cfg
  txp := h.txp
  rxb := h.rxb
  str := h.str
  flags := fun _ => h.flags (by simp [hp])
  captured := fun _ => h.captured (by simp [hp])
  txStart := by simp
  txBody := by simp
  txEscape := by simp
  txEnd := by simp
  rxOpen := by simp [RxMachine.fresh]
  rxFirst := fun _ _ => rfl
  rxLead := by simp [RxMachine.fresh]
  rxCount := by simp [RxMachine.fresh]
  rxSum := by simp [RxMachine.fresh]

/-- A received byte that pushes nothing leaves the count and the sum, has been the first or a later one, and leaves
`rx_flags` as the invariant asks for (R125). -/
theorem RxMove.clauses {s : State} {b : Byte} {rx : RxMachine} (hm : RxMove s b rx) (h : s.Inv) (hp : s.phase = .rx) :
    rx.cnt = s.rx.cnt ∧ rx.sum = s.rx.sum ∧ rx.any = true ∧ rx.flags ≠ .two ∧
    (rx.leadBad = false → rx.flags = .one) := by
  cases hm with
  | opening ha hb => simp
  | badLead ha hb => simp [h.rxOpen hp]
  | lateFlag ha hb hf => simp [ha]
  | badEscape ha hb hl hf he hc => simp [ha, hf]
  | escape ha hb hl hf he hc => simp [ha, hf]
  | dropped ha hb hl => exact ⟨rfl, rfl, ha, h.rxOpen hp, h.rxLead hp ha⟩

/-- A received byte that pushes nothing keeps the invariant. -/
theorem State.Inv.rxMove {s : State} (h : s.Inv) (hp : s.phase = .rx) {b : Byte} {rx : RxMachine} (hm : RxMove s b rx)
    (o : Outside) : State.Inv { s with rx := rx, out := o } := by
  obtain ⟨hcnt, hsum, hany, hopen, hlead⟩ := hm.clauses h hp
  refine ⟨h.cfg, h.txp, h.rxb, h.str, h.flags, h.captured, ?_, ?_, ?_, ?_, fun _ => hopen, ?_, fun _ _ => hlead, ?_, ?_⟩
  · simp [hp]
  · simp [hp]
  · simp [hp]
  · simp [hp]
  · simp [hany]
  · rw [hcnt]
    exact h.rxCount
  · rw [hcnt, hsum]
    exact h.rxSum

/-- `rx_cnt` counts one body byte more and saturates at `MAX_BODY + 1` (R39, R125). -/
theorem countBody_toNat (c : Config) (n : BitVec 9) : (countBody c n).toNat = min (n.toNat + 1) (c.maxBody + 1) := by
  have := maxBody_lt c
  unfold countBody
  split
  · rw [BitVec.toNat_add]
    simp
    omega
  · simp
    omega

/-- A push leaves the bytes below `rx_cnt` as they are. -/
theorem rxbByte_rxPush_below {s : State} {a : Nat} (ha : a < s.rx.cnt.toNat) (v : Byte) :
    (rxPush v s).rxbByte a = s.rxbByte a := by
  unfold State.rxbByte
  rw [rxPush_rxb]
  split
  · rw [Memory.get?_set_other _ _ (by omega)]
  · rfl

/-- The bytes counted after a push that fits are those counted before and the byte pushed. -/
theorem sum8_rxPush {s : State} (hfit : s.rx.cnt.toNat < s.cfg.maxBody) (v : Byte) :
    sum8 ((List.range (s.rx.cnt.toNat + 1)).map (rxPush v s).rxbByte) =
      add8 (sum8 ((List.range s.rx.cnt.toNat).map s.rxbByte)) v := by
  have hold : (List.range s.rx.cnt.toNat).map (rxPush v s).rxbByte = (List.range s.rx.cnt.toNat).map s.rxbByte :=
    List.map_congr_left fun a ha => rxbByte_rxPush_below (List.mem_range.mp ha) v
  have hnew : (rxPush v s).rxbByte s.rx.cnt.toNat = v := by
    simp [State.rxbByte, hfit]
  rw [List.range_succ, List.map_append, hold, sum8_append]
  simp [hnew, sum8_cons, add8]

/-- A body byte keeps the invariant: it is stored while it fits, always counted and summed (R125). -/
theorem State.Inv.rxPush {s : State} (h : s.Inv) (hp : s.phase = .rx) (hany : s.rx.any = true)
    (hfl : s.rx.flags = .one) (v : Byte) : (Machine.rxPush v s).Inv where
  cfg := h.cfg
  txp := h.txp
  rxb := by
    rw [rxPush_rxb]
    split
    · rename_i hfit
      exact ⟨Memory.wf_set h.rxb.1 _ v, Memory.fits_set h.rxb.2 hfit v⟩
    · exact h.rxb
  str := h.str
  flags := h.flags
  captured := h.captured
  txStart := by simp [hp]
  txBody := by simp [hp]
  txEscape := by simp [hp]
  txEnd := by simp [hp]
  rxOpen := by simp [hfl]
  rxFirst := by simp [hany]
  rxLead := by simp [hfl]
  rxCount := by
    intro _
    obtain ⟨_, hstored⟩ := h.rxCount hp
    simp only [rxPush_rx, rxPush_cfg, rxPush_rxb, countBody_toNat]
    refine ⟨by omega, fun a ha hm => ?_⟩
    split
    · by_cases hx : a = s.rx.cnt.toNat
      · simp [hx]
      · rw [Memory.get?_set_other _ _ hx]
        exact hstored a (by omega) hm
    · exact hstored a (by omega) hm
  rxSum := by
    intro _ hle
    simp only [rxPush_rx, rxPush_cfg, countBody_toNat] at hle ⊢
    have hfit : s.rx.cnt.toNat < s.cfg.maxBody := by omega
    rw [show min (s.rx.cnt.toNat + 1) (s.cfg.maxBody + 1) = s.rx.cnt.toNat + 1 by omega, sum8_rxPush hfit,
      h.rxSum hp (by omega)]

/-! ### The post-processing -/

/-- The post-processing keeps `STR` sound: `DEVICE_INFO` copies at most `R_LEN` bytes (R150, R153). -/
theorem postOf_str_sound {i : Instr} (hi : i.hostInvocable = true) {s : State}
    (h : s.str.wf = true ∧ s.str.fits 255 = true) :
    (postOf i s).str.wf = true ∧ (postOf i s).str.fits 255 = true := by
  rcases postOf_results hi s with ⟨_, e⟩ | ⟨_, ⟨_, e⟩ | ⟨_, e⟩ | ⟨_, e⟩ | ⟨_, z, hz, e⟩⟩
  · exact e ▸ h
  · exact e ▸ h
  · exact e ▸ h
  · exact e ▸ h
  · have hlt := (terminator_eq_some.mp hz).1
    have hlen := s.raw.len.isLt
    rw [e, finish_str, extractString_of_terminator hz]
    exact ⟨Memory.wf_setAll h.1 0 _, Memory.fits_setAll h.2 0 _ (by simp [State.rxpBytes]; omega)⟩

/-- The end of a good frame keeps the invariant: the operation is over, the buffers stay sound. -/
theorem State.Inv.goodEnd {s : State} (h : s.Inv) {i : Instr} (hi : i.hostInvocable = true) (rest : List RxEvent) :
    (postOf i (atEnd s rest)).Inv := by
  obtain ⟨hcfg, _, htxp, hrxb, _, _, _, _, _, hphase, _⟩ := postOf_frame hi (atEnd s rest)
  refine inv_of_idle hphase ?_ ?_ ?_ (postOf_str_sound hi h.str)
  · rw [hcfg]
    exact h.cfg
  · rw [htxp]
    exact h.txp
  · rw [hrxb, hcfg]
    exact h.rxb

/-! ### Every step -/

/-- The selector of an operation is at most 11 (R85). -/
theorem selector_le {i : Instr} {op : BitVec 4} (h : i.selector = some op) : op.toNat ≤ 11 := by
  cases i <;> simp [Instr.selector] at h <;> subst h <;> decide

/-- Every step of an operation keeps the invariant. -/
theorem OpStep.keeps_inv {i : Instr} {s t : State} (hst : OpStep i s t) (h : s.Inv) : t.Inv := by
  cases hst with
  | unit hi e d ht => exact ht ▸ h.withOut _
  | goRefused hi hp hl c ht => exact ht ▸ inv_of_idle rfl h.cfg h.txp h.rxb h.str
  | go hi hp hx c payload hc hl hn ht => exact ht ▸ h.enterTx (selector_le hc) hl hn
  | waits hq ht => exact ht ▸ h
  | txFault hp rest ha ht => exact ht ▸ inv_of_idle rfl h.cfg h.txp h.rxb h.str
  | txByte hi hp rest ha tx hm ht => exact ht ▸ h.txMove hp hm _
  | txEnd hi hp hpos rest ha ht => exact ht ▸ h.enterRx hp _
  | rxFail hp ev rest ha e h1 h2 rx ht => exact ht ▸ inv_of_idle rfl h.cfg h.txp h.rxb h.str
  | rxGood hi hp rest ha hany hlead hferr hesc hsum hcnt ht => exact ht ▸ h.goodEnd hi rest
  | rxByte hi hp b rest ha rx hm ht => exact ht ▸ h.rxMove hp hm _
  | rxPush hi hp b v rest ha hb hany hlead hfl ht =>
    have hesc : State.Inv { s with rx := { s.rx with esc := false }, out := { s.out with rxEvents := rest } } := by
      refine ⟨h.cfg, h.txp, h.rxb, h.str, h.flags, h.captured, h.txStart, h.txBody, h.txEscape, h.txEnd, h.rxOpen, ?_,
        h.rxLead, h.rxCount, h.rxSum⟩
      simp [hany]
    exact ht ▸ hesc.rxPush hp hany hfl v

/-- A host write in IDLE keeps the invariant: a `TXP` index is below 256 (R60). -/
theorem State.Inv.applyWrite {s : State} (h : s.Inv) (hp : s.phase = .idle) (w : HostWrite) :
    (Machine.applyWrite w s).Inv := by
  cases w with
  | txp k v => exact inv_of_idle hp h.cfg ⟨Memory.wf_set h.txp.1 _ v, Memory.fits_set h.txp.2 k.isLt v⟩ h.rxb h.str
  | _ => exact inv_of_idle hp h.cfg h.txp h.rxb h.str

/-- Settles O59: every way the machine takes a step keeps the invariant. -/
theorem invariantKeptByEveryStep : Obligations.InvariantKeptByEveryStep := by
  intro s t h hst
  have hin : ∀ is, (s.withInputs is).Inv := fun is => h.withOut _
  rcases step_cases hst with ⟨is, rfl⟩ | ⟨is, i, _, _, e⟩ | ⟨is, i, _, _, e⟩ | ⟨is, w, hp, rfl⟩ | ⟨is, r, rfl⟩ |
    ⟨is, _, rfl⟩ | ⟨is, u, e⟩
  · exact hin is
  · exact (exec_opStep e).keeps_inv (hin is)
  · exact (exec_opStep e).keeps_inv (hin is)
  · exact (hin is).applyWrite hp w
  · obtain ⟨d, n, e⟩ := hostRead_frame r (s.withInputs is)
    exact e ▸ (hin is).withOut _
  · exact inv_of_idle rfl h.cfg (by simp) (by simp) (by simp)
  · exact (exec_opStep e).keeps_inv (hin is)

/-- Settles O58: after reset the block is idle, the default parameters are valid, and the buffers list nothing. -/
theorem invariantHoldsAtReset : Obligations.InvariantHoldsAtReset :=
  inv_of_idle rfl (by decide : Config.standard.valid) ⟨rfl, rfl⟩ ⟨rfl, rfl⟩ ⟨rfl, rfl⟩

end Sys2Proof.Machine
end

section
/-! PROOFS. What a step of an operation leaves: the parameters in every step, the operands in flight, the results in
every step but the closing `FLAG` of a good frame. -/

namespace Sys2Proof.Machine

/-! ### Parameters and operands -/

/-- No step of an operation writes the parameters (R40). -/
theorem OpStep.cfg_eq {i : Instr} {s t : State} (hst : OpStep i s t) : t.cfg = s.cfg := by
  cases hst with
  | rxGood hi hp rest ha hany hlead hferr hesc hsum hcnt ht => exact ht ▸ (postOf_frame hi (atEnd s rest)).1
  | unit | goRefused | go | waits | txFault | txByte | txEnd | rxFail | rxByte | rxPush => subst t; rfl

/-- Settles O54: no operation, host access or reset event writes the parameters. -/
theorem parametersNeverChange : Obligations.ParametersNeverChange := by
  intro s t hst
  rcases step_cases hst with ⟨is, rfl⟩ | ⟨is, i, _, _, e⟩ | ⟨is, i, _, _, e⟩ | ⟨is, w, _, rfl⟩ | ⟨is, r, rfl⟩ |
    ⟨is, _, rfl⟩ | ⟨is, u, e⟩
  · rfl
  · exact (exec_opStep e).cfg_eq
  · exact (exec_opStep e).cfg_eq
  · exact (applyWrite_frame w _).1
  · obtain ⟨d, n, e⟩ := hostRead_frame r (s.withInputs is)
    rw [e]
    rfl
  · rfl
  · exact (exec_opStep e).cfg_eq

/-- Outside its `GO` step an operation writes no operand, captured or not, and no byte of `TXP` (R37, R62). -/
theorem OpStep.operands_eq {i : Instr} {s t : State} (hst : OpStep i s t) (hbusy : s.phase ≠ .idle) :
    t.cap = s.cap ∧ t.opnd = s.opnd ∧ t.txp = s.txp := by
  cases hst with
  | goRefused _ hp | go _ hp => exact absurd hp hbusy
  | rxGood hi hp rest ha hany hlead hferr hesc hsum hcnt ht =>
    obtain ⟨_, hopnd, htxp, _, _, hcap, _⟩ := postOf_frame hi (atEnd s rest)
    exact ht ▸ ⟨hcap, hopnd, htxp⟩
  | unit | waits | txFault | txByte | txEnd | rxFail | rxByte | rxPush => subst t; exact ⟨rfl, rfl, rfl⟩

/-- Settles O52: in flight only the operation in flight, a host read and a function unit can move the machine, and none
of them writes an operand. -/
theorem operandsAreConstantInFlight : Obligations.OperandsAreConstantInFlight := by
  intro s t hst hs ht
  suffices h : t.cap = s.cap ∧ t.opnd = s.opnd ∧ t.txp = s.txp by
    obtain ⟨hcap, hopnd, htxp⟩ := h
    exact ⟨hcap, hopnd, fun a => by rw [State.txpByte, htxp, State.txpByte]⟩
  rcases step_cases hst with ⟨is, rfl⟩ | ⟨is, i, _, _, e⟩ | ⟨is, i, hp, _, _⟩ | ⟨is, w, hp, _⟩ | ⟨is, r, rfl⟩ |
    ⟨is, _, rfl⟩ | ⟨is, u, e⟩
  · exact ⟨rfl, rfl, rfl⟩
  · exact (exec_opStep e).operands_eq hs
  · exact absurd hp hs
  · exact absurd hp hs
  · obtain ⟨d, n, e⟩ := hostRead_frame r (s.withInputs is)
    rw [e]
    exact ⟨rfl, rfl, rfl⟩
  · exact absurd rfl ht
  · exact (exec_opStep e).operands_eq hs

/-! ### Results -/

/-- The receive machine of a frame that passes every check of `decode` (R127), its closing `FLAG` the next event. -/
structure State.ClosesGoodFrame (s : State) (rest : List RxEvent) : Prop where
  phase : s.phase = .rx
  event : s.out.rxEvents = .byte s.cfg.flag :: rest
  any : s.rx.any = true
  lead : s.rx.leadBad = false
  esc : s.rx.esc = false
  ferr : s.rx.ferr = false
  sum : s.rx.sum = 0xFF
  cnt : s.rx.cnt.toNat = s.cfg.headerLen + 1 + (s.rxbByte (s.cfg.headerLen - 1)).toNat

/-- A step of an operation leaves every result register and `STR`, or it is the post-processing of a good frame. -/
theorem OpStep.results_eq_or_good {i : Instr} {s t : State} (hst : OpStep i s t) :
    (t.raw = s.raw ∧ t.typed = s.typed ∧ t.str = s.str) ∨
    ∃ rest, i.hostInvocable = true ∧ s.ClosesGoodFrame rest ∧ t = postOf i (atEnd s rest) := by
  cases hst with
  | rxGood hi hp rest ha hany hlead hferr hesc hsum hcnt ht =>
    exact .inr ⟨rest, hi, ⟨hp, ha, hany, hlead, hesc, hferr, hsum, hcnt⟩, ht⟩
  | unit | goRefused | go | waits | txFault | txByte | txEnd | rxFail | rxByte | rxPush =>
    subst t
    exact .inl ⟨rfl, rfl, rfl⟩

/-- Settles O51: a raw register that changes was written at the end of a good frame, with the frame's bytes. -/
theorem rawResultsWrittenOnlyByAGoodFrame : Obligations.RawResultsWrittenOnlyByAGoodFrame := by
  intro s t i h hne
  rcases (exec_opStep h).results_eq_or_good with ⟨hraw, _⟩ | ⟨rest, hi, g, rfl⟩
  · exact absurd hraw hne
  · obtain ⟨_, _, _, _, hraw, _⟩ := postOf_frame hi (atEnd s rest)
    exact ⟨g.phase, hraw, _, rest, g.event, rfl, g.any, g.lead, g.esc, g.ferr, g.sum, g.cnt⟩

/-- What one operation's success may write of the typed results: the registers of the other operations stay. -/
def othersTypedKept (i : Instr) (s t : State) : Prop :=
  (i ≠ .readMeasurement → t.typed.pm1_0 = s.typed.pm1_0 ∧ t.typed.pm2_5 = s.typed.pm2_5 ∧
    t.typed.pm4_0 = s.typed.pm4_0 ∧ t.typed.pm10 = s.typed.pm10 ∧ t.typed.psize = s.typed.psize) ∧
  (i ≠ .readAutoclean → t.typed.aci = s.typed.aci) ∧
  (i ≠ .readVersion → t.typed.fwVer = s.typed.fwVer ∧ t.typed.hwVer = s.typed.hwVer ∧
    t.typed.shdlcVer = s.typed.shdlcVer) ∧
  (i ≠ .deviceInfo → t.typed.strLen = s.typed.strLen ∧ ∀ a, t.strByte a = s.strByte a)

theorem othersTypedKept_of_eq {i : Instr} {s t : State} (ht : t.typed = s.typed) (hs : t.str = s.str) :
    othersTypedKept i s t := by
  simp [othersTypedKept, ht, State.strByte, hs]

/-- Each extraction writes the registers of its own operation only (R34, R35). -/
theorem postOf_othersTypedKept {i : Instr} (hi : i.hostInvocable = true) (s : State) :
    othersTypedKept i s (postOf i s) := by
  rcases postOf_results hi s with ⟨ht, hs⟩ | ⟨_, ⟨rfl, e⟩ | ⟨rfl, e⟩ | ⟨rfl, e⟩ | ⟨rfl, z, hz, e⟩⟩
  · exact othersTypedKept_of_eq ht hs
  · simp [othersTypedKept, e, State.strByte]
  · simp [othersTypedKept, e, State.strByte]
  · simp [othersTypedKept, e, State.strByte]
  · simp [othersTypedKept, e, extractString_of_terminator hz]

/-- Settles O50: outside the end of a good frame no typed result changes, there only the operation's own, and only when
its checks pass. -/
theorem typedResultsWrittenOnlyByTheirOperation : Obligations.TypedResultsWrittenOnlyByTheirOperation := by
  intro s t i h
  suffices goal : othersTypedKept i s t ∧
      (t.typed ≠ s.typed ∨ (∃ a, t.strByte a ≠ s.strByte a) → s.phase = .rx ∧ endedWith t none) by
    obtain ⟨⟨h1, h2, h3, h4⟩, h5⟩ := goal
    exact ⟨h1, h2, h3, h4, h5⟩
  have unchanged : t.typed = s.typed → t.str = s.str → ¬ (t.typed ≠ s.typed ∨ ∃ a, t.strByte a ≠ s.strByte a) := by
    intro ht hs
    simp [ht, State.strByte, hs]
  rcases (exec_opStep h).results_eq_or_good with ⟨_, ht, hs⟩ | ⟨rest, hi, g, rfl⟩
  · exact ⟨othersTypedKept_of_eq ht hs, fun hc => absurd hc (unchanged ht hs)⟩
  · refine ⟨postOf_othersTypedKept hi (atEnd s rest), fun hc => ⟨g.phase, ?_⟩⟩
    obtain ⟨_, _, _, _, _, _, _, _, _, hphase, hdone, _⟩ := postOf_frame hi (atEnd s rest)
    rcases postOf_results hi (atEnd s rest) with ⟨ht, hs⟩ | ⟨herr, _⟩
    · exact absurd hc (unchanged ht hs)
    · exact ⟨hphase, hdone, herr⟩

/-! ### `ARG_EXPLEN` -/

/-- The state with another value in `ARG_EXPLEN`. -/
def State.withExplen (v : BitVec 9) (s : State) : State := { s with opnd := { s.opnd with argExplen := v } }

/-- A function of the state that neither reads nor writes `ARG_EXPLEN`. -/
def ignoresExplen (f : State → State) : Prop := ∀ v s, f (s.withExplen v) = (f s).withExplen v

/-- Such a function takes states that differ in `ARG_EXPLEN` only to states that differ so. -/
theorem ignoresExplen.apply {f : State → State} (hf : ignoresExplen f) {v : BitVec 9} {a x : State}
    (h : a = x.withExplen v) : f a = (f x).withExplen v := h ▸ hf v x

/-- Two branches that differ in `ARG_EXPLEN` only, chosen by one condition. -/
theorem ite_withExplen {c : Prop} [Decidable c] {v : BitVec 9} {a b x y : State} (hx : a = x.withExplen v)
    (hy : b = y.withExplen v) : (if c then a else b) = (if c then x else y).withExplen v := by
  split
  · exact hx
  · exact hy

theorem goStep_withExplen (sel : BitVec 4) (cmd : Byte) (len : BitVec 9) (txp : Memory) (v : BitVec 9) (s : State) :
    goStep sel cmd len txp (s.withExplen v) = (goStep sel cmd len txp s).withExplen v :=
  ite_withExplen rfl rfl

theorem goTyped_ignoresExplen (sel : BitVec 4) (cmd : Byte) (payload : List Byte) :
    ignoresExplen (goTyped sel cmd payload) :=
  fun v s => goStep_withExplen _ _ _ (s.txp.setAll 0 payload) v s

theorem goOf_ignoresExplen (i : Instr) : ignoresExplen (goOf i) := by
  intro v s
  cases i with
  | encode | decode => rfl
  | xchg => exact goStep_withExplen _ _ _ s.txp v s
  | _ =>
    simp only [goOf]
    exact goTyped_ignoresExplen _ _ _ v s

theorem txAdvance_ignoresExplen : ignoresExplen txAdvance := by
  intro v s
  have same : (s.withExplen v).tx.pos = s.tx.pos := rfl
  unfold txAdvance
  rw [same]
  cases s.tx.pos with
  | sof => rfl
  | body => exact ite_withExplen rfl (ite_withExplen rfl rfl)
  | eof => rfl

theorem txStep_ignoresExplen : ignoresExplen txStep := by
  intro v s
  have same : (s.withExplen v).out.txAnswers = s.out.txAnswers := rfl
  unfold txStep
  rw [same]
  rcases s.out.txAnswers with _ | ⟨_ | _, rest⟩
  · rfl
  · exact txAdvance_ignoresExplen.apply rfl
  · rfl

theorem evaluate_ignoresExplen {post : State → State} (h : ignoresExplen post) : ignoresExplen (evaluate post) :=
  fun _ _ => ite_withExplen rfl <| ite_withExplen rfl <| ite_withExplen rfl <| ite_withExplen rfl <|
    ite_withExplen rfl <| ite_withExplen rfl (h.apply rfl)

theorem rxByte_ignoresExplen {post : State → State} (h : ignoresExplen post) (b : Byte) :
    ignoresExplen (rxByte post b) :=
  fun _ _ => ite_withExplen (ite_withExplen rfl rfl) <|
    ite_withExplen (ite_withExplen ((evaluate_ignoresExplen h).apply rfl) rfl) <|
    ite_withExplen (ite_withExplen (ite_withExplen rfl rfl) (ite_withExplen rfl rfl)) rfl

theorem rxStep_ignoresExplen {post : State → State} (h : ignoresExplen post) : ignoresExplen (rxStep post) := by
  intro v s
  have same : (s.withExplen v).out.rxEvents = s.out.rxEvents := rfl
  unfold rxStep
  rw [same]
  rcases s.out.rxEvents with _ | ⟨b | _ | _, rest⟩
  · rfl
  · exact (rxByte_ignoresExplen h b).apply rfl
  · rfl
  · rfl

theorem extractString_ignoresExplen : ignoresExplen extractString := by
  intro v s
  have same : (s.withExplen v).terminator = s.terminator := rfl
  unfold extractString
  rw [same]
  cases s.terminator <;> rfl

theorem typedPost_ignoresExplen {accepts : State → Bool} {extract : State → State}
    (ha : ∀ v s, accepts (State.withExplen v s) = accepts s) (he : ignoresExplen extract) :
    ignoresExplen (typedPost accepts extract) := by
  intro v s
  unfold typedPost
  rw [ha, he]
  exact ite_withExplen rfl (ite_withExplen rfl rfl)

theorem postOf_ignoresExplen (i : Instr) : ignoresExplen (postOf i) := by
  cases i with
  | encode | decode | xchg => exact fun _ _ => rfl
  | deviceInfo => exact typedPost_ignoresExplen (fun _ _ => rfl) extractString_ignoresExplen
  | _ => exact typedPost_ignoresExplen (fun _ _ => rfl) (fun _ _ => rfl)

/-- Settles O55: the build, the machines and the post-processing ignore `ARG_EXPLEN`, and so do the function units. -/
theorem expectedLengthHasNoEffect : Obligations.ExpectedLengthHasNoEffect := by
  intro s t i v h
  change exec i (s.withExplen v) = .next (t.withExplen v)
  by_cases hi : i.hostInvocable = true
  · have same : (s.withExplen v).phase = s.phase := rfl
    rw [exec_eq_runOperation hi] at h ⊢
    unfold runOperation at h ⊢
    rw [same]
    cases hp : s.phase <;> rw [hp] at h <;> cases h
    · exact congrArg _ (goOf_ignoresExplen i v s)
    · exact congrArg _ (txStep_ignoresExplen v s)
    · exact congrArg _ (rxStep_ignoresExplen (postOf_ignoresExplen i) v s)
  · cases i with
    | encode | decode => cases h; rfl
    | _ => exact absurd rfl hi

end Sys2Proof.Machine
end

section
/-! PROOFS. What the host sees: its writes while `BUSY` = 0, the control bits, the window `RXP`, the state after
reset. -/

namespace Sys2Proof.Machine

/-! ### Writes -/

/-- A host write at the front of the inputs is the next thing that happens. -/
theorem step_write {s : State} {w : HostWrite} {rest : List Input} (h : s.out.inputs = .write w :: rest) :
    step s = hostWrite w (s.withInputs rest) := by
  simp only [step, nextStep, h, takeInput]

/-- While `BUSY` = 0 a write to an operand register or to `TXP` completes (R44). -/
theorem hostWrite_idle {w : HostWrite} (hw : ∀ v, w ≠ .go v) {s : State} (hs : s.busy = false) :
    hostWrite w s = .next (applyWrite w s) := by
  cases w with
  | go v => exact absurd rfl (hw v)
  | _ => simp [hostWrite, hs]

/-- `TXP` after a write of one byte: the byte written there, every other byte as it was. -/
theorem txpByte_applyWrite (k : Fin 256) (v : Byte) (s : State) (a : Nat) :
    (applyWrite (.txp k v) s).txpByte a = if a = k.val then v else s.txpByte a := by
  simp only [State.txpByte, applyWrite, Memory.get?_set]
  split <;> rfl

/-- After a write of one `TXP` byte every readable place but that byte holds what it held. -/
theorem content_applyWrite_txp (k : Fin 256) (v : Byte) (s : State) (r : HostReg) :
    (applyWrite (.txp k v) s).content r = if r = .txp k then v.setWidth 32 else s.content r := by
  cases r with
  | txp j => by_cases hj : j = k <;> simp [State.content, txpByte_applyWrite, hj, Fin.val_inj]
  | _ => rfl

/-- Settles O20: a write while `BUSY` = 0 is `applyWrite`, which sets the place it names and keeps the rest. -/
theorem hostWriteSetsOnePlace : Obligations.HostWriteSetsOnePlace := by
  refine ⟨fun s rest h => (step_write h).trans rfl, fun s w rest hs h hw => ?_⟩
  refine ⟨applyWrite w (s.withInputs rest), (step_write h).trans (hostWrite_idle hw hs), fun r => ?_,
    applyWrite_frame w (s.withInputs rest)⟩
  cases w with
  | txp k v => exact content_applyWrite_txp k v (s.withInputs rest) r
  | _ => cases r <;> rfl

/-! ### Control bits and `RXP` -/

/-- `BUSY` is a view of `PHASE` (R36). -/
theorem busy_eq_false_iff (s : State) : s.busy = false ↔ s.phase = .idle := by simp [State.busy]

theorem busy_eq_true_iff (s : State) : s.busy = true ↔ s.phase ≠ .idle := by simp [State.busy]

theorem content_busy (s : State) : s.content .busy = if s.phase = .idle then 0 else 1 := by
  by_cases h : s.phase = .idle <;> simp [State.content, State.busy, h]

/-- Settles O22: each control bit by its definition; while busy the invariant says that `DONE` and `ERR` are 0. -/
theorem controlBitsReadAtAnyTime : Obligations.ControlBitsReadAtAnyTime := by
  refine ⟨fun s => ⟨rfl, rfl, rfl, rfl, rfl, content_busy s, rfl, ?_⟩, fun s h hs => ?_⟩
  · rcases he : s.err with _ | _ | _ <;> simp [State.content, he, errCode, ErrKind.code]
  · have hp := (busy_eq_true_iff s).mp hs
    obtain ⟨hdone, herr⟩ := h.flags hp
    simp [State.content, hs, hdone, herr, errCode]

/-- Settles O23: `RXP` is a view of `RXB`, defined by the conditions of R31 and R33. -/
theorem rxpIsAWindowOntoRxb : Obligations.RxpIsAWindowOntoRxb := by
  refine fun s i => ⟨rfl, ?_⟩
  simp only [State.readDefined, State.rxpDefined, Bool.and_eq_true, Bool.or_eq_true, Bool.not_eq_true', beq_iff_eq,
    decide_eq_true_eq, and_assoc]

/-! ### Reset -/

/-- An idle block with `OP` = 0 runs `START` on a write of 1 to `GO` (R121, R204). -/
theorem step_go_start {s : State} {rest : List Input} (hp : s.phase = .idle) (hop : s.opnd.op = 0)
    (h : s.out.inputs = .write (.go 1) :: rest) : step s = exec .start (s.withInputs rest) := by
  have hs : (s.withInputs rest).busy = false := (busy_eq_false_iff _).mpr hp
  rw [step_write h]
  simp [hostWrite, hostGo, hs, hop, decodeSelector]

/-- Settles O24: every value the reset state states, and its first `GO`, which is a `START`. -/
theorem resetLeavesTheStatedValues : Obligations.ResetLeavesTheStatedValues := by
  refine ⟨rfl, rfl, rfl, rfl, rfl, fun a => ⟨rfl, rfl, rfl⟩, rfl, rfl, ?_⟩
  have hexec := (exec_by_phase (i := .start) rfl State.reset).1 rfl
  refine ⟨goOf .start State.reset, ?_, hexec, ?_⟩
  · exact (step_go_start rfl rfl rfl).trans hexec
  · have hgo := goTyped_eq 0 Config.ccStart [] (by decide) State.reset
    rw [show goOf .start State.reset = _ from hgo]
    exact ⟨rfl, rfl, rfl, rfl⟩

end Sys2Proof.Machine
end

section
/-! PROOFS. What a host read answers and leaves unchanged. -/

namespace Sys2Proof.Machine

/-- A host read at the front of the inputs is the next thing that happens. -/
theorem step_read {s : State} {r : HostReg} {rest : List Input} (h : s.out.inputs = .read r :: rest) :
    step s = .next (hostRead r (s.withInputs rest)) := by
  simp only [step, nextStep, h, takeInput]

/-- A defined read answers the content (R44). -/
theorem hostRead_of_defined {r : HostReg} {s : State} (h : s.readDefined r = true) :
    hostRead r s = { s with out := { s.out with readData := s.out.readData ++ [(r, s.content r)] } } := if_pos h

/-- An unspecified read answers the next free value of the register's width (R209, U6). -/
theorem hostRead_of_unspecified {r : HostReg} {s : State} (h : s.readDefined r = false) :
    hostRead r s = { s with out := { s.out with
      readData := s.out.readData ++ [(r, (Config.freeRead r.width s.out.freeCount).setWidth 32)]
      freeCount := s.out.freeCount + 1 } } := if_neg (by simp [h])

@[simp] theorem withInputs_content (s : State) (is : List Input) (r : HostReg) :
    (s.withInputs is).content r = s.content r := by
  cases r <;> rfl

@[simp] theorem withInputs_readDefined (s : State) (is : List Input) (r : HostReg) :
    (s.withInputs is).readDefined r = s.readDefined r := by
  cases r <;> rfl

/-- But for the control bits and `RXP` a read is defined exactly while `BUSY` = 0 (R209, log 7). -/
theorem readDefined_eq_not_busy {r : HostReg} (hr : r ∉ [HostReg.go, .busy, .done, .err]) (hp : ∀ k, r ≠ .rxp k)
    (s : State) : s.readDefined r = !s.busy := by
  cases r with
  | rxp k => exact absurd rfl (hp k)
  | go | busy | done | err => simp at hr
  | _ => rfl

/-- Settles O21: a read is defined and answers the content, or takes the next free value; it does nothing else. -/
theorem hostReadHasNoSideEffect : Obligations.HostReadHasNoSideEffect := by
  refine ⟨fun s r rest h => ?_, fun s r hr hp => by simp [readDefined_eq_not_busy hr hp], fun s => ?_⟩
  · have hstep := step_read h
    cases hd : s.readDefined r with
    | true =>
      rw [hostRead_of_defined (by simpa using hd), withInputs_content] at hstep
      exact ⟨_, s.content r, hstep, rfl, fun _ => ⟨rfl, rfl⟩, nofun⟩
    | false =>
      rw [hostRead_of_unspecified (by simpa using hd)] at hstep
      exact ⟨_, _, hstep, rfl, nofun, fun _ => ⟨rfl, rfl⟩⟩
  · exact ⟨rfl, rfl, rfl, rfl, rfl, rfl, fun _ => rfl, rfl, rfl, rfl, rfl, rfl, rfl, rfl, rfl, rfl, rfl, rfl, rfl, rfl,
      fun _ => rfl, rfl⟩

end Sys2Proof.Machine
end

section
/-! PROOFS. Scratch state: no operation reads what an earlier one left in its captured operands, its machines or `RXB`
(R66). -/

namespace Sys2Proof.Machine

/-! ### The `GO` step -/

/-- `t'` differs from `t` in the transmit machine, the receive machine and `RXB` only, and in `TX` not in the transmit
machine. -/
def sameButScratch (t t' : State) : Prop :=
  t' = { t with tx := t'.tx, rx := t'.rx, rxb := t'.rxb } ∧ (t.phase = .tx → t'.tx = t.tx)

/-- The `GO` step overwrites the captured operands and, where it enters `TX`, the transmit machine (R121). -/
theorem goStep_sameButScratch (sel : BitVec 4) (cmd : Byte) (len : BitVec 9) (txp : Memory) (s : State)
    (cap : Captured) (tx : TxMachine) (rx : RxMachine) (rxb : Memory) :
    sameButScratch (goStep sel cmd len txp s)
      (goStep sel cmd len txp { s with cap := cap, tx := tx, rx := rx, rxb := rxb }) := by
  unfold goStep
  split
  · exact ⟨rfl, fun h => by simp at h⟩
  · exact ⟨rfl, fun _ => rfl⟩

theorem goOf_sameButScratch (i : Instr) (hi : i.hostInvocable = true) (s : State) (cap : Captured) (tx : TxMachine)
    (rx : RxMachine) (rxb : Memory) :
    sameButScratch (goOf i s) (goOf i { s with cap := cap, tx := tx, rx := rx, rxb := rxb }) := by
  cases i with
  | encode | decode => simp [Instr.hostInvocable] at hi
  | xchg => exact goStep_sameButScratch _ _ _ s.txp s cap tx rx rxb
  | _ =>
    simp only [goOf]
    exact goStep_sameButScratch _ _ _ (s.txp.setAll 0 _) s cap tx rx rxb

/-! ### The entry to `RX` -/

/-- The closing delimiter accepted: `RX` is entered with a fresh receive machine (R124). -/
theorem txStep_eof {s : State} (hpos : s.tx.pos = .eof) {rest : List TxAnswer}
    (ha : s.out.txAnswers = .accept :: rest) :
    txStep s = { s with
      phase := .rx, rx := RxMachine.fresh
      out := { s.out with txAnswers := rest, txOut := s.out.txOut ++ [s.cfg.flag] } } := by
  simp only [txStep, ha, txAdvance, hpos, txOffer]

/-- From `TX` only the accepted closing delimiter enters `RX`. -/
theorem OpStep.entersRx {i : Instr} {s t : State} (hst : OpStep i s t) (hs : s.phase = .tx) (ht : t.phase = .rx) :
    s.tx.pos = .eof ∧ ∃ rest, s.out.txAnswers = .accept :: rest := by
  cases hst with
  | txEnd hi hp hpos rest ha e => exact ⟨hpos, rest, ha⟩
  | unit | waits | txFault | txByte => subst t; simp [hs] at ht
  | goRefused _ hp | go _ hp | rxFail hp | rxGood _ hp | rxByte _ hp | rxPush _ hp => simp [hs] at hp

/-! ### `RXB` in `RX` -/

/-- The state with another content of `RXB`. -/
def State.withRxb (m : Memory) (s : State) : State := { s with rxb := m }

/-- `m` holds what `RXB` holds at every index this read phase has stored (R125). -/
def agreesStored (m : Memory) (s : State) : Prop :=
  ∀ a, a < s.rx.cnt.toNat → a < s.cfg.maxBody → (s.withRxb m).rxbByte a = s.rxbByte a

/-- `t'` differs from `t` in `RXB` only, and there not at the indexes this read phase has stored. -/
def sameStored (t t' : State) : Prop := t' = t.withRxb t'.rxb ∧ agreesStored t'.rxb t

theorem agreesStored.sameStored {m : Memory} {s : State} (h : agreesStored m s) : sameStored s (s.withRxb m) :=
  ⟨rfl, h⟩

/-- Two branches chosen by one condition. -/
theorem sameStored.ite {c : Prop} [Decidable c] {x x' y y' : State} (hx : c → sameStored x x')
    (hy : ¬ c → sameStored y y') : sameStored (if c then x else y) (if c then x' else y') := by
  split
  · exact hx ‹c›
  · exact hy ‹¬ c›

/-- A body byte is stored at the same index of both, below the new count (R125). -/
theorem sameStored_rxPush {m : Memory} {s : State} (h : agreesStored m s) (v : Byte) :
    sameStored (rxPush v s) (rxPush v (s.withRxb m)) := by
  refine ⟨rfl, fun a ha hm => ?_⟩
  simp only [rxPush_rx, rxPush_cfg, countBody_toNat] at ha hm
  by_cases hlt : a < s.rx.cnt.toNat
  · rw [rxbByte_rxPush_below hlt]
    exact (rxbByte_rxPush_below (s := s.withRxb m) hlt v).trans (h a hlt hm)
  · have hnew : a = s.rx.cnt.toNat := by omega
    have hfit : s.rx.cnt.toNat < s.cfg.maxBody := by omega
    simp [State.rxbByte, State.withRxb, hnew, hfit]

/-! ### The post-processing reads no byte of `RXB` but the payload's -/

section Payload

variable {m : Memory} {s : State} (h : ∀ k, k < s.raw.len.toNat → (s.withRxb m).rxpByte k = s.rxpByte k)
include h

theorem field16_withRxb {o : Nat} (ho : o + 1 < s.raw.len.toNat) : (s.withRxb m).field16 o = s.field16 o := by
  simp only [State.field16, h o (by omega), h (o + 1) ho]

theorem field32_withRxb {o : Nat} (ho : o + 3 < s.raw.len.toNat) : (s.withRxb m).field32 o = s.field32 o := by
  simp only [State.field32, h o (by omega), h (o + 1) (by omega), h (o + 2) (by omega), h (o + 3) ho]

theorem terminator_withRxb : (s.withRxb m).terminator = s.terminator :=
  List.find?_congr fun k hk => by rw [h k (List.mem_range.mp hk)]

theorem extractMeasurement_withRxb (hl : s.raw.len.toNat = 10) :
    extractMeasurement (s.withRxb m) = (extractMeasurement s).withRxb m := by
  unfold extractMeasurement
  simp only [field16_withRxb h (show 0 + 1 < _ by omega), field16_withRxb h (show 2 + 1 < _ by omega),
    field16_withRxb h (show 4 + 1 < _ by omega), field16_withRxb h (show 6 + 1 < _ by omega),
    field16_withRxb h (show 8 + 1 < _ by omega)]
  rfl

theorem extractVersion_withRxb (hl : 6 ≤ s.raw.len.toNat) :
    extractVersion (s.withRxb m) = (extractVersion s).withRxb m := by
  unfold extractVersion
  simp only [field16_withRxb h (show 0 + 1 < _ by omega), field16_withRxb h (show 2 + 1 < _ by omega),
    field16_withRxb h (show 4 + 1 < _ by omega)]
  rfl

theorem extractAutoclean_withRxb (hl : s.raw.len.toNat = 4) :
    extractAutoclean (s.withRxb m) = (extractAutoclean s).withRxb m := by
  unfold extractAutoclean
  simp only [field32_withRxb h (show 0 + 3 < _ by omega)]
  rfl

theorem extractString_withRxb : extractString (s.withRxb m) = (extractString s).withRxb m := by
  have hterm := terminator_withRxb h
  cases hz : s.terminator with
  | none => simp only [extractString, hterm, hz]
  | some z =>
    have hlt := (terminator_eq_some.mp hz).1
    have hbytes : (s.withRxb m).rxpBytes (z + 1) = s.rxpBytes (z + 1) :=
      List.map_congr_left fun k hk => h k (by have := List.mem_range.mp hk; omega)
    rw [extractString_of_terminator hz, extractString_of_terminator (hterm.trans hz), hbytes]
    rfl

omit h in
/-- The checks of a typed operation, where the extraction of an accepted response reads the payload only. -/
theorem typedPost_withRxb {accepts : State → Bool} {extract : State → State}
    (ha : accepts (s.withRxb m) = accepts s)
    (he : accepts s = true → extract (s.withRxb m) = (extract s).withRxb m) :
    typedPost accepts extract (s.withRxb m) = (typedPost accepts extract s).withRxb m := by
  have same : (s.withRxb m).raw = s.raw := rfl
  unfold typedPost
  rw [ha, same]
  split
  · rfl
  · split
    · rfl
    · rw [he (by simp_all)]
      rfl

/-- The post-processing of every operation reads the payload only (R153), for `VERSION_LEN` at least 6 (R8). -/
theorem postOf_withRxb {i : Instr} (hi : i.hostInvocable = true) (hc : s.cfg.valid) :
    postOf i (s.withRxb m) = (postOf i s).withRxb m := by
  obtain ⟨_, _, _, _, hversion⟩ := hc
  unfold postOf
  cases i with
  | encode | decode => simp [Instr.hostInvocable] at hi
  | xchg => rfl
  | readMeasurement =>
    exact typedPost_withRxb rfl fun ha => extractMeasurement_withRxb h (beq_iff_eq.mp ha)
  | readAutoclean =>
    exact typedPost_withRxb rfl fun ha => extractAutoclean_withRxb h (beq_iff_eq.mp ha)
  | readVersion =>
    exact typedPost_withRxb rfl fun ha => extractVersion_withRxb h (by rw [beq_iff_eq.mp ha]; exact hversion)
  | deviceInfo =>
    exact typedPost_withRxb (congrArg Option.isSome (terminator_withRxb h)) fun _ => extractString_withRxb h
  | writeAutoclean => exact typedPost_withRxb rfl fun _ => rfl
  | _ => exact typedPost_withRxb (accepts := fun _ => true) (extract := id) rfl fun _ => rfl

end Payload

/-! ### The receive step -/

/-- The raw result is read from the header, which a body long enough has stored (R127). -/
theorem writeRaw_withRxb {m : Memory} {s : State} (h : agreesStored m s)
    (hcnt : s.cfg.headerLen + 1 ≤ s.rx.cnt.toNat) : writeRaw (s.withRxb m) = (writeRaw s).withRxb m := by
  have hmax : s.cfg.maxBody = s.cfg.headerLen + 1 + maxPayload := rfl
  have hlen := headerLen_cases s.cfg
  have byte : ∀ a, a < s.cfg.headerLen → (s.withRxb m).rxbByte a = s.rxbByte a :=
    fun a ha => h a (by omega) (by omega)
  have hstatus : (s.withRxb m).receivedStatus = s.receivedStatus := by
    by_cases hs : s.cfg.rxHasState = true
    · have : s.cfg.headerLen = 4 := by simp [Config.headerLen, hs]
      simp only [State.receivedStatus]
      rw [byte 2 (by omega)]
      rfl
    · simp [State.receivedStatus, State.withRxb, hs]
  have hraw : (s.withRxb m).receivedRaw = s.receivedRaw := by
    simp only [State.receivedRaw]
    rw [byte 0 (by omega), byte 1 (by omega), hstatus]
    exact congrArg _ (byte (s.cfg.headerLen - 1) (by omega))
  exact congrArg (fun r => { s with rxb := m, raw := r }) hraw

section Receive

variable {m : Memory} {s : State} {i : Instr} (hi : i.hostInvocable = true) (hc : s.cfg.valid) (h : agreesStored m s)

include hi hc h

/-- The post-processing of a frame whose whole body is stored (R127, R128). -/
theorem sameStored_postOf (hcnt : s.rx.cnt.toNat = s.cfg.headerLen + 1 + s.raw.len.toNat) :
    sameStored (postOf i s) (postOf i (s.withRxb m)) := by
  have hpayload : ∀ k, k < s.raw.len.toNat → (s.withRxb m).rxpByte k = s.rxpByte k := by
    intro k hk
    have hlt := s.raw.len.isLt
    exact h (s.cfg.headerLen + k) (by omega) (by simp only [Config.maxBody, maxPayload]; omega)
  obtain ⟨hcfg, _, _, hrxb, _, _, _, hrx, _⟩ := postOf_frame hi s
  rw [postOf_withRxb hpayload hi hc]
  refine ⟨rfl, fun a ha hm => ?_⟩
  rw [hrx] at ha
  rw [hcfg] at hm
  rw [State.rxbByte, State.rxbByte, hrxb]
  exact h a ha hm

/-- The evaluation reads the declared length and the header only of a body that has stored them (R127). -/
theorem sameStored_evaluate : sameStored (evaluate (postOf i) s) (evaluate (postOf i) (s.withRxb m)) := by
  have failed : ∀ e, sameStored (finish (some e) s) (finish (some e) (s.withRxb m)) := fun _ => ⟨rfl, h⟩
  refine .ite (fun _ => failed _) fun _ => .ite (fun _ => failed _) fun _ => .ite (fun _ => failed _) fun hshort => ?_
  have hlen := headerLen_cases s.cfg
  have declared : (s.withRxb m).rxbByte (s.cfg.headerLen - 1) = s.rxbByte (s.cfg.headerLen - 1) :=
    h _ (by omega) (by simp only [Config.maxBody]; omega)
  have same : (s.withRxb m).cfg = s.cfg := rfl
  rw [same, declared, writeRaw_withRxb h (by omega)]
  refine .ite (fun _ => failed _) fun _ => .ite (fun _ => failed _) fun hlow => .ite (fun _ => failed _) fun hhigh => ?_
  exact sameStored_postOf (s := writeRaw s) hi hc h (Nat.le_antisymm (not_lt.mp hhigh) (not_lt.mp hlow))

/-- A received byte is stored, counted or ends the frame in the same way (R125). -/
theorem sameStored_rxByte (b : Byte) : sameStored (rxByte (postOf i) b s) (rxByte (postOf i) b (s.withRxb m)) := by
  refine .ite (fun _first => ?_) fun _ => .ite (fun _flag => ?_) fun _ => .ite (fun _interior => ?_)
    fun _dropped => h.sameStored
  · exact .ite (fun _ => ⟨rfl, h⟩) fun _ => ⟨rfl, h⟩
  · refine .ite (fun _closing => ?_) fun _ => ⟨rfl, h⟩
    exact sameStored_evaluate (s := { s with rx := { s.rx with flags := s.rx.flags.succ } }) hi hc h
  · refine .ite (fun _partner => .ite (fun _valid => ?_) fun _ => ⟨rfl, h⟩) fun _ =>
      .ite (fun _escape => ⟨rfl, h⟩) fun _plain => ?_
    · exact sameStored_rxPush (s := { s with rx := { s.rx with esc := false } }) h _
    · exact sameStored_rxPush h b

/-- Every receive step (R125, R126). -/
theorem sameStored_rxStep : sameStored (rxStep (postOf i) s) (rxStep (postOf i) (s.withRxb m)) := by
  have same : (s.withRxb m).out.rxEvents = s.out.rxEvents := rfl
  unfold rxStep
  rw [same]
  rcases s.out.rxEvents with _ | ⟨b | _ | _, rest⟩
  · exact h.sameStored
  · exact sameStored_rxByte (s := { s with out := { s.out with rxEvents := rest } }) hi hc h b
  · exact ⟨rfl, h⟩
  · exact ⟨rfl, h⟩

end Receive

/-- Settles O56: the `GO` step builds its scratch state afresh, the entry to `RX` the receive machine, and a receive
step reads only the bytes its read phase has stored. -/
theorem scratchIsNotReadAcrossOperations : Obligations.ScratchIsNotReadAcrossOperations := by
  refine ⟨fun s t i cap tx rx rxb hi hp ht => ?_, fun s t i rx hi hp ht htp => ?_,
    fun s t i rxb hi hp hc h ht => ?_⟩
  · rw [(exec_by_phase hi s).1 hp] at ht
    cases ht
    exact ⟨_, (exec_by_phase hi _).1 hp, goOf_sameButScratch i hi s cap tx rx rxb⟩
  · obtain ⟨hpos, rest, ha⟩ := (exec_opStep ht).entersRx hp htp
    rw [(exec_by_phase hi s).2.1 hp, txStep_eof hpos ha] at ht
    rw [(exec_by_phase hi { s with rx := rx }).2.1 hp, txStep_eof (s := { s with rx := rx }) hpos ha]
    exact ht
  · rw [(exec_by_phase hi s).2.2 hp] at ht
    cases ht
    exact ⟨_, (exec_by_phase hi _).2.2 hp, sameStored_rxStep (m := rxb) hi hc h⟩

end Sys2Proof.Machine
end

section
/-! PROOFS. The encodings of the operations: the selector table, the words of the three ports in both directions, the
words of the opcode table, and what a `GO` makes of the selector in `OP`. -/

namespace Sys2Proof.Machine

/-! ### The selector table -/

/-- The selector table read backwards: an operation's own selector starts it (R85). -/
theorem decodeSelector_of_selector {i : Instr} {op : BitVec 4} (h : i.selector = some op) :
    decodeSelector op = .ok i := by
  cases i with
  | encode | decode => cases h
  | _ => cases h; rfl

/-- A reserved selector is rejected by name (R88 (a)). -/
theorem decodeSelector_of_reserved {op : BitVec 4} (h : 12 ≤ op.toNat) :
    decodeSelector op = .error (.reservedSelector op) := by
  revert op
  decide

/-! ### The host's port -/

/-- The host's word of an operation with a selector is the selector in the low four bits of a byte. -/
theorem encode_of_selector (c : Config) {i : Instr} {op : BitVec 4} (h : i.selector = some op) :
    encode c i = (.host, [op.setWidth 8]) := by
  cases i with
  | encode | decode => cases h
  | _ => cases h; rfl

theorem wellFormed_of_selector {i : Instr} {op : BitVec 4} (h : i.selector = some op) : i.wellFormed = true := by
  cases i with
  | encode | decode => cases h
  | _ => rfl

/-- The host's port reads a selector back from its word. -/
theorem decodeWords_host (c : Config) (op : BitVec 4) :
    decodeWords c .host [op.setWidth 8] = decodeSelector op := by
  have hop : (op.setWidth 8).toNat = op.toNat := BitVec.toNat_setWidth_of_le (by omega)
  have hback : (op.setWidth 8).setWidth 4 = op := BitVec.setWidth_setWidth_of_le op (by omega)
  simp only [decodeWords, hop, op.isLt, hback]
  rfl

/-- What the host's port accepts is the word of a selector, and it gives the operation with that selector. -/
theorem decodeWords_host_ok {c : Config} {bs : List Byte} {i : Instr} (h : decodeWords c .host bs = .ok i) :
    ∃ op, i.selector = some op ∧ bs = [op.setWidth 8] := by
  rcases bs with _ | ⟨b, _ | ⟨_, _⟩⟩
  · cases h
  · simp only [decodeWords] at h
    split at h
    · rename_i hb
      obtain ⟨_, hsel, _⟩ := decodeSelector_ok h
      refine ⟨_, hsel, congrArg (· :: []) (BitVec.eq_of_toNat_eq ?_)⟩
      simp only [BitVec.toNat_setWidth]
      omega
    · cases h
  · cases h

/-! ### The encoder's port -/

/-- The encoder's port reads a request of at most 255 payload bytes back from its header and payload (R71). -/
theorem decodeWords_requestHead (c : Config) (cmd : Byte) {payload : List Byte} (h : payload.length ≤ 255) :
    decodeWords c .encoder (requestHead c cmd payload) = .ok (.encode cmd payload) := by
  have hlen : payload.length = (BitVec.ofNat 8 payload.length).toNat := by
    rw [BitVec.toNat_ofNat]
    omega
  simp [requestHead, decodeWords, ← hlen]

/-- What the encoder's port accepts is a request with its address and its payload count in place. -/
theorem decodeWords_encoder_ok {c : Config} {bs : List Byte} {i : Instr} (h : decodeWords c .encoder bs = .ok i) :
    ∃ cmd payload, i = .encode cmd payload ∧ payload.length ≤ 255 ∧ bs = requestHead c cmd payload := by
  rcases bs with _ | ⟨adr, _ | ⟨cmd, _ | ⟨len, payload⟩⟩⟩
  · cases h
  · cases h
  · cases h
  · simp only [decodeWords] at h
    split at h
    · cases h
    split at h
    · cases h
    rename_i hadr hlen
    cases h
    rw [not_not] at hadr hlen
    have := len.isLt
    refine ⟨cmd, payload, rfl, by omega, ?_⟩
    simp [requestHead, hadr, hlen]

/-! ### All ports -/

/-- Every well-formed operation is read back from its words. -/
theorem decodeWords_encode (c : Config) {i : Instr} (hi : i.wellFormed = true) :
    decodeWords c (encode c i).1 (encode c i).2 = .ok i := by
  have host : ∀ {op}, i.selector = some op → decodeWords c (encode c i).1 (encode c i).2 = .ok i := by
    intro op h
    rw [encode_of_selector c h, decodeWords_host, decodeSelector_of_selector h]
  cases i with
  | encode cmd payload => exact decodeWords_requestHead c cmd (of_decide_eq_true hi)
  | decode wire => rfl
  | _ => exact host rfl

/-- Words that a port accepts are the words of a well-formed operation. -/
theorem encode_of_decodeWords {c : Config} {p : Port} {bs : List Byte} {i : Instr} (h : decodeWords c p bs = .ok i) :
    encode c i = (p, bs) ∧ i.wellFormed = true := by
  cases p with
  | host =>
    obtain ⟨op, hsel, rfl⟩ := decodeWords_host_ok h
    exact ⟨encode_of_selector c hsel, wellFormed_of_selector hsel⟩
  | encoder =>
    obtain ⟨cmd, payload, rfl, hlen, rfl⟩ := decodeWords_encoder_ok h
    exact ⟨rfl, decide_eq_true hlen⟩
  | decoder => cases h; exact ⟨rfl, rfl⟩

/-- Settles O13: the two directions, port by port. -/
theorem wordsDecodeToTheirOperation : Obligations.WordsDecodeToTheirOperation :=
  ⟨fun c _ hi => decodeWords_encode c hi, fun _ _ _ _ h => encode_of_decodeWords h⟩

/-- Settles O14: the selectors by the selector table, the words of the opcode table by evaluation. -/
theorem tableWordsDecode : Obligations.TableWordsDecode := by
  have row : ∀ (op : BitVec 4) (i : Instr), i.selector = some op → decodeSelector op = .ok i :=
    fun _ _ => decodeSelector_of_selector
  refine ⟨row 0 _ rfl, row 1 _ rfl, row 2 _ rfl, row 3 _ rfl, row 4 _ rfl, row 5 _ rfl, row 6 _ rfl, row 7 _ rfl,
    row 8 _ rfl, row 9 _ rfl, row 10 _ rfl, row 11 _ rfl, fun _ => decodeSelector_of_reserved, ?_⟩
  decide

/-! ### The `GO` write -/

/-- A write of 1 to `GO` at the front of the inputs is the next thing that happens (R28). -/
theorem step_go {s : State} {rest : List Input} (h : s.out.inputs = .write (.go 1) :: rest) :
    step s = hostGo (s.withInputs rest) :=
  (step_write h).trans rfl

/-- In IDLE a `GO` runs the operation whose selector `OP` holds (R121). -/
theorem hostGo_of_selector {s : State} {i : Instr} (hp : s.phase = .idle) (h : i.selector = some s.opnd.op) :
    hostGo s = exec i s := by
  simp only [hostGo, (busy_eq_false_iff s).mpr hp, decodeSelector_of_selector h]
  rfl

/-- In IDLE a `GO` is refused where `OP` holds a reserved selector (R88 (a)). -/
theorem hostGo_of_reserved {s : State} (hp : s.phase = .idle) (h : 12 ≤ s.opnd.op.toNat) :
    hostGo s = .refused (.reservedSelector s.opnd.op) := by
  simp only [hostGo, (busy_eq_false_iff s).mpr hp, decodeSelector_of_reserved h]
  rfl

/-- Settles O17: the `GO` finds the block idle and the selector reserved. -/
theorem reservedSelectorIsRefused : Obligations.ReservedSelectorIsRefused :=
  fun s rest hp hop h => (step_go h).trans (hostGo_of_reserved (s := s.withInputs rest) hp hop)

/-! ### Table words -/

/-- The state in which an operation of a table word runs: for a host-invocable operation its operands are in place and
the block is idle; a function unit needs neither. -/
def State.placed (s : State) (i : Instr) (cmd len : Byte) : State :=
  if i.hostInvocable then { s.withOperands i cmd len with phase := .idle } else s

theorem placed_frame (s : State) (i : Instr) (cmd len : Byte) :
    (s.placed i cmd len).cfg = s.cfg ∧ (s.placed i cmd len).out = s.out := by
  cases i <;> exact ⟨rfl, rfl⟩

/-- A placed host-invocable operation is the one the next `GO` starts. -/
theorem placed_ready {i : Instr} (hi : i.hostInvocable = true) (s : State) (cmd len : Byte) :
    (s.placed i cmd len).phase = .idle ∧ i.selector = some (s.placed i cmd len).opnd.op := by
  cases i with
  | encode | decode => cases hi
  | _ => exact ⟨rfl, rfl⟩

/-- `XCHG` is placed with the header's command byte and length, and as many payload bytes of 0. -/
theorem placed_xchg (s : State) (cmd len : Byte) :
    (s.placed .xchg cmd len).opnd.argCmd = cmd ∧ (s.placed .xchg cmd len).opnd.argLen = len.setWidth 9 ∧
    ∀ a, a < len.toNat → (s.placed .xchg cmd len).txpByte a = 0x00 := by
  refine ⟨rfl, rfl, fun a ha => ?_⟩
  have htxp : (s.placed .xchg cmd len).txp = s.txp.setAll 0 (List.replicate len.toNat 0) := rfl
  simp [State.txpByte, htxp, Memory.get?_setAll, ha]

/-- A host-invocable operation is offered as placed, with a write of 1 to `GO` in front of the inputs. -/
theorem offering_of_hostInvocable {i : Instr} (hi : i.hostInvocable = true) (s : State) (cmd len : Byte) :
    s.offering i cmd len = (s.placed i cmd len).withInputs (.write (.go 1) :: s.out.inputs) := by
  cases i with
  | encode | decode => cases hi
  | _ => rfl

/-- Taking an input that was put in front of them leaves the inputs as they were. -/
theorem withInputs_restored {s t : State} (h : t.out = s.out) (is : List Input) :
    (t.withInputs is).withInputs s.out.inputs = t := by
  rw [← h]
  rfl

/-- What is offered is the very next thing that runs: by `GO` for a host-invocable operation, by its call for a
function unit. -/
theorem step_offering (s : State) (i : Instr) (cmd len : Byte) :
    step (s.offering i cmd len) = exec i (s.placed i cmd len) := by
  by_cases hi : i.hostInvocable = true
  · obtain ⟨hidle, hsel⟩ := placed_ready hi s cmd len
    rw [offering_of_hostInvocable hi, step_go rfl, withInputs_restored (placed_frame s i cmd len).2]
    exact hostGo_of_selector hidle hsel
  · cases i with
    | encode | decode => rfl
    | _ => exact absurd rfl hi

/-- Settles O16: `withFetchWord` offers the operation, and what is offered runs next. -/
theorem tableWordRunsNext : Obligations.TableWordRunsNext := by
  intro s nbits w i hdec
  have hoffer : s.withFetchWord nbits w = s.offering i (BitVec.ofNat 8 (w / 2 ^ 8)) (BitVec.ofNat 8 w) := by
    simp only [State.withFetchWord, hdec]
  obtain ⟨hcfg, hout⟩ := placed_frame s i (BitVec.ofNat 8 (w / 2 ^ 8)) (BitVec.ofNat 8 w)
  refine ⟨_, hoffer ▸ step_offering s i _ _, hcfg, hout, fun hi => placed_ready hi s _ _, ?_⟩
  rintro rfl
  obtain ⟨hcmd, hlen, hzero⟩ := placed_xchg s (BitVec.ofNat 8 (w / 2 ^ 8)) (BitVec.ofNat 8 w)
  rw [BitVec.toNat_ofNat] at hzero
  refine ⟨?_, ?_, hzero⟩
  · exact (congrArg BitVec.toNat hcmd).trans (BitVec.toNat_ofNat ..)
  · rw [hlen, BitVec.toNat_setWidth_of_le (by omega), BitVec.toNat_ofNat]

end Sys2Proof.Machine
end

section
/-! PROOFS. The wire length of a request (R78). -/

namespace Sys2Proof.Machine

theorem stuff1_length (c : Config) (b : Byte) : (stuff1 c b).length = if isReserved c b then 2 else 1 := by
  unfold stuff1
  split <;> rfl

/-- Stuffing adds one byte per reserved byte (R104). -/
theorem stuff_length (c : Config) (s : List Byte) : (stuff c s).length = s.length + s.countP (isReserved c) := by
  induction s with
  | nil => rfl
  | cons b s ih =>
    rw [stuff_cons, List.length_append, stuff1_length, ih, List.length_cons, List.countP_cons]
    split <;> omega

theorem wireFrame_length (c : Config) (body : List Byte) :
    (wireFrame c body).length = body.length + body.countP (isReserved c) + 2 := by
  simp only [wireFrame, List.length_append, stuff_length, List.length_singleton]
  omega

/-- The whole request body, checksum included (R71). -/
def requestBody (c : Config) (cmd : Byte) (p : List Byte) : List Byte :=
  requestHead c cmd p ++ [chk (requestHead c cmd p)]

theorem requestBody_length (c : Config) (cmd : Byte) (p : List Byte) : (requestBody c cmd p).length = p.length + 4 := by
  simp only [requestBody, requestHead, List.length_append, List.length_cons, List.length_nil]
  omega

theorem frameEncode_eq_ok {c : Config} {cmd : Byte} {p w : List Byte} :
    frameEncode c cmd p = .ok w ↔ p.length ≤ 255 ∧ w = wireFrame c (requestBody c cmd p) := by
  unfold frameEncode
  split
  · rename_i h
    exact ⟨nofun, fun ⟨hp, _⟩ => absurd h (Nat.not_lt.mpr hp)⟩
  · rename_i h
    exact ⟨fun e => ⟨Nat.not_lt.mp h, (Except.ok.inj e).symm⟩, fun ⟨_, hw⟩ => congrArg _ hw.symm⟩

/-- A request's wire length by its body (R78). -/
theorem request_length {c : Config} {cmd : Byte} {p w : List Byte} (h : frameEncode c cmd p = .ok w) :
    p.length ≤ 255 ∧ w.length = p.length + 4 + (requestBody c cmd p).countP (isReserved c) + 2 := by
  obtain ⟨hp, rfl⟩ := frameEncode_eq_ok.mp h
  exact ⟨hp, by rw [wireFrame_length, requestBody_length]⟩

/-- The reserved bytes of a request body, field by field (R71). -/
theorem requestBody_reserved (c : Config) (cmd : Byte) (p : List Byte) :
    (requestBody c cmd p).countP (isReserved c) =
      [c.addr].countP (isReserved c) + [cmd].countP (isReserved c) +
        [(BitVec.ofNat 8 p.length : Byte)].countP (isReserved c) + p.countP (isReserved c) +
        [chk (requestHead c cmd p)].countP (isReserved c) := by
  have fields : requestBody c cmd p = [c.addr] ++ [cmd] ++ [(BitVec.ofNat 8 p.length : Byte)] ++ p ++
      [chk (requestHead c cmd p)] := rfl
  simp only [fields, List.countP_append]

/-- With the default constants the address byte is never reserved, and neither is the length byte 255 (R78). -/
theorem standard_reserved_le (cmd : Byte) {p : List Byte} (hp : p.length ≤ 255) :
    (requestBody Config.standard cmd p).countP (isReserved Config.standard) + p.length ≤ 512 := by
  have haddr : [Config.standard.addr].countP (isReserved Config.standard) = 0 := by decide
  have hlen : p.length = 255 →
      [(BitVec.ofNat 8 p.length : Byte)].countP (isReserved Config.standard) = 0 := by
    intro e
    rw [e]
    decide
  have hone : ∀ b, [b].countP (isReserved Config.standard) ≤ 1 := fun _ => List.countP_le_length
  have hpay : p.countP (isReserved Config.standard) ≤ p.length := List.countP_le_length
  have hcmd := hone cmd
  have hchk := hone (chk (requestHead Config.standard cmd p))
  have hshort := hone (BitVec.ofNat 8 p.length)
  rw [requestBody_reserved, haddr]
  omega

/-- The sum of equal bytes. -/
theorem sum8_replicate (n : Nat) (b : Byte) : sum8 (List.replicate n b) = BitVec.ofNat 8 n * b := by
  induction n with
  | zero => simp
  | succ n ih =>
    rw [List.replicate_succ, sum8_cons, ih, add8, BitVec.ofNat_add, BitVec.add_mul, BitVec.add_comm]
    simp

/-- The payload of the longest request (R78). -/
def longestPayload : List Byte := List.replicate 129 0x7E ++ List.replicate 126 0x7D

theorem longestPayload_length : longestPayload.length = 255 := by
  simp only [longestPayload, List.length_append, List.length_replicate]

theorem longestPayload_sum8 : sum8 longestPayload = 0x04 := by
  rw [longestPayload, sum8_append, sum8_replicate, sum8_replicate]
  decide

/-- Its checksum is 0x7E, a reserved byte. -/
theorem longestPayload_chk : chk (requestHead Config.standard 0x7E longestPayload) = 0x7E := by
  rw [chk, requestHead, sum8_append, longestPayload_sum8, longestPayload_length]
  decide

theorem longestPayload_reserved : longestPayload.countP (isReserved Config.standard) = 255 := by
  rw [longestPayload, List.countP_append, List.countP_replicate, List.countP_replicate]
  decide

/-- All of its bytes but the address and the length are reserved. -/
theorem longestRequest_reserved :
    (requestBody Config.standard 0x7E longestPayload).countP (isReserved Config.standard) = 257 := by
  rw [requestBody_reserved, longestPayload_chk, longestPayload_reserved, longestPayload_length]
  decide

/-- Settles O7: the length by stuffing, its bounds by the bytes that can be reserved, and the request that reaches the
longest. -/
theorem requestLengthBounds : Obligations.RequestLengthBounds := by
  refine ⟨fun c cmd p w h => ?_, fun cmd p w h => ?_, ?_⟩
  · obtain ⟨hp, hw⟩ := request_length h
    have hle : (requestBody c cmd p).countP (isReserved c) ≤ (requestBody c cmd p).length := List.countP_le_length
    rw [requestBody_length] at hle
    exact ⟨hw, by omega⟩
  · obtain ⟨hp, hw⟩ := request_length h
    have hle := standard_reserved_le cmd hp
    omega
  · have henc := (frameEncode_eq_ok (c := Config.standard) (cmd := 0x7E)).mpr ⟨longestPayload_length.le, rfl⟩
    refine ⟨_, henc, ?_⟩
    rw [(request_length henc).2, longestRequest_reserved, longestPayload_length]

end Sys2Proof.Machine
end

section
/-! PROOFS. The checksum unit, the stuffer and the destuffer: what each computes for every byte sequence
(R101 to R107). -/

namespace Sys2Proof.Machine

/-! ### The checksum -/

theorem sum8_singleton (b : Byte) : sum8 [b] = b := by simp [sum8_cons, add8]

/-- `sum8` is the arithmetic sum modulo 256 (R101). -/
theorem sum8_toNat (s : List Byte) : (sum8 s).toNat = (s.map (·.toNat)).sum % 256 := by
  induction s with
  | nil => rfl
  | cons b s ih =>
    rw [sum8_cons, add8, BitVec.toNat_add, ih]
    simp

/-- The order of the bytes does not matter (R101). -/
theorem sum8_perm {s t : List Byte} (h : s.Perm t) : sum8 s = sum8 t :=
  BitVec.eq_of_toNat_eq (by rw [sum8_toNat, sum8_toNat, (h.map _).sum_eq])

/-- Settles O1: the recursion, the sum modulo 256, and that it is free of order. -/
theorem checksumSumRules : Obligations.ChecksumSumRules := by
  refine ⟨rfl, fun s b => ?_, sum8_toNat, fun s t => sum8_perm, by decide⟩
  rw [sum8_append, sum8_singleton]

/-- The checksum is the bitwise inverse of the sum (R102). -/
theorem chk_eq_not (s : List Byte) : chk s = ~~~ sum8 s := BitVec.xor_allOnes

/-- The law of the checksum: with it the bytes sum to 0xFF (R102). -/
theorem sum8_append_chk (s : List Byte) : sum8 (s ++ [chk s]) = 0xFF := by
  rw [sum8_append, sum8_singleton, chk_eq_not]
  exact BitVec.add_not_self _

/-- Settles O2: the checksum is the inverse of the sum, so the two sum to 0xFF. -/
theorem checksumLaw : Obligations.ChecksumLaw := by
  have inverse : ∀ s : List Byte, chk s = 0xFF - sum8 s := fun s =>
    (chk_eq_not s).trans (BitVec.allOnes_sub_eq_not _).symm
  have value : ∀ {s : List Byte} {b : Byte}, sum8 s = b → chk s = b ^^^ 0xFF := fun h => congrArg (· ^^^ 0xFF) h
  exact ⟨fun s => ⟨chk_eq_not s, rfl, inverse s⟩, sum8_append_chk, rfl, fun s => value, fun s => value, fun s => value,
    rfl⟩

/-! ### The stuffer -/

theorem stuff_append (c : Config) (s t : List Byte) : stuff c (s ++ t) = stuff c s ++ stuff c t := by
  induction s with
  | nil => rfl
  | cons b s ih => rw [List.cons_append, stuff_cons, stuff_cons, ih, List.append_assoc]

theorem stuff_eq_flatMap (c : Config) (s : List Byte) : stuff c s = s.flatMap (stuff1 c) := by
  induction s with
  | nil => rfl
  | cons b s ih => rw [stuff_cons, ih, List.flatMap_cons]

/-- Bytes that are not reserved are stuffed to themselves. -/
theorem stuff_of_plain {c : Config} {s : List Byte} (h : ∀ b ∈ s, isReserved c b = false) : stuff c s = s := by
  induction s with
  | nil => rfl
  | cons b s ih =>
    obtain ⟨hb, hs⟩ := List.forall_mem_cons.mp h
    rw [stuff_cons, stuff1_of_plain hb, ih hs]
    rfl

/-- What one byte is stuffed to holds no `FLAG` (R104). -/
theorem flag_not_mem_stuff1 {c : Config} (hc : c.valid) (b : Byte) : c.flag ∉ stuff1 c b := by
  obtain ⟨hne, _, ⟨hflag, _⟩, ⟨hesc, _⟩, _⟩ := hc
  cases hb : isReserved c b with
  | true =>
    have hcode : b ^^^ c.xorm ≠ c.flag := by
      rcases (isReserved_iff c b).mp hb with rfl | rfl
      · exact hflag
      · exact hesc
    simp [stuff1_of_reserved hb, hne, hcode.symm]
  | false =>
    have hplain : b ≠ c.flag := fun e => by simp [isReserved, e] at hb
    simpa [stuff1_of_plain hb] using hplain.symm

theorem flag_not_mem_stuff {c : Config} (hc : c.valid) (s : List Byte) : c.flag ∉ stuff c s := by
  rw [stuff_eq_flatMap, List.mem_flatMap]
  exact fun ⟨b, _, hb⟩ => flag_not_mem_stuff1 hc b hb

/-- Settles O3: `stuff` works byte by byte, and no byte is stuffed to a `FLAG`. -/
theorem stuffingLaws : Obligations.StuffingLaws := by
  refine ⟨fun c b => ?_, rfl, rfl, fun b hf he => ?_, stuff_eq_flatMap, fun c hc => flag_not_mem_stuff hc, stuff_length,
    stuff_append⟩
  · simp only [stuff1, isReserved_iff]
  · exact stuff1_of_plain (by simpa [isReserved, Config.standard] using ⟨hf, he⟩)

/-! ### The destuffer -/

theorem except_map_eq_ok {α β ε : Type} {x : Except ε α} {f : α → β} {y : β} :
    x.map f = .ok y ↔ ∃ a, x = .ok a ∧ f a = y := by
  cases x <;> simp [Except.map]

theorem except_map_eq_error {α β ε : Type} {x : Except ε α} {f : α → β} {e : ε} :
    x.map f = .error e ↔ x = .error e := by
  cases x <;> simp [Except.map]

/-- What may follow `ESC` are the transformed reserved bytes (R106). -/
theorem isEscapedCode_eq (c : Config) (d : Byte) : isEscapedCode c d = isReserved c (d ^^^ c.xorm) := by
  rw [Bool.eq_iff_iff, isEscapedCode_iff, isReserved_iff, xor_eq_iff_left_eq, xor_eq_iff_left_eq]

/-- The destuffer reads one stuffed byte back (R107). -/
theorem unstuff_stuff1_append {c : Config} (hc : c.valid) (b : Byte) (w : List Byte) :
    unstuff c (stuff1 c b ++ w) = (unstuff c w).map (b :: ·) := by
  cases hb : isReserved c b with
  | true =>
    have hcode : isEscapedCode c (b ^^^ c.xorm) = true := by rw [isEscapedCode_eq, xor_cancel_right, hb]
    rw [stuff1_of_reserved hb, List.cons_append, List.cons_append, unstuff_escape hc.1 hcode, xor_cancel_right]
    rfl
  | false =>
    rw [stuff1_of_plain hb]
    exact unstuff_plain hb w

theorem unstuff_stuff {c : Config} (hc : c.valid) (s : List Byte) : unstuff c (stuff c s) = .ok s := by
  induction s with
  | nil => rfl
  | cons b s ih =>
    rw [stuff_cons, unstuff_stuff1_append hc, ih]
    rfl

/-- The destuffer accepts nothing the stuffer could not have produced (R107). -/
theorem eq_stuff_of_unstuff {c : Config} {w s : List Byte} (h : unstuff c w = .ok s) : w = stuff c s := by
  fun_induction unstuff c w generalizing s with
  | case1 => cases h; rfl
  | case2 b hb => cases h
  | case3 b hb =>
    cases h
    simp [stuff_cons, stuff1_of_plain (Bool.eq_false_iff.mpr hb)]
  | case4 d rest => cases h
  | case5 d rest hcode hne ih =>
    obtain ⟨t, ht, rfl⟩ := except_map_eq_ok.mp h
    rw [isEscapedCode_eq] at hcode
    rw [stuff_cons, stuff1_of_reserved hcode, ← ih ht, xor_cancel_right]
    rfl
  | case6 d rest hcode hne => cases h
  | case7 b d rest hflag hesc ih =>
    obtain ⟨t, ht, rfl⟩ := except_map_eq_ok.mp h
    rw [stuff_cons, stuff1_of_plain (by simp [isReserved, hflag, hesc]), ← ih ht]
    rfl

/-- Settles O4: the destuffer inverts the stuffer in both directions. -/
theorem unstuffInvertsStuffExactly : Obligations.UnstuffInvertsStuffExactly :=
  fun _ hc => ⟨unstuff_stuff hc, fun _ _ => eq_stuff_of_unstuff,
    fun _ _ _ h h' => (eq_stuff_of_unstuff h).trans (eq_stuff_of_unstuff h').symm⟩

/-- `unstuff` has one failure (R106). -/
theorem unstuff_error {c : Config} {w : List Byte} {e : ErrKind} (h : unstuff c w = .error e) : e = .framingError := by
  fun_induction unstuff c w with
  | case1 | case3 => cases h
  | case2 | case4 | case6 => cases h; rfl
  | case5 _ _ _ _ ih | case7 _ _ _ _ _ ih => exact ih (except_map_eq_error.mp h)

/-- Settles O5: by O4 the destuffer succeeds exactly on what the stuffer produces; the corner cases by evaluation. -/
theorem unstuffRejectsOnlyByFraming : Obligations.UnstuffRejectsOnlyByFraming := by
  refine ⟨fun _ _ _ => unstuff_error, fun c hc w => ⟨fun ⟨s, h⟩ => ⟨s, eq_stuff_of_unstuff h⟩, ?_⟩, by decide⟩
  rintro ⟨s, rfl⟩
  exact ⟨s, unstuff_stuff hc s⟩

end Sys2Proof.Machine
end

section
/-! PROOFS. The function units `encode` and `decode` (R108 to R112): what `decode` makes of the wire frame around a
body, check by check, and the round trip. -/

namespace Sys2Proof.Machine

/-! ### `encode` -/

theorem frameEncode_eq_error {c : Config} {cmd : Byte} {p : List Byte} {e : ErrKind} :
    frameEncode c cmd p = .error e ↔ 256 ≤ p.length ∧ e = .encodingError := by
  unfold frameEncode
  split
  · rename_i h
    exact ⟨fun he => ⟨h, (Except.error.inj he).symm⟩, fun ⟨_, he⟩ => congrArg _ he.symm⟩
  · rename_i h
    exact ⟨nofun, fun ⟨hp, _⟩ => absurd hp h⟩

/-- Settles O6: the length decides; the frame of a request is the wire frame of its body, and stuffing leaves no `FLAG`
inside. -/
theorem encodeFailsExactlyAbove255 : Obligations.EncodeFailsExactlyAbove255 := by
  refine ⟨fun c cmd p => ⟨⟨fun ⟨_, he⟩ => (frameEncode_eq_error.mp he).1, fun hp => ?_⟩, fun e he => ?_, fun hp => ?_⟩,
    by decide, fun c hc cmd p w hw => ?_⟩
  · exact ⟨_, frameEncode_eq_error.mpr ⟨hp, rfl⟩⟩
  · exact (frameEncode_eq_error.mp he).2
  · exact frameEncode_eq_ok.mpr ⟨hp, rfl⟩
  · exact ⟨_, (frameEncode_eq_ok.mp hw).2, flag_not_mem_stuff hc _⟩

/-! ### `decode` of a wire frame -/

/-- Between two delimiters `decode` destuffs the interior, which fails with `FramingError` only, and checks the body
(R111). -/
theorem frameDecode_delimited (c : Config) (w : List Byte) :
    frameDecode c ([c.flag] ++ w ++ [c.flag]) = (unstuff c w).bind (bodyDecode c) := by
  have hlast : ([c.flag] ++ w ++ [c.flag]).getLast? = some c.flag := List.getLast?_concat
  have hinner : (([c.flag] ++ w ++ [c.flag]).drop 1).dropLast = w := by simp
  rw [frameDecode, if_neg (by rw [hlast]; simp), hinner]
  cases h : unstuff c w with
  | error e => rw [unstuff_error h, Except.bind]
  | ok b => rw [Except.bind]

/-- `decode` of the wire frame around a body is the check of that body (R111 steps 3 to 6). -/
theorem frameDecode_wireFrame {c : Config} (hc : c.valid) (b : List Byte) :
    frameDecode c (wireFrame c b) = bodyDecode c b := by
  rw [wireFrame, frameDecode_delimited, unstuff_stuff hc, Except.bind]

/-- The payload length a body declares (R75). -/
def declaredLength (c : Config) (b : List Byte) : Nat := (b.getD (c.headerLen - 1) 0).toNat

/-- What `decode` reads from a body that passes its checks (R111 step 6). -/
def responseOf (c : Config) (b : List Byte) : Response where
  adr := b.getD 0 0
  cmd := b.getD 1 0
  status := if c.rxHasState then b.getD 2 0 else 0x00
  payload := (b.drop c.headerLen).take (declaredLength c b)

section Body

variable {c : Config} {b : List Byte}

theorem bodyDecode_short (h : b.length < c.headerLen + 1) : bodyDecode c b = .error .truncatedFrameError := if_pos h

theorem bodyDecode_badSum (h : c.headerLen + 1 ≤ b.length) (hs : sum8 b ≠ 0xFF) :
    bodyDecode c b = .error .checksumError := by
  rw [bodyDecode, if_neg (by omega), if_pos hs]

theorem bodyDecode_tooFew (h : c.headerLen + 1 ≤ b.length) (hs : sum8 b = 0xFF)
    (hl : b.length < c.headerLen + 1 + declaredLength c b) : bodyDecode c b = .error .truncatedFrameError := by
  rw [bodyDecode, if_neg (by omega), if_neg (not_not.mpr hs)]
  exact if_pos hl

theorem bodyDecode_tooMany (h : c.headerLen + 1 ≤ b.length) (hs : sum8 b = 0xFF)
    (hl : c.headerLen + 1 + declaredLength c b < b.length) : bodyDecode c b = .error .framingError := by
  rw [bodyDecode, if_neg (by omega), if_neg (not_not.mpr hs)]
  exact (if_neg (by unfold declaredLength at hl; omega)).trans (if_pos hl)

theorem bodyDecode_good (hs : sum8 b = 0xFF) (hl : b.length = c.headerLen + 1 + declaredLength c b) :
    bodyDecode c b = .ok (responseOf c b) := by
  rw [bodyDecode, if_neg (by omega), if_neg (not_not.mpr hs)]
  exact (if_neg (Nat.not_lt.mpr hl.ge)).trans (if_neg (Nat.not_lt.mpr hl.le))

/-- A body that `decode` accepts is long enough and has a good sum. -/
theorem good_of_bodyDecode {r : Response} (h : bodyDecode c b = .ok r) :
    c.headerLen + 1 ≤ b.length ∧ sum8 b = 0xFF := by
  by_cases hl : b.length < c.headerLen + 1
  · rw [bodyDecode_short hl] at h
    cases h
  · refine ⟨Nat.not_lt.mp hl, by_contra fun hs => ?_⟩
    rw [bodyDecode_badSum (Nat.not_lt.mp hl) hs] at h
    cases h

/-- `decode` accepts every header that declares its payload, followed by the payload and the checksum (R75, R111). -/
theorem bodyDecode_header {hdr p : List Byte} (hh : hdr.length = c.headerLen)
    (hp : (hdr.getD (c.headerLen - 1) 0).toNat = p.length) :
    bodyDecode c (hdr ++ p ++ [chk (hdr ++ p)]) =
      .ok ⟨hdr.getD 0 0, hdr.getD 1 0, if c.rxHasState then hdr.getD 2 0 else 0x00, p⟩ := by
  have hlen := headerLen_cases c
  have field : ∀ k, k < c.headerLen → (hdr ++ p ++ [chk (hdr ++ p)]).getD k 0 = hdr.getD k 0 := by
    intro k hk
    rw [List.append_assoc]
    exact List.getD_append _ _ _ _ (by omega)
  have hdecl : declaredLength c (hdr ++ p ++ [chk (hdr ++ p)]) = p.length := by
    rw [declaredLength, field _ (by omega), hp]
  have hpay : ((hdr ++ p ++ [chk (hdr ++ p)]).drop c.headerLen).take p.length = p := by
    rw [List.append_assoc, ← hh, List.drop_left, List.take_left]
  rw [bodyDecode_good (sum8_append_chk _) (by rw [hdecl]; simp [hh]; omega), responseOf, hdecl, hpay,
    field 0 (by omega), field 1 (by omega)]
  by_cases hs : c.rxHasState = true
  · have h4 : c.headerLen = 4 := by simp [Config.headerLen, hs]
    rw [field 2 (by omega)]
  · simp [hs]

end Body

/-- A length byte holds every payload length up to 255 (R71). -/
theorem lengthByte_toNat {p : List Byte} (hp : p.length ≤ 255) : (BitVec.ofNat 8 p.length).toNat = p.length := by
  rw [BitVec.toNat_ofNat]
  omega

/-- A five-field response decodes, with status 0x00 (R75). -/
theorem frameDecode_fiveFields {c : Config} (hc : c.valid) (hs : c.rxHasState = false) (adr cmd : Byte) {p : List Byte}
    (hp : p.length ≤ 255) :
    let hdr := [adr, cmd, BitVec.ofNat 8 p.length] ++ p
    frameDecode c (wireFrame c (hdr ++ [chk hdr])) = .ok ⟨adr, cmd, 0x00, p⟩ := by
  have h3 : c.headerLen = 3 := by simp [Config.headerLen, hs]
  intro hdr
  have hbody := bodyDecode_header (c := c) (hdr := [adr, cmd, BitVec.ofNat 8 p.length]) h3.symm
    (by rw [h3]; exact lengthByte_toNat hp)
  rw [hs] at hbody
  exact (frameDecode_wireFrame hc _).trans hbody

/-- A six-field response decodes, with its state byte as the status (R75). -/
theorem frameDecode_sixFields {c : Config} (hc : c.valid) (hs : c.rxHasState = true) (adr cmd st : Byte)
    {p : List Byte} (hp : p.length ≤ 255) :
    let hdr := [adr, cmd, st, BitVec.ofNat 8 p.length] ++ p
    frameDecode c (wireFrame c (hdr ++ [chk hdr])) = .ok ⟨adr, cmd, st, p⟩ := by
  have h4 : c.headerLen = 4 := by simp [Config.headerLen, hs]
  intro hdr
  have hbody := bodyDecode_header (c := c) (hdr := [adr, cmd, st, BitVec.ofNat 8 p.length]) h4.symm
    (by rw [h4]; exact lengthByte_toNat hp)
  rw [hs] at hbody
  exact (frameDecode_wireFrame hc _).trans hbody

/-- Settles O8: a request is a five-field response from `ADDR`. With a state byte expected, the shortest request is one
byte short of a response. -/
theorem frameRoundTrip : Obligations.FrameRoundTrip := by
  refine ⟨fun c hc hs cmd p hp => ⟨_, frameEncode_eq_ok.mpr ⟨hp, rfl⟩, frameDecode_fiveFields hc hs c.addr cmd hp⟩, ?_⟩
  refine ⟨0x00, [], [0x7E, 0x00, 0x00, 0x00, 0xFF, 0x7E], by decide, by decide, fun r hr => ?_⟩
  have hshort : frameDecode { Config.standard with rxHasState := true } [0x7E, 0x00, 0x00, 0x00, 0xFF, 0x7E] =
    .error .truncatedFrameError := by decide
  rw [hshort] at hr
  cases hr

/-! ### Damaged frames -/

/-- One changed byte changes the sum. -/
theorem sum8_set_ne {b : List Byte} {k : Nat} {v : Byte} (hk : k < b.length) (hv : b.getD k 0 ≠ v) :
    sum8 (b.set k v) ≠ sum8 b := by
  induction b generalizing k with
  | nil => simp at hk
  | cons x b ih =>
    cases k with
    | zero =>
      rw [List.set_cons_zero, sum8_cons, sum8_cons]
      exact fun h => hv (add_right_cancel h).symm
    | succ k =>
      rw [List.set_cons_succ, sum8_cons, sum8_cons]
      exact fun h => ih (by simpa using hk) hv (add_left_cancel h)

/-- Settles O9: the good body sums to 0xFF, so the changed one, as long, does not. -/
theorem oneChangedBodyByteIsChecksumError : Obligations.OneChangedBodyByteIsChecksumError := by
  intro c hc b r h k v hk hv
  rw [frameDecode_wireFrame hc] at h ⊢
  obtain ⟨hlen, hsum⟩ := good_of_bodyDecode h
  exact bodyDecode_badSum (by rwa [List.length_set]) (hsum ▸ sum8_set_ne (by omega) hv)

/-- What follows the length byte of the misread body of R112 (d): as many zeros as that byte, the payload's first,
declares. -/
def misreadRest : List Byte := List.replicate 93 0x00

/-- The payload of R112 (d): with `ESC` for the command code of its request, the length byte 0x5E is read as the escaped
command code 0x7E, and the payload's first byte as the length. -/
def misreadPayload : List Byte := 0x5D :: misreadRest

/-- The body so misread, before its checksum. -/
def misreadHead : List Byte := [0x00, 0x7E, 0x5D] ++ misreadRest

theorem misreadRest_length : misreadRest.length = 93 := List.length_replicate

theorem misreadPayload_length : misreadPayload.length = 94 := congrArg (· + 1) misreadRest_length

theorem misreadRest_sum8 : sum8 misreadRest = 0x00 := sum8_replicate 93 0x00

theorem misreadRest_stuff : stuff Config.standard misreadRest = misreadRest :=
  stuff_of_plain fun b hb => by rw [List.eq_of_mem_replicate hb]; decide

/-- The two bodies have one checksum. -/
theorem misread_chk : chk (requestHead Config.standard 0x20 misreadPayload) = 0x24 ∧ chk misreadHead = 0x24 := by
  rw [chk, chk, requestHead, misreadPayload_length, misreadPayload, misreadHead]
  simp only [sum8_append, sum8_cons, sum8_nil, misreadRest_sum8]
  decide

/-- The changed request is the wire frame of the body misread. -/
theorem misread_wireFrame :
    (wireFrame Config.standard (requestBody Config.standard 0x20 misreadPayload)).set 2 0x7D =
      wireFrame Config.standard (misreadHead ++ [chk misreadHead]) := by
  obtain ⟨hreq, hmis⟩ := misread_chk
  have hbody : requestBody Config.standard 0x20 misreadPayload = [0x00, 0x20, 0x5E, 0x5D] ++ misreadRest ++ [0x24] := by
    rw [requestBody, hreq, requestHead, misreadPayload_length]
    rfl
  rw [hbody, hmis, misreadHead]
  simp only [wireFrame, stuff_append, misreadRest_stuff]
  generalize misreadRest = rest
  rfl

/-- Settles O10: each clause by the check of `decode` it names. -/
theorem decodeCornerCases : Obligations.DecodeCornerCases := by
  refine ⟨fun c => ⟨by simp [frameDecode], by simp [frameDecode]⟩, fun c hc b hb => ?_, by decide, by decide,
    ⟨misreadPayload, _, frameEncode_eq_ok.mpr ⟨by rw [misreadPayload_length]; decide, rfl⟩, ?_⟩,
    fun c hc hs adr cmd p => frameDecode_fiveFields hc hs adr cmd,
    fun c hc hs adr cmd st p => frameDecode_sixFields hc hs adr cmd st⟩
  · rw [frameDecode_wireFrame hc, bodyDecode_short hb]
  · rw [misread_wireFrame, frameDecode_wireFrame (by decide)]
    exact bodyDecode_header (hdr := [0x00, 0x7E, 0x5D]) rfl (by rw [misreadRest_length]; rfl)

/-! ### The function units -/

/-- Settles O11: a function unit's step is the pure function, put on its output port. -/
theorem functionUnitsAreTotalAndPure : Obligations.FunctionUnitsAreTotalAndPure :=
  ⟨fun _ _ _ => ⟨_, rfl, rfl, rfl⟩, fun _ _ => ⟨_, rfl, rfl, rfl⟩⟩

end Sys2Proof.Machine
end

section
/-! PROOFS. `collect`: what it records and how a read phase can stand (R118). -/

namespace Sys2Proof.Machine

theorem collectFrom_byte (c : Config) (rec : List Byte) (b : Byte) (events : List RxEvent) :
    collectFrom c rec (.byte b :: events) =
      if b = c.flag ∧ (rec ++ [b]).count c.flag = 2 then .frame (rec ++ [b]) events
      else collectFrom c (rec ++ [b]) events := rfl

/-- Every byte is recorded, and before the second `FLAG` none ends the read phase. -/
theorem collectFrom_bytes {c : Config} {rec w : List Byte} (h : (rec ++ w).count c.flag < 2) (events : List RxEvent) :
    collectFrom c rec (w.map .byte ++ events) = collectFrom c (rec ++ w) events := by
  induction w generalizing rec with
  | nil => simp
  | cons b w ih =>
    rw [List.append_cons] at h ⊢
    have hb : (rec ++ [b]).count c.flag < 2 := by
      rw [List.count_append] at h
      omega
    rw [List.map_cons, List.cons_append, collectFrom_byte, if_neg (by omega), ih h]

/-- How a read phase that has recorded `rec`, with fewer than two `FLAG` bytes in it, stands when `tail` is what comes
next and is no byte to be recorded before the end. -/
inductive ReadEnd (c : Config) (rec : List Byte) : List RxEvent → Collected → Prop where
  | waiting : ReadEnd c rec [] (.waiting rec)
  | timeout (left : List RxEvent) :
      ReadEnd c rec (.timeout :: left) (.failed (if rec = [] then .timeoutError else .truncatedFrameError) left)
  | fault (left : List RxEvent) : ReadEnd c rec (.fault :: left) (.failed .transportError left)
  | secondFlag (h : rec.count c.flag = 1) (left : List RxEvent) :
      ReadEnd c rec (.byte c.flag :: left) (.frame (rec ++ [c.flag]) left)

/-- The phase stands so before any further byte is recorded. -/
theorem ReadEnd.atOnce {c : Config} {rec : List Byte} {tail : List RxEvent} {r : Collected}
    (hend : ReadEnd c rec tail r) (h : rec.count c.flag < 2) :
    ∃ w tail', tail = w.map .byte ++ tail' ∧ (rec ++ w).count c.flag < 2 ∧ ReadEnd c (rec ++ w) tail' r :=
  ⟨[], _, rfl, by rwa [List.append_nil], by rwa [List.append_nil]⟩

/-- All `collect` can come to: it records bytes, and then the phase stands in one of the ways of `ReadEnd`. -/
theorem collectFrom_cases {c : Config} {rec : List Byte} (h : rec.count c.flag < 2) (events : List RxEvent) :
    ∃ w tail, events = w.map .byte ++ tail ∧ (rec ++ w).count c.flag < 2 ∧
      ReadEnd c (rec ++ w) tail (collectFrom c rec events) := by
  induction events generalizing rec with
  | nil => exact ReadEnd.waiting.atOnce h
  | cons e events ih =>
    cases e with
    | timeout => exact (ReadEnd.timeout events).atOnce h
    | fault => exact (ReadEnd.fault events).atOnce h
    | byte b =>
      have hcount : (rec ++ [b]).count c.flag = rec.count c.flag + if b = c.flag then 1 else 0 := by
        simp [List.count_append, List.count_singleton]
      rw [collectFrom_byte]
      split
      · rename_i hb
        obtain ⟨rfl, h2⟩ := hb
        have h1 : rec.count c.flag = 1 := by simpa using hcount.symm.trans h2
        exact (ReadEnd.secondFlag h1 events).atOnce h
      · rename_i hb
        have hlt : (rec ++ [b]).count c.flag < 2 := by
          split at hcount
          · have := mt (And.intro ‹_›) hb
            omega
          · omega
        obtain ⟨w, tail, rfl, hw, hend⟩ := ih hlt
        rw [← List.append_cons] at hw hend
        exact ⟨b :: w, tail, rfl, hw, hend⟩

theorem collect_cases (c : Config) (events : List RxEvent) :
    ∃ rec tail, events = rec.map .byte ++ tail ∧ rec.count c.flag < 2 ∧ ReadEnd c rec tail (collect c events) :=
  collectFrom_cases (rec := []) (by simp) events

/-- What `collect` records of a frame ends in the second `FLAG`, which is where the events were left. -/
theorem collect_eq_frame {c : Config} {events left : List RxEvent} {rec : List Byte} :
    collect c events = .frame rec left ↔
      ∃ w, rec = w ++ [c.flag] ∧ w.count c.flag = 1 ∧ events = w.map .byte ++ .byte c.flag :: left := by
  constructor
  · intro h
    obtain ⟨w, tail, he, _, hend⟩ := collect_cases c events
    rw [h] at hend
    cases hend with
    | secondFlag h1 => exact ⟨w, rfl, h1, he⟩
  · rintro ⟨w, rfl, h1, rfl⟩
    have h2 : (w ++ [c.flag]).count c.flag = 2 := by simp [h1]
    rw [collect, collectFrom_bytes (by simp [h1]), List.nil_append, collectFrom_byte, if_pos ⟨rfl, h2⟩]

/-- Settles O12: the bytes before the second `FLAG` are recorded, and what comes then ends the phase. -/
theorem collectEndsAtSecondFlag : Obligations.CollectEndsAtSecondFlag := by
  refine ⟨fun c events left rec => ?_, fun c rec left h => ?_⟩
  · rw [collect_eq_frame]
    constructor
    · rintro ⟨w, rfl, h1, rfl⟩
      exact ⟨by simp, by simp [h1], List.getLast?_concat⟩
    · rintro ⟨rfl, h2, hlast⟩
      obtain ⟨w, rfl⟩ := List.getLast?_eq_some_iff.mp hlast
      exact ⟨w, rfl, by simpa using h2, by simp⟩
  · rw [collect, collect, collectFrom_bytes h, collectFrom_bytes h]
    exact ⟨rfl, rfl⟩

end Sys2Proof.Machine
end

section
/-! PROOFS. Which operation a step runs, the `GO` step of every operation (R121), and the arrows of `PHASE` (R120). -/

namespace Sys2Proof.Machine

/-! ### The operation a step runs -/

/-- A busy block's own step is a step of the operation in flight (R158). -/
theorem blockStep_busy {s : State} {i : Instr} (hp : s.phase ≠ .idle) (hd : decodeSelector s.cap.op = .ok i) :
    blockStep s = exec i s := by
  rcases blockStep_cases s with ⟨h, _⟩ | ⟨_, j, hj, _, e⟩ | ⟨_, hop, _⟩
  · exact absurd h hp
  · cases hd.symm.trans hj
    exact e
  · have := (decodeSelector_ok hd).2.2
    omega

/-- Settles O15: each input is the next thing that happens; a `GO` starts the operation `OP` selects, the block's own
step is of the one `c_op` selects. -/
theorem stepRunsTheDecodedOperation : Obligations.StepRunsTheDecodedOperation := by
  refine ⟨fun s i rest hp h hd => ?_, fun s i hp h hd => step_busy hp h hd, fun s i rest hp h hd => ?_,
    fun s i rest hp hdone h hd => ?_, fun s u rest h => by simp only [step, nextStep, h, takeInput]⟩
  · exact (step_go h).trans (hostGo_of_selector (s := s.withInputs rest) hp (decodeSelector_ok hd).2.1)
  · simp only [step, nextStep, h, takeInput]
    exact blockStep_busy (s := s.withInputs rest) hp hd
  · simp only [step, nextStep, h, hdone]
    exact blockStep_busy hp hd

/-! ### The `GO` step -/

/-- The state a `GO` step leaves in `TX`: these captured operands, this `TXP`, a fresh transmit machine (R121). -/
def inTx (sel : BitVec 4) (cmd : Byte) (len : BitVec 9) (txp : Memory) (s : State) : State :=
  { built sel cmd len txp s with phase := .tx, tx := TxMachine.fresh }

/-- Settles O26: the build of each of the eight has an empty payload, which leaves `TXP` as it is. -/
theorem goStepOfEmptyPayloadOperations : Obligations.GoStepOfEmptyPayloadOperations := by
  intro s i sel cc hmem hp
  have empty : ∀ sel cmd, goTyped sel cmd [] s = inTx sel cmd 0 s.txp s := fun sel cmd =>
    goTyped_eq sel cmd [] (by decide) s
  suffices h : i.hostInvocable = true ∧ goOf i s = goTyped sel cc [] s from
    ⟨_, (exec_by_phase h.1 s).1 hp, h.2.trans (empty sel cc)⟩
  simp only [List.mem_cons, List.not_mem_nil, or_false, Prod.mk.injEq] at hmem
  rcases hmem with ⟨rfl, rfl, rfl⟩ | ⟨rfl, rfl, rfl⟩ | ⟨rfl, rfl, rfl⟩ | ⟨rfl, rfl, rfl⟩ | ⟨rfl, rfl, rfl⟩ |
    ⟨rfl, rfl, rfl⟩ | ⟨rfl, rfl, rfl⟩ | ⟨rfl, rfl, rfl⟩ <;> exact ⟨rfl, rfl⟩

/-- The four bytes of a 32-bit value, most significant first (R82, R84). -/
theorem bytes32_eq (v : BitVec 32) : bytes32 v =
    [BitVec.ofNat 8 (v.toNat / 2 ^ 24), BitVec.ofNat 8 (v.toNat / 2 ^ 16), BitVec.ofNat 8 (v.toNat / 2 ^ 8),
      BitVec.ofNat 8 v.toNat] := by
  simp only [bytes32, BitVec.extractLsb', Nat.shiftRight_eq_div_pow, Nat.pow_zero, Nat.div_one]

/-- `TXP` after the build of a payload: the payload from index 0 up, above it what it held (R121). -/
theorem txpByte_inTx (sel : BitVec 4) (cmd : Byte) (len : BitVec 9) (p : List Byte) (s : State) (a : Nat) :
    (inTx sel cmd len (s.txp.setAll 0 p) s).txpByte a = if a < p.length then p.getD a 0 else s.txpByte a := by
  have htxp : (inTx sel cmd len (s.txp.setAll 0 p) s).txp = s.txp.setAll 0 p := rfl
  rw [State.txpByte, htxp, Memory.get?_setAll]
  by_cases h : a < p.length
  · simp [h]
  · simp [h, State.txpByte]

/-- Settles O27: the build of each of the three puts its payload in `TXP` from index 0 up. -/
theorem goStepOfPayloadOperations : Obligations.GoStepOfPayloadOperations := by
  intro s i sel cc payload hmem hp
  suffices h : i.hostInvocable = true ∧ payload.length ≤ maxPayload ∧ goOf i s = goTyped sel cc payload s by
    obtain ⟨hi, hlen, hgo⟩ := h
    exact ⟨inTx sel cc _ (s.txp.setAll 0 payload) s,
      ((exec_by_phase hi s).1 hp).trans (congrArg _ (hgo.trans (goTyped_eq sel cc payload hlen s))),
      txpByte_inTx _ _ _ payload s, rfl⟩
  simp only [List.mem_cons, List.not_mem_nil, or_false, Prod.mk.injEq] at hmem
  rcases hmem with ⟨rfl, rfl, rfl, rfl⟩ | ⟨rfl, rfl, rfl, rfl⟩ | ⟨rfl, rfl, rfl, rfl⟩
  · exact ⟨rfl, by simp [maxPayload], rfl⟩
  · exact ⟨rfl, by simp [maxPayload], by rw [← bytes32_eq]; rfl⟩
  · exact ⟨rfl, by simp [maxPayload], rfl⟩

/-- Settles O28: the two ends of the `GO` step, on `ARG_CMD`, `ARG_LEN` and `TXP` as they are. -/
theorem goStepOfXchg : Obligations.GoStepOfXchg := by
  intro s hp
  have hexec := (exec_by_phase (i := .xchg) rfl s).1 hp
  have hgo := goStep_cases 11 s.opnd.argCmd s.opnd.argLen s.txp s
  simp only [maxPayload] at hgo
  refine ⟨fun h => ⟨_, hexec, ?_⟩, fun h => ⟨_, hexec, ?_⟩⟩
  · rcases hgo with ⟨hl, _⟩ | ⟨_, e⟩
    · omega
    · exact e
  · rcases hgo with ⟨_, e⟩ | ⟨hl, _⟩
    · rw [show goOf .xchg s = _ from e]
      exact ⟨⟨rfl, rfl, rfl⟩, by rw [hp]; rfl⟩
    · omega

/-! ### The arrows of `PHASE` -/

/-- How a step may move `PHASE` (R120): not at all, by the `GO` step into `TX`, from `TX` into `RX`, or by a `finish`
into IDLE. -/
inductive Arrow (s t : State) : Prop where
  | stays (h : t.phase = s.phase)
  | go (hs : s.phase = .idle) (ht : t.phase = .tx) (hdone : t.done = false) (herr : t.err = none)
  | sent (hs : s.phase = .tx) (ht : t.phase = .rx)
  | finished (ht : t.phase = .idle) (hdone : t.done = true)

/-- Every step of an operation moves `PHASE` along an arrow. -/
theorem OpStep.arrow {i : Instr} {s t : State} (hst : OpStep i s t) : Arrow s t := by
  cases hst with
  | unit | waits | txByte | rxByte | rxPush => subst t; exact .stays rfl
  | goRefused | txFault | rxFail => subst t; exact .finished rfl rfl
  | go _ hp => subst t; exact .go hp rfl rfl rfl
  | txEnd _ hp => subst t; exact .sent hp rfl
  | rxGood hi _ rest _ _ _ _ _ _ _ ht =>
    obtain ⟨_, _, _, _, _, _, _, _, _, hphase, hdone, _⟩ := postOf_frame hi (atEnd s rest)
    exact .finished (ht ▸ hphase) (ht ▸ hdone)

/-- So does every step of the machine but the reset event. -/
theorem arrow_of_step {s t : State} (h : step s = .next t) :
    Arrow s t ∨ t.phase = .idle ∧ ∃ rest, s.out.inputs = .resetEvent :: rest := by
  have op : ∀ {is i}, exec i (s.withInputs is) = .next t → Arrow s t := fun e => by
    obtain h | ⟨hs, ht, hd, he⟩ | ⟨hs, ht⟩ | ⟨ht, hd⟩ := (exec_opStep e).arrow
    exacts [.stays h, .go hs ht hd he, .sent hs ht, .finished ht hd]
  rcases step_cases h with ⟨is, rfl⟩ | ⟨is, i, _, _, e⟩ | ⟨is, i, _, _, e⟩ | ⟨is, w, _, rfl⟩ | ⟨is, r, rfl⟩ |
    ⟨is, hin, rfl⟩ | ⟨is, u, e⟩
  · exact .inl (.stays rfl)
  · exact .inl (op e)
  · exact .inl (op e)
  · exact .inl (.stays (applyWrite_frame w _).2.1)
  · obtain ⟨d, n, e⟩ := hostRead_frame r (s.withInputs is)
    exact .inl (.stays (by rw [e]; rfl))
  · exact .inr ⟨rfl, _, hin⟩
  · exact .inl (op e)

/-- Settles O48: each arrow, and the reset event. -/
theorem phaseMovesOnlyAlongTheArrows : Obligations.PhaseMovesOnlyAlongTheArrows := by
  intro s t h
  rcases arrow_of_step h with (hsame | ⟨hs, ht, hdone, herr⟩ | ⟨hs, ht⟩ | ⟨ht, hdone⟩) | ⟨ht, hreset⟩
  · simp +contextual [hsame]
  · simp [hs, ht, hdone, herr]
  · simp [hs, ht]
  · simp [ht, hdone]
  · simp [ht, hreset]

end Sys2Proof.Machine
end

section
/-! PROOFS. The transmit machine: one accepted or faulted byte (R114, R122 to R124), and a whole transmit phase, which
offers the bytes of the encoded frame. -/

namespace Sys2Proof.Machine

/-! ### One byte -/

/-- The outside after an accepted byte `x`: the answer taken, the byte in the TX stream (R54, R116). -/
def acceptedOut (x : Byte) (rest : List TxAnswer) (s : State) : Outside :=
  { s.out with txAnswers := rest, txOut := s.out.txOut ++ [x] }

/-- An accepted byte is the one offered, and the machine advances (R116). -/
theorem txStep_accept {s : State} {rest : List TxAnswer} (ha : s.out.txAnswers = .accept :: rest) :
    txStep s = txAdvance { s with out := acceptedOut (txOffer s) rest s } := by
  simp only [txStep, ha, acceptedOut]

/-- A faulted byte is not sent and ends the operation (R114). -/
theorem txStep_fault {s : State} {rest : List TxAnswer} (ha : s.out.txAnswers = .fault :: rest) :
    txStep s = finish (some .transportError) { s with out := { s.out with txAnswers := rest } } := by
  simp only [txStep, ha]

theorem needsEscape_iff (s : State) :
    needsEscape s = true ↔ s.tx.escp = false ∧ (curByte s = s.cfg.flag ∨ curByte s = s.cfg.esc) := by
  rw [needsEscape, Bool.and_eq_true, Bool.not_eq_true', isReserved_iff]

/-- No escape is due: the current byte's `ESC` has been sent, or it is not reserved (R123). -/
theorem needsEscape_eq_false {s : State}
    (h : s.tx.escp = true ∨ (curByte s ≠ s.cfg.flag ∧ curByte s ≠ s.cfg.esc)) : needsEscape s = false := by
  rw [← Bool.not_eq_true, needsEscape_iff]
  rintro ⟨he, hr⟩
  rcases h with h | ⟨hf, hs⟩
  · simp [h] at he
  · exact hr.elim hf hs

section Advance

variable {s : State}

theorem txStep_sof {rest : List TxAnswer} (ha : s.out.txAnswers = .accept :: rest) (hpos : s.tx.pos = .sof) :
    txStep s = { s with tx := { s.tx with pos := .body }, out := acceptedOut s.cfg.flag rest s } := by
  rw [txStep_accept ha]
  simp only [txOffer, txAdvance, hpos]

theorem txStep_escape {rest : List TxAnswer} (ha : s.out.txAnswers = .accept :: rest) (hpos : s.tx.pos = .body)
    (he : needsEscape s = true) :
    txStep s = { s with tx := { s.tx with escp := true }, out := acceptedOut s.cfg.esc rest s } := by
  have same : ∀ o, needsEscape { s with out := o } = true := fun _ => he
  rw [txStep_accept ha]
  simp only [txOffer, txAdvance, hpos, same, if_true]

/-- A body byte as it goes over the wire once no `ESC` is due: transformed if its `ESC` has been sent (R123). -/
theorem txOffer_body (hpos : s.tx.pos = .body) (he : needsEscape s = false) :
    txOffer s = if s.tx.escp then curByte s ^^^ s.cfg.xorm else curByte s := by
  simp only [txOffer, hpos, he, Bool.false_eq_true, if_false]

theorem txStep_next {rest : List TxAnswer} (ha : s.out.txAnswers = .accept :: rest) (hpos : s.tx.pos = .body)
    (he : needsEscape s = false) (hi : s.tx.idx.toNat < 3 + s.cap.len.toNat) :
    txStep s = { s with
      tx := { s.tx with escp := false, sum := add8 s.tx.sum (curByte s), idx := s.tx.idx + 1 }
      out := acceptedOut (txOffer s) rest s } := by
  have same : ∀ o, needsEscape { s with out := o } = false := fun _ => he
  rw [txStep_accept ha]
  simp only [txAdvance, hpos, same, hi, Bool.false_eq_true, if_false, if_true]
  rfl

theorem txStep_last {rest : List TxAnswer} (ha : s.out.txAnswers = .accept :: rest) (hpos : s.tx.pos = .body)
    (he : needsEscape s = false) (hi : 3 + s.cap.len.toNat ≤ s.tx.idx.toNat) :
    txStep s = { s with tx := { s.tx with escp := false, pos := .eof }, out := acceptedOut (txOffer s) rest s } := by
  have same : ∀ o, needsEscape { s with out := o } = false := fun _ => he
  rw [txStep_accept ha]
  simp only [txAdvance, hpos, same, Nat.not_lt.mpr hi, Bool.false_eq_true, if_false]

end Advance

/-- Settles O30: the step at each `tx_pos`, split in the body by whether an `ESC` is due and the checksum reached. -/
theorem acceptedByteAdvancesTheTransmitMachine : Obligations.AcceptedByteAdvancesTheTransmitMachine := by
  intro s i rest hi hp ha sent cur
  rw [(exec_by_phase hi s).2.1 hp]
  refine ⟨fun hpos => congrArg _ (txStep_sof ha hpos), fun hpos hescp hr => ?_, fun hpos hplain x hx => ?_,
    fun hpos => congrArg _ (txStep_eof hpos ha)⟩
  · exact congrArg _ (txStep_escape ha hpos ((needsEscape_iff s).mpr ⟨hescp, hr⟩))
  · have he := needsEscape_eq_false hplain
    rw [← txOffer_body hpos he] at hx
    subst hx
    exact ⟨fun hlt => congrArg _ (txStep_next ha hpos he hlt), fun hle => congrArg _ (txStep_last ha hpos he hle)⟩

/-- Settles O31: a faulted byte takes its answer and finishes. -/
theorem writeFaultEndsTheOperation : Obligations.WriteFaultEndsTheOperation := by
  intro s i rest hi hp ha
  exact ⟨_, ((exec_by_phase hi s).2.1 hp).trans (congrArg _ (txStep_fault ha)), ⟨rfl, rfl, rfl⟩, rfl, rfl⟩

/-! ### A whole transmit phase -/

/-- With as many accepts as bytes, all are sent and the answers after them are left. -/
theorem offerAll_accepted (w : List Byte) (rest : List TxAnswer) :
    offerAll w (List.replicate w.length .accept ++ rest) = (w, rest, some true) := by
  induction w with
  | nil => rfl
  | cons x w ih => simp only [List.length_cons, List.replicate_succ, List.cons_append, offerAll, ih]

/-- How a transmit phase ends that sent these bytes and left these answers: with all accepted in `RX`, after a fault in
IDLE. -/
def afterTransmit (s : State) (tx : TxMachine) (sent : List Byte) (left : List TxAnswer) (all : Bool) : State :=
  let t := { s with tx := tx, out := { s.out with txAnswers := left, txOut := s.out.txOut ++ sent } }
  if all then { t with phase := .rx, rx := RxMachine.fresh } else finish (some .transportError) t

/-- While busy and with nothing to take from the outside, a step is a step of the operation in flight. -/
theorem State.Inv.step_busy {s : State} (h : s.Inv) (hp : s.phase ≠ .idle) (hin : s.out.inputs = []) :
    ∃ i, decodeSelector s.cap.op = .ok i ∧ i.hostInvocable = true ∧ step s = exec i s := by
  obtain ⟨i, hd⟩ := decodeSelector_total (h.captured hp).1
  exact ⟨i, hd, (decodeSelector_ok hd).1, Machine.step_busy hp hin hd⟩

/-- A step in `TX` is a transmit step. -/
theorem State.Inv.step_tx {s : State} (h : s.Inv) (hp : s.phase = .tx) (hin : s.out.inputs = []) :
    step s = .next (txStep s) := by
  obtain ⟨i, _, hi, e⟩ := h.step_busy (by simp [hp]) hin
  exact e.trans ((exec_by_phase hi s).2.1 hp)

/-- The transmit machine offers the bytes it owes, one a step, until all are accepted or one is faulted
(R113 step 2). -/
theorem run_transmit {s : State} (h : s.Inv) (hp : s.phase = .tx) (hin : s.out.inputs = []) {sent : List Byte}
    {left : List TxAnswer} {all : Bool} (ho : offerAll (owedBytes s) s.out.txAnswers = (sent, left, some all)) :
    ∃ tx, Sys2Proof.core.run (sent.length + if all then 0 else 1) s = .next (afterTransmit s tx sent left all) := by
  generalize hw : owedBytes s = w at ho
  induction w generalizing s sent with
  | nil =>
    rcases txAdvance_owed h hp s.out with ⟨hlast, _⟩ | ⟨hmore, _⟩
    · simp [hw] at hlast
    · simp [hw] at hmore
  | cons x w ih =>
    rw [offerAll_cons] at ho
    rcases ha : s.out.txAnswers with _ | ⟨_ | _, rest⟩
    · simp [ha] at ho
    · have hstep := h.step_tx hp hin
      rw [txStep_accept ha] at hstep
      rcases hrest : offerAll w rest with ⟨sent', left', r⟩
      simp only [ha, hrest, Prod.mk.injEq] at ho
      obtain ⟨rfl, rfl, rfl⟩ := ho
      rcases txAdvance_owed h hp (acceptedOut (txOffer s) rest s) with ⟨hlast, e⟩ | ⟨hmore, htx, e⟩
      · obtain ⟨rfl, rfl⟩ := List.cons.inj (hw.symm.trans hlast)
        cases hrest
        exact ⟨s.tx, (core_run_step (n := 0) hstep).trans (congrArg _ e)⟩
      · obtain ⟨rfl, hw'⟩ := List.cons.inj (hw.symm.trans hmore)
        generalize txAdvance { s with out := acceptedOut (txOffer s) rest s } = t at hstep htx e hw'
        have hout : t.out = acceptedOut (txOffer s) rest s := congrArg State.out e
        obtain ⟨tx, hrun⟩ := ih (invariantKeptByEveryStep s t h hstep) htx (by rw [hout]; exact hin) hw'.symm
          (by rw [hout]; exact hrest)
        refine ⟨tx, ?_⟩
        rw [List.length_cons, Nat.add_right_comm, core_run_step hstep, hrun, e]
        simp only [afterTransmit, acceptedOut, List.append_assoc, List.singleton_append]
    · have hstep := h.step_tx hp hin
      rw [txStep_fault ha] at hstep
      simp only [ha, Prod.mk.injEq, Option.some.injEq] at ho
      obtain ⟨rfl, rfl, rfl⟩ := ho
      refine ⟨s.tx, (core_run_step (n := 0) hstep).trans ?_⟩
      rw [afterTransmit, List.append_nil]
      rfl

/-- Settles O33: a fresh transmit machine owes the encoded frame, and every byte of it is accepted. -/
theorem transmitPhaseSendsEncode : Obligations.TransmitPhaseSendsEncode := by
  intro s w rest h hp hfresh hin hw ha
  have hlen : s.cap.len.toNat ≤ 255 := (h.captured (by simp [hp])).2
  have ho : offerAll (owedBytes s) s.out.txAnswers = (w, rest, some true) := by
    rw [owedBytes_fresh hfresh hlen hw, ha, offerAll_accepted]
  obtain ⟨tx, hrun⟩ := run_transmit h hp hin ho
  exact ⟨_, hrun, rfl, rfl, rfl⟩

end Sys2Proof.Machine
end

section
/-! PROOFS. The receive machine: one event in `RX` (R125, R126) and the evaluation at the second `FLAG` (R127). -/

namespace Sys2Proof.Machine

/-! ### The event taken -/

/-- The state with the next event of the RX stream taken (R59). -/
def afterEvent (rest : List RxEvent) (s : State) : State := { s with out := { s.out with rxEvents := rest } }

theorem rxStep_byte (post : State → State) {s : State} {b : Byte} {rest : List RxEvent}
    (h : s.out.rxEvents = .byte b :: rest) : rxStep post s = rxByte post b (afterEvent rest s) := by
  simp only [rxStep, h, afterEvent]

theorem rxStep_timeout (post : State → State) {s : State} {rest : List RxEvent}
    (h : s.out.rxEvents = .timeout :: rest) :
    rxStep post s = finish (some (if s.rx.any then .truncatedFrameError else .timeoutError)) (afterEvent rest s) := by
  simp only [rxStep, h, afterEvent]

theorem rxStep_fault (post : State → State) {s : State} {rest : List RxEvent} (h : s.out.rxEvents = .fault :: rest) :
    rxStep post s = finish (some .transportError) (afterEvent rest s) := by
  simp only [rxStep, h, afterEvent]

/-- Settles O36: a fault or a timeout takes its event and finishes; only `rx_any` is looked at. -/
theorem timeoutAndReadFaultEndTheOperation : Obligations.TimeoutAndReadFaultEndTheOperation := by
  intro s i rest hi hp
  rw [(exec_by_phase hi s).2.2 hp]
  refine ⟨fun h => congrArg _ (rxStep_fault _ h), fun h hany => congrArg _ ?_, fun h hany => congrArg _ ?_⟩
  · rw [rxStep_timeout _ h, hany]
    rfl
  · rw [rxStep_timeout _ h, hany]
    rfl

/-! ### One byte -/

section Byte

variable (post : State → State) {b : Byte} {s : State}

theorem rxByte_opening (ha : s.rx.any = false) (hb : b = s.cfg.flag) :
    rxByte post b s = { s with rx := { s.rx with any := true, flags := .one } } := by
  simp [rxByte, ha, hb]

theorem rxByte_badLead (ha : s.rx.any = false) (hb : b ≠ s.cfg.flag) :
    rxByte post b s = { s with rx := { s.rx with any := true, leadBad := true } } := by
  simp [rxByte, ha, hb]

theorem rxByte_lateFlag (ha : s.rx.any = true) (hb : b = s.cfg.flag) (hf : s.rx.flags = .zero) :
    rxByte post b s = { s with rx := { s.rx with flags := .one } } := by
  simp [rxByte, ha, hb, hf, FlagCount.succ]

theorem rxByte_dropped (ha : s.rx.any = true) (hb : b ≠ s.cfg.flag) (hl : s.rx.leadBad = true) :
    rxByte post b s = s := by
  simp [rxByte, ha, hb, hl]

/-- The second `FLAG` is counted and starts the evaluation. -/
theorem rxByte_closing (ha : s.rx.any = true) (hb : b = s.cfg.flag) (hf : s.rx.flags = .one) :
    rxByte post b s = evaluate post { s with rx := closedRx s } := by
  simp [rxByte, ha, hb, hf, FlagCount.succ, closedRx]

section Interior

variable (ha : s.rx.any = true) (hb : b ≠ s.cfg.flag) (hl : s.rx.leadBad = false) (hf : s.rx.flags = .one)
include ha hb hl hf

theorem rxByte_pair (he : s.rx.esc = true) (hd : isEscapedCode s.cfg b = true) :
    rxByte post b s = rxPush (b ^^^ s.cfg.xorm) { s with rx := { s.rx with esc := false } } := by
  simp [rxByte, ha, hb, hl, hf, he, hd]

theorem rxByte_badPair (he : s.rx.esc = true) (hd : isEscapedCode s.cfg b = false) :
    rxByte post b s = { s with rx := { s.rx with esc := false, ferr := true } } := by
  simp [rxByte, ha, hb, hl, hf, he, hd]

theorem rxByte_escape (he : s.rx.esc = false) (hd : b = s.cfg.esc) :
    rxByte post b s = { s with rx := { s.rx with esc := true } } := by
  subst hd
  simp [rxByte, ha, hb, hl, hf, he]

/-- A plain byte is pushed; no partner is awaited before or after. -/
theorem rxByte_plain (he : s.rx.esc = false) (hd : b ≠ s.cfg.esc) :
    rxByte post b s = rxPush b { s with rx := { s.rx with esc := false } } := by
  have same : { s with rx := { s.rx with esc := false } } = s := by rw [← he]
  rw [same]
  simp [rxByte, ha, hb, hl, hf, he, hd]

end Interior

end Byte

/-- `RXB` after a push: the byte at `rx_cnt` while the body fits, every other byte as it was (R125). -/
theorem rxbByte_rxPush (v : Byte) (s : State) (a : Nat) :
    (rxPush v s).rxbByte a = if a = s.rx.cnt.toNat ∧ a < s.cfg.maxBody then v else s.rxbByte a := by
  rw [State.rxbByte, rxPush_rxb]
  by_cases hfit : s.rx.cnt.toNat < s.cfg.maxBody
  · rw [if_pos hfit, Memory.get?_set]
    by_cases ha : a = s.rx.cnt.toNat
    · simp [ha, hfit]
    · simp [ha, State.rxbByte]
  · rw [if_neg hfit, if_neg (by rintro ⟨rfl, h⟩; exact hfit h), State.rxbByte]

/-- Settles O34: the step in each case of R125, and what a push stores. -/
theorem receivedByteAdvancesTheReceiveMachine : Obligations.ReceivedByteAdvancesTheReceiveMachine := by
  intro s i b rest hi hp h after pushes
  have hexec := (exec_by_phase hi s).2.2 hp
  rw [rxStep_byte _ h] at hexec
  have push : ∀ v, rxByte (postOf i) b (afterEvent rest s) =
      rxPush v { afterEvent rest s with rx := { s.rx with esc := false } } → pushes v := by
    intro v e
    exact ⟨_, hexec.trans (congrArg _ e), fun a => rxbByte_rxPush v _ a, rfl⟩
  refine ⟨fun ha hb => ?_, fun ha hb => ?_, fun ha hb hf => ?_, fun ha hb hl => ?_, fun ha hb hl hf =>
    ⟨fun he hd => push _ ?_, fun he h1 h2 => ?_, fun he hd => ?_, fun he hd => push _ ?_⟩⟩
  · exact hexec.trans (congrArg _ (rxByte_opening _ ha hb))
  · exact hexec.trans (congrArg _ (rxByte_badLead _ ha hb))
  · exact hexec.trans (congrArg _ (rxByte_lateFlag _ ha hb hf))
  · exact hexec.trans (congrArg _ (rxByte_dropped _ ha hb hl))
  · exact rxByte_pair _ ha hb hl hf he ((isEscapedCode_iff _ _).mpr hd)
  · have hd : isEscapedCode s.cfg b = false := by
      rw [← Bool.not_eq_true, isEscapedCode_iff]
      exact not_or.mpr ⟨h1, h2⟩
    exact hexec.trans (congrArg _ (rxByte_badPair _ ha hb hl hf he hd))
  · exact hexec.trans (congrArg _ (rxByte_escape _ ha hb hl hf he hd))
  · exact rxByte_plain _ ha hb hl hf he hd

/-! ### The evaluation -/

/-- The payload length the body in `RXB` declares (R127). -/
def State.declared (s : State) : Nat := (s.rxbByte (s.cfg.headerLen - 1)).toNat

section Evaluate

variable (post : State → State) {s : State}

theorem evaluate_badLead (hl : s.rx.leadBad = true) : evaluate post s = finish (some .framingError) s := if_pos hl

theorem evaluate_badEscape (hl : s.rx.leadBad = false) (h : s.rx.ferr = true ∨ s.rx.esc = true) :
    evaluate post s = finish (some .framingError) s := by
  rw [evaluate, if_neg (by simp [hl]), if_pos (by simpa using h)]

section Body

variable (hl : s.rx.leadBad = false) (hf : s.rx.ferr = false) (he : s.rx.esc = false)
include hl hf he

theorem evaluate_short (h : s.rx.cnt.toNat < s.cfg.headerLen + 1) :
    evaluate post s = finish (some .truncatedFrameError) s := by
  rw [evaluate, if_neg (by simp [hl]), if_neg (by simp [hf, he]), if_pos h]

theorem evaluate_badSum (h : s.cfg.headerLen + 1 ≤ s.rx.cnt.toNat) (hs : s.rx.sum ≠ 0xFF) :
    evaluate post s = finish (some .checksumError) s := by
  rw [evaluate, if_neg (by simp [hl]), if_neg (by simp [hf, he]), if_neg (Nat.not_lt.mpr h), if_pos hs]

theorem evaluate_tooFew (h : s.cfg.headerLen + 1 ≤ s.rx.cnt.toNat) (hs : s.rx.sum = 0xFF)
    (hd : s.rx.cnt.toNat < s.cfg.headerLen + 1 + s.declared) :
    evaluate post s = finish (some .truncatedFrameError) s := by
  rw [evaluate, if_neg (by simp [hl]), if_neg (by simp [hf, he]), if_neg (Nat.not_lt.mpr h),
    if_neg (not_not.mpr hs)]
  exact if_pos hd

theorem evaluate_tooMany (h : s.cfg.headerLen + 1 ≤ s.rx.cnt.toNat) (hs : s.rx.sum = 0xFF)
    (hd : s.cfg.headerLen + 1 + s.declared < s.rx.cnt.toNat) : evaluate post s = finish (some .framingError) s := by
  rw [evaluate, if_neg (by simp [hl]), if_neg (by simp [hf, he]), if_neg (Nat.not_lt.mpr h),
    if_neg (not_not.mpr hs)]
  exact (if_neg (Nat.not_lt.mpr hd.le)).trans (if_pos hd)

theorem evaluate_good (hs : s.rx.sum = 0xFF) (hd : s.rx.cnt.toNat = s.cfg.headerLen + 1 + s.declared) :
    evaluate post s = post (writeRaw s) := by
  rw [evaluate, if_neg (by simp [hl]), if_neg (by simp [hf, he]), if_neg (by omega), if_neg (not_not.mpr hs)]
  exact (if_neg (Nat.not_lt.mpr hd.ge)).trans (if_neg (Nat.not_lt.mpr hd.le))

end Body

end Evaluate

/-- The step that receives the second `FLAG` is the evaluation (R127). -/
theorem rxStep_closing (post : State → State) {s : State} {rest : List RxEvent}
    (h : s.out.rxEvents = .byte s.cfg.flag :: rest) (ha : s.rx.any = true) (hf : s.rx.flags = .one) :
    rxStep post s = evaluate post (afterEvent rest { s with rx := closedRx s }) :=
  (rxStep_byte post h).trans (rxByte_closing post (s := afterEvent rest s) ha rfl hf)

/-- Settles O35: the evaluation's checks in their order. -/
theorem secondFlagEvaluatesInOrder : Obligations.SecondFlagEvaluatesInOrder := by
  intro s i rest hi hp h ha hfl fails cnt declared
  have hexec := (exec_by_phase hi s).2.2 hp
  rw [rxStep_closing _ h ha hfl] at hexec
  have fail : ∀ {e}, evaluate (postOf i) (afterEvent rest { s with rx := closedRx s }) =
      finish (some e) (afterEvent rest { s with rx := closedRx s }) → fails e :=
    fun e => hexec.trans (congrArg _ e)
  refine ⟨fun hl => fail (evaluate_badLead _ hl), fun hl => ⟨fun hb => fail (evaluate_badEscape _ hl hb),
    fun hf he => ⟨fun hc => fail (evaluate_short _ hl hf he hc), fun hc hs => fail (evaluate_badSum _ hl hf he hc hs),
      fun hc hs => ⟨fun hd => fail (evaluate_tooFew _ hl hf he hc hs hd),
        fun hd => fail (evaluate_tooMany _ hl hf he hc hs hd), fun hd => ?_⟩⟩⟩⟩
  obtain ⟨_, _, _, _, hraw, _, _, _, _, hphase, hdone, herr⟩ := postOf_frame hi (atEnd s rest)
  refine ⟨_, hexec.trans (congrArg _ (evaluate_good _ hl hf he hs hd)), ⟨hphase, hdone, rfl⟩,
    herr.imp_right And.left, ?_⟩
  exact ⟨congrArg RawResult.adr hraw, congrArg RawResult.cmd hraw, congrArg RawResult.status hraw,
    congrArg RawResult.len hraw⟩

/-- Settles O45: the post-processing of `XCHG` is a good `finish`. -/
theorem xchgCompletes : Obligations.XchgCompletes := fun _ _ _ h =>
  ⟨_, exec_of_good_frame h rfl, ⟨rfl, rfl, rfl⟩, rfl, rfl, fun _ => rfl, rfl, rfl, rfl, rfl, rfl, fun _ => rfl,
    fun _ => rfl, rfl⟩

end Sys2Proof.Machine
end

section
/-! PROOFS. A whole read phase: the receive machine computes `decode` of what `collect` records (R115, R118, R127). -/

namespace Sys2Proof.Machine

/-! ### The evaluation of a destuffed body -/

/-- The raw result registers and `RXP` report a response (R32, R33). -/
structure State.Reports (s : State) (r : Response) : Prop where
  raw : s.raw = r.raw
  payload : s.rxpBytes r.payload.length = r.payload
  length : r.payload.length ≤ 255

/-- `RXB` holds the destuffed body as far as it fits. -/
theorem holdsDestuffed.rxbByte {s : State} {d : Destuffed} (h : holdsDestuffed s d) {a : Nat}
    (ha : a < d.body.length) (hm : a < s.cfg.maxBody) : s.rxbByte a = d.body.getD a 0 := by
  obtain ⟨_, _, _, _, hbytes⟩ := h
  rw [State.rxbByte, hbytes a ha hm]
  simp [ha]

/-- A body that passes every check of `decode` is stored whole, so the registers report what `decode` reads of it. -/
theorem writeRaw_reports {s : State} {d : Destuffed} (h : holdsDestuffed s d)
    (hl : d.body.length = s.cfg.headerLen + 1 + declaredLength s.cfg d.body) :
    (writeRaw s).Reports (responseOf s.cfg d.body) := by
  have hlen := headerLen_cases s.cfg
  have hdecl : declaredLength s.cfg d.body < 256 := (d.body.getD (s.cfg.headerLen - 1) 0).isLt
  have hmax : s.cfg.maxBody = s.cfg.headerLen + 1 + 255 := rfl
  have hpay : (responseOf s.cfg d.body).payload.length = declaredLength s.cfg d.body := by
    simp only [responseOf, List.length_take, List.length_drop]
    omega
  have byte : ∀ a, a < s.cfg.headerLen + declaredLength s.cfg d.body → s.rxbByte a = d.body.getD a 0 :=
    fun a ha => h.rxbByte (by omega) (by omega)
  refine ⟨?_, ?_, by omega⟩
  · have hstatus : s.receivedStatus = (responseOf s.cfg d.body).status := by
      by_cases hs : s.cfg.rxHasState = true
      · have h4 : s.cfg.headerLen = 4 := by simp [Config.headerLen, hs]
        simp only [State.receivedStatus, responseOf, hs, byte 2 (by omega)]
      · simp [State.receivedStatus, responseOf, hs]
    have hlast : s.rxbByte (s.cfg.headerLen - 1) = BitVec.ofNat 8 (declaredLength s.cfg d.body) := by
      rw [byte _ (by omega), declaredLength, BitVec.ofNat_toNat, BitVec.setWidth_eq]
    rw [writeRaw_raw, State.receivedRaw, Response.raw, hpay, hstatus, hlast, byte 0 (by omega), byte 1 (by omega)]
    rfl
  · rw [hpay]
    apply List.ext_getElem
    · rw [hpay, State.rxpBytes, List.length_map, List.length_range]
    · intro k hk _
      have hk' : k < declaredLength s.cfg d.body := by simpa [State.rxpBytes] using hk
      have hbyte : (writeRaw s).rxpByte k = d.body.getD (s.cfg.headerLen + k) 0 := byte (s.cfg.headerLen + k) (by omega)
      simp only [State.rxpBytes, List.getElem_map, List.getElem_range, hbyte, responseOf, List.getElem_take,
        List.getElem_drop]
      exact List.getD_eq_getElem _ _ (by omega)

/-- The evaluation of a body without a bad escape pair makes the checks of `decode`, in their order (R111, R127). -/
theorem evaluate_eq_bodyDecode (post : State → State) {s : State} {d : Destuffed} (h : holdsDestuffed s d)
    (hlead : s.rx.leadBad = false) (hferr : d.ferr = false) (hesc : d.esc = false) :
    (∃ e, bodyDecode s.cfg d.body = .error e ∧ evaluate post s = finish (some e) s) ∨
    (∃ r, bodyDecode s.cfg d.body = .ok r ∧ evaluate post s = post (writeRaw s) ∧ (writeRaw s).Reports r) := by
  have hlen := headerLen_cases s.cfg
  have hmax : s.cfg.maxBody = s.cfg.headerLen + 1 + 255 := rfl
  obtain ⟨hesc', hferr', hcnt, hsum, _⟩ := id h
  rw [hesc] at hesc'
  rw [hferr] at hferr'
  by_cases hshort : d.body.length < s.cfg.headerLen + 1
  · exact .inl ⟨_, bodyDecode_short hshort, evaluate_short post hlead hferr' hesc' (by omega)⟩
  rw [not_lt] at hshort
  have hcnt1 : s.cfg.headerLen + 1 ≤ s.rx.cnt.toNat := by omega
  by_cases hs : sum8 d.body = 0xFF
  · have hs' : s.rx.sum = 0xFF := hsum.trans hs
    have hdecl : s.declared = declaredLength s.cfg d.body :=
      congrArg BitVec.toNat (h.rxbByte (by omega) (by omega))
    have hlt : declaredLength s.cfg d.body < 256 := (d.body.getD (s.cfg.headerLen - 1) 0).isLt
    rcases Nat.lt_trichotomy d.body.length (s.cfg.headerLen + 1 + declaredLength s.cfg d.body) with hl | hl | hl
    · exact .inl ⟨_, bodyDecode_tooFew hshort hs hl,
        evaluate_tooFew post hlead hferr' hesc' hcnt1 hs' (by omega)⟩
    · exact .inr ⟨_, bodyDecode_good hs hl, evaluate_good post hlead hferr' hesc' hs' (by omega), writeRaw_reports h hl⟩
    · exact .inl ⟨_, bodyDecode_tooMany hshort hs hl,
        evaluate_tooMany post hlead hferr' hesc' hcnt1 hs' (by omega)⟩
  · exact .inl ⟨_, bodyDecode_badSum hshort hs, evaluate_badSum post hlead hferr' hesc' hcnt1 (hsum ▸ hs)⟩

/-! ### The second `FLAG` -/

/-- A first byte other than `FLAG` is a framing error (R111). -/
theorem frameDecode_badLead {c : Config} {b : Byte} (hb : b ≠ c.flag) (w : List Byte) :
    frameDecode c (b :: w) = .error .framingError :=
  if_pos (.inr (.inl (by simpa using hb)))

/-- The step that receives the second `FLAG` computes `decode` of all the bytes received (R115, R127). -/
theorem rxStep_computes_decode (post : State → State) {s : State} (hc : s.cfg.valid) {rec : List Byte}
    (h : hasReceived s rec) (h1 : rec.count s.cfg.flag = 1) {left : List RxEvent}
    (hev : s.out.rxEvents = .byte s.cfg.flag :: left) :
    let u := afterEvent left { s with rx := closedRx s }
    (∃ e, frameDecode s.cfg (rec ++ [s.cfg.flag]) = .error e ∧ rxStep post s = finish (some e) u) ∨
    (∃ r, frameDecode s.cfg (rec ++ [s.cfg.flag]) = .ok r ∧ rxStep post s = post (writeRaw u) ∧
      (writeRaw u).Reports r) := by
  intro u
  rcases rec with _ | ⟨b, w⟩
  · simp at h1
  obtain ⟨hany, hbad, hgood⟩ := h
  by_cases hb : b = s.cfg.flag
  · subst hb
    obtain ⟨hlead, hflags, hold⟩ := hgood rfl
    have hw : s.cfg.flag ∉ w := by simpa [List.count_eq_zero] using h1
    have hframe : frameDecode s.cfg (s.cfg.flag :: w ++ [s.cfg.flag]) =
      (unstuff s.cfg w).bind (bodyDecode s.cfg) := frameDecode_delimited s.cfg w
    rw [rxStep_closing post hev hany hflags, hframe]
    rcases Destuffed.take_unstuff hc w.length w [] le_rfl hw with ⟨hesc, hferr, b, hbody, hun⟩ | ⟨hfail, e, hun⟩
    · rw [List.nil_append] at hbody
      subst hbody
      rw [hun]
      exact evaluate_eq_bodyDecode post (s := u) hold hlead hferr hesc
    · rw [hun, unstuff_error hun]
      refine .inl ⟨_, rfl, evaluate_badEscape post (s := u) hlead ?_⟩
      exact hfail.symm.imp hold.2.1.trans hold.1.trans
  · obtain ⟨hlead, hflags⟩ := hbad hb
    have hw : s.cfg.flag ∈ w := by
      rw [List.count_cons_of_ne hb] at h1
      exact List.count_pos_iff.mp (by omega)
    rw [if_pos hw] at hflags
    rw [rxStep_closing post hev hany hflags]
    exact .inl ⟨_, frameDecode_badLead hb _, evaluate_badLead post (s := u) hlead⟩

/-! ### The read phase -/

/-- The state with these contents of `RXB` and the receive machine and these events left. -/
def State.received (s : State) (m : Memory) (rx : RxMachine) (left : List RxEvent) : State :=
  { s with rxb := m, rx := rx, out := { s.out with rxEvents := left } }

section Read

variable {s : State} {i : Instr} (hp : s.phase = .rx) (hin : s.out.inputs = [])
  (hd : decodeSelector s.cap.op = .ok i)
include hp hin hd

/-- A step in `RX` is a receive step of the operation in flight. -/
theorem step_rx : step s = .next (rxStep (postOf i) s) :=
  (step_busy (by simp [hp]) hin hd).trans ((exec_by_phase (decodeSelector_ok hd).1 s).2.2 hp)

/-- The block takes the bytes before the second `FLAG` one a step, and stands as after all of them. -/
theorem run_bytes {rec w : List Byte} {tail : List RxEvent} (h : hasReceived s rec)
    (hcount : (rec ++ w).count s.cfg.flag < 2) (hev : s.out.rxEvents = w.map .byte ++ tail) :
    ∃ m rx, Sys2Proof.core.run w.length s = .next (s.received m rx tail) ∧
      hasReceived (s.received m rx tail) (rec ++ w) := by
  induction w generalizing s rec with
  | nil =>
    rw [List.map_nil, List.nil_append] at hev
    subst hev
    exact ⟨s.rxb, s.rx, rfl, by rwa [List.append_nil]⟩
  | cons b w ih =>
    rw [List.append_cons] at hcount ⊢
    have hb : (rec ++ [b]).count s.cfg.flag < 2 := by
      rw [List.count_append] at hcount
      omega
    have hstep := step_rx hp hin hd
    obtain ⟨h', e⟩ := rxStep_hasReceived h hev hb (postOf i)
    obtain ⟨m', rx', ht⟩ : ∃ m' rx', rxStep (postOf i) s = s.received m' rx' (w.map RxEvent.byte ++ tail) :=
      ⟨_, _, e⟩
    rw [ht] at hstep h'
    obtain ⟨m, rx, hrun, hend⟩ := ih (s := s.received m' rx' (w.map .byte ++ tail)) hp hin hd h' hcount rfl
    exact ⟨m, rx, (core_run_step hstep).trans hrun, hend⟩

/-- A read phase that `collect` ends with an error ends with it, and no result is written (R118, R126). -/
theorem run_read_failed (hfresh : s.rx = RxMachine.fresh) {e : ErrKind} {left : List RxEvent}
    (hcol : collect s.cfg s.out.rxEvents = .failed e left) :
    ∃ n m rx, Sys2Proof.core.run n s = .next (finish (some e) (s.received m rx left)) := by
  obtain ⟨w, tail, hev, hcount, hend⟩ := collect_cases s.cfg s.out.rxEvents
  obtain ⟨m, rx, hrun, hrec⟩ := run_bytes hp hin hd (rec := []) hfresh hcount hev
  have hstep := step_rx (s := s.received m rx tail) hp hin hd
  refine ⟨w.length + 1, m, rx, (core_run_add hrun).trans ((core_run_step (n := 0) hstep).trans (congrArg _ ?_))⟩
  rw [hcol] at hend
  cases hend with
  | timeout =>
    rw [rxStep_timeout _ rfl]
    cases w with
    | nil => rw [show (s.received m rx _).rx = _ from hrec]; rfl
    | cons b w => rw [hrec.1]; rfl
  | fault => exact rxStep_fault _ rfl

/-- A read phase that `collect` ends with a frame computes `decode` of it (R115, R127). -/
theorem run_read_frame (hc : s.cfg.valid) (hfresh : s.rx = RxMachine.fresh) {rec : List Byte} {left : List RxEvent}
    (hcol : collect s.cfg s.out.rxEvents = .frame rec left) :
    ∃ m rx, (∃ e, frameDecode s.cfg rec = .error e ∧
        Sys2Proof.core.run rec.length s = .next (finish (some e) (s.received m rx left))) ∨
      (∃ r, frameDecode s.cfg rec = .ok r ∧
        Sys2Proof.core.run rec.length s = .next (postOf i (writeRaw (s.received m rx left))) ∧
        (writeRaw (s.received m rx left)).Reports r) := by
  obtain ⟨w, rfl, h1, hev⟩ := collect_eq_frame.mp hcol
  obtain ⟨m, rx, hrun, hrec⟩ := run_bytes hp hin hd (rec := []) (w := w) hfresh (by simp [h1]) hev
  have hstep := step_rx (s := s.received m rx (.byte s.cfg.flag :: left)) hp hin hd
  have hlast : Sys2Proof.core.run (w ++ [s.cfg.flag]).length s =
      .next (rxStep (postOf i) (s.received m rx (.byte s.cfg.flag :: left))) := by
    rw [List.length_append]
    exact (core_run_add hrun).trans (core_run_step (n := 0) hstep)
  refine ⟨m, { rx with flags := .two }, ?_⟩
  rcases rxStep_computes_decode (postOf i) (s := s.received m rx _) hc hrec h1 rfl with
    ⟨e, hdec, ht⟩ | ⟨r, hdec, ht, hrep⟩
  · exact .inl ⟨e, hdec, hlast.trans (congrArg _ ht)⟩
  · exact .inr ⟨r, hdec, hlast.trans (congrArg _ ht), hrep⟩

end Read

/-- The post-processing leaves `RXP` as it is. -/
theorem postOf_rxpBytes {i : Instr} (hi : i.hostInvocable = true) (s : State) (n : Nat) :
    (postOf i s).rxpBytes n = s.rxpBytes n := by
  obtain ⟨hcfg, _, _, hrxb, _⟩ := postOf_frame hi s
  have hbyte : (postOf i s).rxpByte = s.rxpByte := funext fun k => by
    rw [State.rxpByte, State.rxbByte, hcfg, hrxb]
    rfl
  rw [State.rxpBytes, State.rxpBytes, hbyte]

/-- Settles O37: the phase's end by `decode`, and what `finish` and the post-processing leave. -/
theorem receivePhaseComputesDecode : Obligations.ReceivePhaseComputesDecode := by
  intro s rec left h hp hfresh hin hcol
  obtain ⟨i, hd⟩ := decodeSelector_total (h.captured (by simp [hp])).1
  obtain ⟨m, rx, ⟨e, hdec, hrun⟩ | ⟨r, hdec, hrun, hrep⟩⟩ := run_read_frame hp hin hd h.cfg hfresh hcol
  · refine ⟨_, hrun, rfl, rfl, rfl, fun e' he => ?_, fun r hr => ?_⟩
    · cases hdec.symm.trans he
      exact ⟨rfl, rfl, rfl, rfl⟩
    · cases hdec.symm.trans hr
  · have hi := (decodeSelector_ok hd).1
    obtain ⟨_, _, _, _, hraw, _, _, _, hout, hphase, hdone, herr⟩ := postOf_frame hi (writeRaw (s.received m rx left))
    refine ⟨_, hrun, hphase, hdone, hout, fun e he => ?_, fun r' hr => ?_⟩
    · cases hdec.symm.trans he
    · cases hdec.symm.trans hr
      exact ⟨herr.imp_right And.left, hraw.trans hrep.raw, (postOf_rxpBytes hi _ _).trans hrep.payload⟩

end Sys2Proof.Machine
end

section
/-! PROOFS. A whole operation: from a `GO` to its finish the block computes `exchange`, and the typed operation's checks
and results (R113, R140). -/

namespace Sys2Proof.Machine

/-! ### What the post-processing computes -/

/-- `t` is how operation `i` ends in `s` on response `r`: the result code by its checks, its typed results on success,
none otherwise (R83, R84, R155). -/
def EndsOn (i : Instr) (r : Response) (s t : State) : Prop :=
  t.err = responseResult s.cfg i r ∧
  (t.err = none → t.typed = typedAfter i r.payload s.typed ∧
    ∀ a, t.strByte a = strByteAfter i r.payload (s.strByte a) a) ∧
  (t.err ≠ none → t.typed = s.typed ∧ ∀ a, t.strByte a = s.strByte a)

/-- The success of any operation but `DEVICE_INFO` leaves the string. -/
theorem eq_strByteAfter {i : Instr} (hi : i ≠ .deviceInfo) (p : List Byte) (s : State) (a : Nat) :
    s.strByte a = strByteAfter i p (s.strByte a) a := by
  simp [strByteAfter, hi]

section Post

variable {s : State} {r : Response} (h : s.Reports r)
include h

/-- `R_LEN` is the payload's length. -/
theorem State.Reports.len : s.raw.len.toNat = r.payload.length := by
  rw [h.raw]
  exact lengthByte_toNat h.length

theorem State.Reports.field16 {o : Nat} (ho : o + 1 < r.payload.length) :
    s.field16 o = be16 (r.payload.getD o 0) (r.payload.getD (o + 1) 0) := by
  rw [State.field16, getD_of_rxpBytes h.payload (by omega), getD_of_rxpBytes h.payload ho]

theorem State.Reports.field32 {o : Nat} (ho : o + 3 < r.payload.length) :
    s.field32 o = be32 (r.payload.getD o 0) (r.payload.getD (o + 1) 0) (r.payload.getD (o + 2) 0)
      (r.payload.getD (o + 3) 0) := by
  rw [State.field32, getD_of_rxpBytes h.payload (by omega), getD_of_rxpBytes h.payload (by omega),
    getD_of_rxpBytes h.payload (by omega), getD_of_rxpBytes h.payload ho]

/-- A length check on `R_LEN` is one on the payload. -/
theorem State.Reports.len_beq (n : Nat) : (s.raw.len.toNat == n) = (r.payload.length == n) := by rw [h.len]

/-- The checks of a typed operation decide its result code; on success its extraction gives the typed results. -/
theorem typedPost_endsOn {i : Instr} {accepts : State → Bool} {extract : State → State} (hi : i ≠ .xchg)
    (ha : accepts s = acceptsPayload s.cfg i r.payload)
    (hx : acceptsPayload s.cfg i r.payload = true → (extract s).typed = typedAfter i r.payload s.typed ∧
      ∀ a, (extract s).strByte a = strByteAfter i r.payload (s.strByte a) a) :
    EndsOn i r s (typedPost accepts extract s) := by
  have hstatus : s.raw.status = r.status := congrArg RawResult.status h.raw
  rcases typedPost_cases accepts extract s with ⟨hbad, e⟩ | ⟨hgood, hacc, e⟩
  · have hres : responseResult s.cfg i r = some .protocolError := by
      rw [hstatus, ha] at hbad
      rw [responseResult, if_neg hi]
      rcases hbad with hbad | hbad
      · exact if_pos hbad
      · rw [hbad]
        split <;> rfl
    rw [e]
    exact ⟨hres.symm, nofun, fun _ => ⟨rfl, fun _ => rfl⟩⟩
  · rw [hstatus] at hgood
    rw [ha] at hacc
    have hres : responseResult s.cfg i r = none := by simp [responseResult, hgood, hacc]
    rw [e]
    exact ⟨hres.symm, fun _ => hx hacc, fun hne => absurd rfl hne⟩

/-- The string that `DEVICE_INFO` accepts ends at the payload's first 0x00 (R150). -/
theorem extractString_endsOn (hz : r.payload.contains 0x00 = true) :
    (extractString s).typed = typedAfter .deviceInfo r.payload s.typed ∧
    ∀ a, (extractString s).strByte a = strByteAfter .deviceInfo r.payload (s.strByte a) a := by
  have hterm : s.terminator = some (r.payload.idxOf 0x00) := by
    rw [terminator_of_rxpBytes h.payload h.len, if_pos hz]
  have hlt : r.payload.idxOf 0x00 < r.payload.length := List.idxOf_lt_length_iff.mpr (by simpa using hz)
  rw [extractString_of_terminator hterm]
  refine ⟨rfl, fun a => (strByte_copy s _ a).trans ?_⟩
  by_cases ha : a ≤ r.payload.idxOf 0x00
  · rw [if_pos ha, strByteAfter, if_pos ⟨rfl, ha⟩, getD_of_rxpBytes h.payload (by omega)]
  · rw [if_neg ha, strByteAfter, if_neg fun hj => ha hj.2]

/-- The post-processing of every operation computes its checks and results from the response (R128, R140). -/
theorem postOf_endsOn {i : Instr} (hi : i.hostInvocable = true) (hc : s.cfg.valid) : EndsOn i r s (postOf i s) := by
  obtain ⟨_, _, _, _, hversion⟩ := hc
  cases i with
  | encode | decode => cases hi
  | xchg => exact ⟨rfl, fun _ => ⟨rfl, eq_strByteAfter (by simp) _ s⟩, fun hne => absurd rfl hne⟩
  | readMeasurement =>
    refine typedPost_endsOn h (by simp) (h.len_beq 10) fun ha => ⟨?_, eq_strByteAfter (by simp) _ s⟩
    have hl : r.payload.length = 10 := beq_iff_eq.mp ha
    rw [extractMeasurement_typed, h.field16 (by omega), h.field16 (by omega), h.field16 (by omega),
      h.field16 (by omega), h.field16 (by omega)]
    rfl
  | readAutoclean =>
    refine typedPost_endsOn h (by simp) (h.len_beq 4) fun ha => ⟨?_, eq_strByteAfter (by simp) _ s⟩
    have hl : r.payload.length = 4 := beq_iff_eq.mp ha
    rw [extractAutoclean_typed, h.field32 (by omega)]
    rfl
  | readVersion =>
    refine typedPost_endsOn h (by simp) (h.len_beq _) fun ha => ⟨?_, eq_strByteAfter (by simp) _ s⟩
    have hl : r.payload.length = s.cfg.versionLen := beq_iff_eq.mp ha
    rw [extractVersion_typed, h.field16 (by omega), h.field16 (by omega), h.field16 (by omega)]
    rfl
  | deviceInfo =>
    have hz : s.terminator.isSome = r.payload.contains 0x00 := by
      rw [terminator_of_rxpBytes h.payload h.len]
      cases r.payload.contains 0x00 <;> rfl
    exact typedPost_endsOn h (by simp) hz fun ha => extractString_endsOn h ha
  | writeAutoclean =>
    exact typedPost_endsOn h (by simp) (h.len_beq 0) fun _ => ⟨rfl, eq_strByteAfter (by simp) _ s⟩
  | _ => exact typedPost_endsOn h (by simp) rfl fun _ => ⟨rfl, eq_strByteAfter (by simp) _ s⟩

end Post

/-! ### The two ends of an operation -/

/-- `u` is a state of the operation that has moved the outside as the exchange `x` and written no result. -/
structure ExchangedOnly (s : State) (x : Exchanged) (u : State) : Prop where
  cfg : u.cfg = s.cfg
  opnd : u.opnd = s.opnd
  raw : u.raw = s.raw
  typed : u.typed = s.typed
  str : u.str = s.str
  out : u.out = { s.out with
    inputs := [], txOut := s.out.txOut ++ x.sent, txAnswers := x.answersLeft, rxEvents := x.eventsLeft }

/-- `t` is how operation `i`, started in `s`, ends with the exchange `x` of result `res`. -/
def Completes (s : State) (i : Instr) (x : Exchanged) (res : Except ErrKind Response) (t : State) : Prop :=
  t.phase = .idle ∧ t.done = true ∧ t.cfg = s.cfg ∧ t.opnd = s.opnd ∧
  t.out = { s.out with
    inputs := [], txOut := s.out.txOut ++ x.sent, txAnswers := x.answersLeft, rxEvents := x.eventsLeft } ∧
  (∀ e, res = .error e → t.err = some e ∧ t.raw = s.raw ∧ t.typed = s.typed ∧ ∀ a, t.strByte a = s.strByte a) ∧
  (∀ r, res = .ok r → t.err = responseResult s.cfg i r ∧ t.raw = r.raw ∧ t.rxpBytes r.payload.length = r.payload ∧
    (t.err = none → t.typed = typedAfter i r.payload s.typed ∧
      ∀ a, t.strByte a = strByteAfter i r.payload (s.strByte a) a) ∧
    (t.err ≠ none → t.typed = s.typed ∧ ∀ a, t.strByte a = s.strByte a))

section Ends

variable {s u : State} {i : Instr} {x : Exchanged} (hu : ExchangedOnly s x u)
include hu

/-- An error finishes with no result written. -/
theorem finish_completes (e : ErrKind) : Completes s i x (.error e) (finish (some e) u) := by
  refine ⟨rfl, rfl, hu.cfg, hu.opnd, hu.out, fun e' he => ?_, nofun⟩
  cases he
  exact ⟨rfl, hu.raw, hu.typed, fun a => by rw [finish_strByte, State.strByte, hu.str, State.strByte]⟩

/-- A response goes to the post-processing. -/
theorem postOf_completes (hi : i.hostInvocable = true) (hc : s.cfg.valid) {r : Response}
    (hr : (writeRaw u).Reports r) : Completes s i x (.ok r) (postOf i (writeRaw u)) := by
  obtain ⟨hcfg, hopnd, _, _, hraw, _, _, _, hout, hphase, hdone, _⟩ := postOf_frame hi (writeRaw u)
  have hstr : ∀ a, (writeRaw u).strByte a = s.strByte a := fun a => by
    rw [writeRaw_strByte, State.strByte, hu.str, State.strByte]
  have hcfg' : (writeRaw u).cfg = s.cfg := hu.cfg
  have htyped : (writeRaw u).typed = s.typed := hu.typed
  have hends := postOf_endsOn hr hi (hcfg' ▸ hc)
  simp only [EndsOn, hcfg', htyped, hstr] at hends
  obtain ⟨herr, hgood, hbad⟩ := hends
  refine ⟨hphase, hdone, hcfg.trans hu.cfg, hopnd.trans hu.opnd, hout.trans hu.out, nofun, fun r' he => ?_⟩
  cases he
  exact ⟨herr, hraw.trans hr.raw, (postOf_rxpBytes hi _ _).trans hr.payload, hgood, hbad⟩

end Ends

/-! ### The operation -/

/-- How an exchange comes to the result `res`: `encode` fails, a byte is faulted, `collect` fails, or `decode` has a
frame (R113). -/
inductive ExchangeEnd (c : Config) (cmd : Byte) (payload : List Byte) (answers : List TxAnswer)
    (events : List RxEvent) : Except ErrKind Response → Exchanged → Prop where
  | refused {e : ErrKind} (henc : frameEncode c cmd payload = .error e) :
      ExchangeEnd c cmd payload answers events (.error e) ⟨[], answers, events, some (.error e)⟩
  | writeFault {w sent : List Byte} {left : List TxAnswer} (henc : frameEncode c cmd payload = .ok w)
      (ho : offerAll w answers = (sent, left, some false)) :
      ExchangeEnd c cmd payload answers events (.error .transportError)
        ⟨sent, left, events, some (.error .transportError)⟩
  | readFailed {w sent : List Byte} {left : List TxAnswer} {e : ErrKind} {rest : List RxEvent}
      (henc : frameEncode c cmd payload = .ok w) (ho : offerAll w answers = (sent, left, some true))
      (hcol : collect c events = .failed e rest) :
      ExchangeEnd c cmd payload answers events (.error e) ⟨sent, left, rest, some (.error e)⟩
  | frame {w sent : List Byte} {left : List TxAnswer} {r : List Byte} {rest : List RxEvent}
      (henc : frameEncode c cmd payload = .ok w) (ho : offerAll w answers = (sent, left, some true))
      (hcol : collect c events = .frame r rest) :
      ExchangeEnd c cmd payload answers events (frameDecode c r) ⟨sent, left, rest, some (frameDecode c r)⟩

/-- An exchange that has a result comes to it in one of these ways. -/
theorem exchange_ends {c : Config} {cmd : Byte} {payload : List Byte} {answers : List TxAnswer}
    {events : List RxEvent} {res : Except ErrKind Response}
    (h : (exchange c cmd payload answers events).result = some res) :
    ExchangeEnd c cmd payload answers events res (exchange c cmd payload answers events) := by
  cases henc : frameEncode c cmd payload with
  | error e =>
    simp only [exchange, henc, Option.some.injEq] at h ⊢
    exact h ▸ .refused henc
  | ok w =>
    rcases ho : offerAll w answers with ⟨sent, left, _ | _ | _⟩
    · simp [exchange, henc, ho] at h
    · simp only [exchange, henc, ho, Option.some.injEq] at h ⊢
      exact h ▸ .writeFault henc ho
    · cases hcol : collect c events with
      | waiting rec => simp [exchange, henc, ho, hcol] at h
      | failed e rest =>
        simp only [exchange, henc, ho, hcol, Option.some.injEq] at h ⊢
        exact h ▸ .readFailed henc ho hcol
      | frame r rest =>
        simp only [exchange, henc, ho, hcol, Option.some.injEq] at h ⊢
        exact h ▸ .frame henc ho hcol

/-- The operation in flight from `s` with these bytes of its request sent and these answers left. -/
def State.requesting (s : State) (c : Captured) (m : Memory) (tx : TxMachine) (sent : List Byte)
    (left : List TxAnswer) : State :=
  { s with
    done := false, err := none, cap := c, txp := m, tx := tx
    out := { s.out with inputs := [], txAnswers := left, txOut := s.out.txOut ++ sent } }

/-- The entry to `RX` (R124). -/
def State.enterRx (s : State) : State := { s with phase := .rx, rx := RxMachine.fresh }

theorem requesting_exchangedOnly (s : State) (c : Captured) (m : Memory) (tx : TxMachine) (sent : List Byte)
    (left : List TxAnswer) (res : Option (Except ErrKind Response)) :
    ExchangedOnly s ⟨sent, left, s.out.rxEvents, res⟩ (s.requesting c m tx sent left) :=
  ⟨rfl, rfl, rfl, rfl, rfl, rfl⟩

theorem received_exchangedOnly (s : State) (c : Captured) (m : Memory) (tx : TxMachine) (sent : List Byte)
    (left : List TxAnswer) (m' : Memory) (rx : RxMachine) (rest : List RxEvent)
    (res : Option (Except ErrKind Response)) :
    ExchangedOnly s ⟨sent, left, rest, res⟩ ((s.requesting c m tx sent left).enterRx.received m' rx rest) :=
  ⟨rfl, rfl, rfl, rfl, rfl, rfl⟩

/-- The `GO` step and the transmit phase of a request that `encode` has a frame for: the frame is offered, and all of it
sent, or the part before a fault (R113 steps 1 and 2). -/
theorem run_go_transmit {s : State} {i : Instr} (h : s.Inv) (hi : i.hostInvocable = true)
    (hgo : step s = .next (goOf i (s.withInputs []))) {w sent : List Byte} {left : List TxAnswer} {all : Bool}
    (henc : frameEncode s.cfg (requestCode s i) (requestPayload s i) = .ok w)
    (ho : offerAll w s.out.txAnswers = (sent, left, some all)) :
    ∃ n c m tx, decodeSelector c.op = .ok i ∧ Sys2Proof.core.run n s = .next
      (if all then (s.requesting c m tx sent left).enterRx
        else finish (some .transportError) (s.requesting c m tx sent left)) := by
  obtain ⟨c, m, e, hcmd, hlen, hbytes, hsel⟩ := (goOf_asksForRequest hi (s.withInputs [])).2 w henc
  have hinv := invariantKeptByEveryStep s _ h hgo
  rw [e] at hgo hbytes hinv
  have howed := owedBytes_fresh (s := { s.withInputs [] with
    done := false, err := none, cap := c, txp := m, phase := .tx, tx := TxMachine.fresh }) rfl hlen
    (by rw [hbytes, hcmd]; exact henc)
  obtain ⟨tx, hrun⟩ := run_transmit hinv rfl rfl (howed.symm ▸ ho)
  refine ⟨_, c, m, tx, decodeSelector_of_selector hsel, (core_run_step hgo).trans (hrun.trans ?_)⟩
  cases all <;> rfl

/-- Settles O47: the `GO` step asks for the request, the transmit phase sends its frame, the read phase computes
`decode` of what `collect` records; each of the three may end the operation with the error of `exchange`. -/
theorem operationComputesExchange : Obligations.OperationComputesExchange := by
  intro s i res h hp hd hin x hres
  suffices goal : ∃ n t, Sys2Proof.core.run n s = .next t ∧ Completes s i x res t from goal
  obtain ⟨hi, hsel, _⟩ := decodeSelector_ok hd
  have hgo : step s = .next (goOf i (s.withInputs [])) :=
    ((step_go hin).trans (hostGo_of_selector (s := s.withInputs []) hp hsel)).trans ((exec_by_phase hi _).1 hp)
  have hend : ExchangeEnd _ _ _ _ _ res x := exchange_ends hres
  clear_value x
  cases hend with
  | refused henc =>
    obtain ⟨rfl, c, hend⟩ := (goOf_asksForRequest hi (s.withInputs [])).1 _ henc
    rw [hend] at hgo
    exact ⟨1, _, core_run_step (n := 0) hgo, finish_completes ⟨rfl, rfl, rfl, rfl, rfl, by simp⟩ _⟩
  | @writeFault w sent left henc ho =>
    obtain ⟨n, c, m, tx, _, hrun⟩ := run_go_transmit h hi hgo henc ho
    exact ⟨n, _, hrun, finish_completes (requesting_exchangedOnly s c m tx sent left _) _⟩
  | @readFailed w sent left e rest henc ho hcol =>
    obtain ⟨n, c, m, tx, hd', hrun⟩ := run_go_transmit h hi hgo henc ho
    obtain ⟨k, m', rx, hend⟩ :=
      run_read_failed (s := (s.requesting c m tx sent left).enterRx) rfl rfl hd' rfl hcol
    exact ⟨n + k, _, (core_run_add hrun).trans hend,
      finish_completes (received_exchangedOnly s c m tx sent left m' rx rest _) _⟩
  | @frame w sent left r rest henc ho hcol =>
    obtain ⟨n, c, m, tx, hd', hrun⟩ := run_go_transmit h hi hgo henc ho
    obtain ⟨m', rx, hend⟩ :=
      run_read_frame (s := (s.requesting c m tx sent left).enterRx) rfl rfl hd' h.cfg rfl hcol
    have hu := received_exchangedOnly s c m tx sent left m' rx rest (some (frameDecode s.cfg r))
    rcases hend with ⟨e, hdec, hend⟩ | ⟨r', hdec, hend, hrep⟩
    · exact ⟨n + r.length, _, (core_run_add hrun).trans hend, hdec ▸ finish_completes hu e⟩
    · exact ⟨n + r.length, _, (core_run_add hrun).trans hend, hdec ▸ postOf_completes hu hi h.cfg hrep⟩

end Sys2Proof.Machine
end

section
/-! PROOFS. The Command Layer on a good frame: how an operation that accepts the response completes (R140 to R156),
what a failure leaves (R155), and that the echoed address and command code are not compared (R157). -/

namespace Sys2Proof.Machine

/-! ### Completion -/

/-- In `s` operation `i` ends a good frame in `t` with `ERR` = 0 and the raw results of the frame; beyond these it may
have written typed results only. -/
structure EndsWell (i : Instr) (s t : State) (rest : List RxEvent) : Prop where
  step : exec i s = .next t
  ended : endedWith t none
  raw : t.raw = s.receivedRaw
  frame : endFrame s t rest

/-- What the post-processing of a good frame leaves unchanged. -/
theorem postOf_endFrame {i : Instr} (hi : i.hostInvocable = true) (s : State) (rest : List RxEvent) :
    endFrame s (postOf i (atEnd s rest)) rest := by
  obtain ⟨hcfg, hopnd, htxp, hrxb, _, hcap, htx, hrx, hout, _⟩ := postOf_frame hi (atEnd s rest)
  refine ⟨hcfg, hopnd, hcap, htx, hrx, fun a => ?_, fun a => ?_, hout⟩
  · rw [State.txpByte, htxp]
    rfl
  · rw [State.rxbByte, hrxb]
    rfl

section Accepted

variable {s : State} {len : Nat} {rest : List RxEvent} (h : s.EndsGoodFrame len rest)
  (hs : s.receivedStatus = 0x00)
include h hs

/-- A typed operation whose checks accept the response of a good frame completes with its extraction (R140). -/
theorem endsWell_of_accepted {i : Instr} {accepts : State → Bool} {extract : State → State}
    (hi : i.hostInvocable = true) (hpost : postOf i = typedPost accepts extract)
    (ha : accepts (atEnd s rest) = true) : EndsWell i s (finish none (extract (atEnd s rest))) rest := by
  have hend : postOf i (atEnd s rest) = finish none (extract (atEnd s rest)) := by
    rw [hpost]
    exact typedPost_accepted hs ha
  obtain ⟨_, _, _, _, hraw, _⟩ := postOf_frame hi (atEnd s rest)
  rw [← hend]
  exact ⟨exec_of_good_frame h hi, hend ▸ ⟨rfl, rfl, rfl⟩, hraw, postOf_endFrame hi s rest⟩

/-- An operation whose one check is the payload length, on a response of that length. -/
theorem endsWell_of_length {i : Instr} {extract : State → State} {n : State → Nat} (hi : i.hostInvocable = true)
    (hpost : postOf i = typedPost (fun t => t.raw.len.toNat == n t) extract) (hn : n (atEnd s rest) = len) :
    EndsWell i s (finish none (extract (atEnd s rest))) rest :=
  endsWell_of_accepted h hs hi hpost (beq_iff_eq.mpr (h.declared.trans hn.symm))

end Accepted

/-- Settles O39: an acknowledge-only operation accepts every payload and extracts nothing. -/
theorem acknowledgeOnlyOperationsComplete : Obligations.AcknowledgeOnlyOperationsComplete := by
  intro i hi s len rest h hs
  obtain ⟨hinv, hpost⟩ : i.hostInvocable = true ∧ postOf i = typedPost (fun _ => true) id := by
    simp only [List.mem_cons, List.not_mem_nil, or_false] at hi
    rcases hi with rfl | rfl | rfl | rfl | rfl | rfl <;> exact ⟨rfl, rfl⟩
  have w := endsWell_of_accepted h hs hinv hpost rfl
  exact ⟨_, w.step, w.ended, w.raw, rfl, fun _ => rfl, w.frame⟩

/-- Settles O40: the extraction writes the five fields at offsets 0, 2, 4, 6 and 8. -/
theorem readMeasurementCompletes : Obligations.ReadMeasurementCompletes := by
  intro s rest h hs
  have w := endsWell_of_length h hs (i := .readMeasurement) (n := fun _ => 10) rfl rfl rfl
  exact ⟨_, w.step, w.ended, w.raw, be16_toNat _ _, be16_toNat _ _, be16_toNat _ _, be16_toNat _ _, be16_toNat _ _,
    rfl, fun _ => rfl, w.frame⟩

/-- Settles O41: the extraction writes the one 32-bit field at offset 0. -/
theorem readAutocleanCompletes : Obligations.ReadAutocleanCompletes := by
  intro s rest h hs
  have w := endsWell_of_length h hs (i := .readAutoclean) (n := fun _ => 4) rfl rfl rfl
  exact ⟨_, w.step, w.ended, w.raw, be32_toNat _ _ _ _, rfl, fun _ => rfl, w.frame⟩

/-- Settles O42: the empty response is accepted and nothing is extracted. -/
theorem writeAutocleanCompletes : Obligations.WriteAutocleanCompletes := by
  intro s rest h hs
  have w := endsWell_of_length h hs (i := .writeAutoclean) (n := fun _ => 0) rfl rfl rfl
  exact ⟨_, w.step, w.ended, w.raw, rfl, fun _ => rfl, w.frame⟩

/-- Settles O43: the first 0x00 of the payload is the terminator, up to which the string is copied. -/
theorem deviceInfoCompletes : Obligations.DeviceInfoCompletes := by
  intro s len z rest h hs hz hzero hfirst
  have hdecl : (atEnd s rest).raw.len.toNat = len := h.declared
  have hterm : (atEnd s rest).terminator = some z := terminator_eq_some.mpr ⟨hdecl.symm ▸ hz, hzero, hfirst⟩
  have hz8 : z < 2 ^ 8 := hz.trans (hdecl ▸ (atEnd s rest).raw.len.isLt)
  have w := endsWell_of_accepted h hs (i := .deviceInfo) rfl rfl (Option.isSome_of_eq_some hterm)
  rw [extractString_of_terminator hterm] at w
  exact ⟨_, w.step, w.ended, w.raw, strByte_copy (atEnd s rest) z,
    (BitVec.toNat_ofNat z 8).trans (Nat.mod_eq_of_lt hz8), rfl, w.frame⟩

/-- Settles O44: the extraction writes the three fields at offsets 0, 2 and 4. -/
theorem readVersionCompletes : Obligations.ReadVersionCompletes := by
  intro s rest h hs
  have w := endsWell_of_length h hs (i := .readVersion) (n := fun t => t.cfg.versionLen) rfl rfl rfl
  exact ⟨_, w.step, w.ended, w.raw, be16_toNat _ _, be16_toNat _ _, be16_toNat _ _, rfl, fun _ => rfl, w.frame⟩

/-! ### Failure -/

theorem strByte_congr {s t : State} (h : t.str = s.str) (a : Nat) : t.strByte a = s.strByte a := by
  rw [State.strByte, h, State.strByte]

/-- Settles O49: results are written at the end of a good frame only, and there the one error is `ProtocolError`, with
the raw results alone written. -/
theorem failureKeepsTheResults : Obligations.FailureKeepsTheResults := by
  intro s t i h hfail
  rcases (exec_opStep h).results_eq_or_good with ⟨hraw, htyped, hstr⟩ | ⟨rest, hi, _, rfl⟩
  · exact ⟨htyped, strByte_congr hstr, fun _ => hraw⟩
  · obtain ⟨_, _, _, _, _, _, _, _, _, _, _, hgood | ⟨hprot, htyped, hstr⟩⟩ := postOf_frame hi (atEnd s rest)
    · exact absurd hgood hfail
    · exact ⟨htyped, strByte_congr (s := atEnd s rest) hstr, fun hne => absurd hprot hne⟩

/-! ### The echoed address and command code -/

/-- `RXB` with other address and command bytes (R75). -/
def echoed (adr cmd : Byte) (m : Memory) : Memory := (m.set 0 adr).set 1 cmd

/-- The state with another address and command code in `RXB`. -/
def State.withEchoedRxb (adr cmd : Byte) (s : State) : State := { s with rxb := echoed adr cmd s.rxb }

/-- The state with another address and command code in `RXB` and reported. -/
def State.withEcho (adr cmd : Byte) (s : State) : State :=
  { s.withEchoedRxb adr cmd with raw := { s.raw with adr := adr, cmd := cmd } }

section Echo

variable (adr cmd : Byte) (s : State)

/-- Every byte of the body after the first two stays. -/
theorem rxbByte_withEchoedRxb {a : Nat} (ha : 2 ≤ a) : (s.withEchoedRxb adr cmd).rxbByte a = s.rxbByte a := by
  have h0 : a ≠ 0 := by omega
  have h1 : a ≠ 1 := by omega
  simp [State.rxbByte, State.withEchoedRxb, echoed, Memory.get?_set, h0, h1]

/-- The length byte is the last of the header (R75). -/
theorem lengthByte_withEchoedRxb :
    (s.withEchoedRxb adr cmd).rxbByte (s.cfg.headerLen - 1) = s.rxbByte (s.cfg.headerLen - 1) := by
  have hlen := headerLen_cases s.cfg
  exact rxbByte_withEchoedRxb adr cmd s (by omega)

/-- The payload lies after the header, of at least three bytes. -/
theorem rxpByte_withEcho : (s.withEcho adr cmd).rxpByte = s.rxpByte := by
  have hlen := headerLen_cases s.cfg
  exact funext fun k => rxbByte_withEchoedRxb adr cmd s (a := s.cfg.headerLen + k) (by omega)

theorem field16_withEcho : (s.withEcho adr cmd).field16 = s.field16 := by
  funext o
  simp only [State.field16, rxpByte_withEcho]

theorem field32_withEcho : (s.withEcho adr cmd).field32 = s.field32 := by
  funext o
  simp only [State.field32, rxpByte_withEcho]

theorem terminator_withEcho : (s.withEcho adr cmd).terminator = s.terminator := by
  rw [State.terminator, rxpByte_withEcho]
  rfl

/-- The evaluation reports the bytes replaced, with the status and length of the rest of the header (R127). -/
theorem receivedRaw_withEchoedRxb :
    (s.withEchoedRxb adr cmd).receivedRaw = { s.receivedRaw with adr := adr, cmd := cmd } := by
  have hstatus : (s.withEchoedRxb adr cmd).receivedStatus = s.receivedStatus := by
    rw [State.receivedStatus, rxbByte_withEchoedRxb adr cmd s (le_refl 2)]
    rfl
  have hadr : (s.withEchoedRxb adr cmd).rxbByte 0 = adr := by
    simp [State.rxbByte, State.withEchoedRxb, echoed, Memory.get?_set]
  have hcmd : (s.withEchoedRxb adr cmd).rxbByte 1 = cmd := by
    simp [State.rxbByte, State.withEchoedRxb, echoed]
  rw [State.receivedRaw, hadr, hcmd, hstatus]
  exact congrArg (RawResult.mk adr cmd s.receivedStatus) (lengthByte_withEchoedRxb adr cmd s)

theorem atEnd_withEchoedRxb (rest : List RxEvent) :
    atEnd (s.withEchoedRxb adr cmd) rest = (atEnd s rest).withEcho adr cmd := by
  rw [atEnd, receivedRaw_withEchoedRxb]
  rfl

/-- The checks and the extraction of a typed operation, where neither looks at the echo. -/
theorem typedPost_withEcho {accepts : State → Bool} {extract : State → State}
    (ha : accepts (s.withEcho adr cmd) = accepts s)
    (he : extract (s.withEcho adr cmd) = (extract s).withEcho adr cmd) :
    typedPost accepts extract (s.withEcho adr cmd) = (typedPost accepts extract s).withEcho adr cmd := by
  have same : (s.withEcho adr cmd).raw.status = s.raw.status := rfl
  unfold typedPost
  rw [ha, he, same]
  split
  · rfl
  · split <;> rfl

theorem extractString_withEcho : extractString (s.withEcho adr cmd) = (extractString s).withEcho adr cmd := by
  have hterm := terminator_withEcho adr cmd s
  cases hz : s.terminator with
  | none => simp only [extractString, hterm, hz]
  | some z =>
    rw [extractString_of_terminator hz, extractString_of_terminator (hterm.trans hz), State.rxpBytes,
      rxpByte_withEcho]
    rfl

/-- No operation's post-processing looks at the echo (R157). -/
theorem postOf_withEcho (i : Instr) : postOf i (s.withEcho adr cmd) = (postOf i s).withEcho adr cmd := by
  unfold postOf
  cases i with
  | encode | decode | xchg => rfl
  | readMeasurement =>
    refine typedPost_withEcho adr cmd s rfl ?_
    rw [extractMeasurement, field16_withEcho]
    rfl
  | readAutoclean =>
    refine typedPost_withEcho adr cmd s rfl ?_
    rw [extractAutoclean, field32_withEcho]
    rfl
  | readVersion =>
    refine typedPost_withEcho adr cmd s rfl ?_
    rw [extractVersion, field16_withEcho]
    rfl
  | deviceInfo =>
    exact typedPost_withEcho adr cmd s (congrArg Option.isSome (terminator_withEcho adr cmd s))
      (extractString_withEcho adr cmd s)
  | writeAutoclean => exact typedPost_withEcho adr cmd s rfl rfl
  | _ => exact typedPost_withEcho adr cmd s (accepts := fun _ => true) (extract := id) rfl rfl

/-- The checks of `decode` on a good frame do not look at the echo. -/
theorem State.EndsGoodFrame.withEchoedRxb {s : State} {len : Nat} {rest : List RxEvent}
    (h : s.EndsGoodFrame len rest) : (s.withEchoedRxb adr cmd).EndsGoodFrame len rest :=
  { h with declared := (congrArg BitVec.toNat (lengthByte_withEchoedRxb adr cmd s)).trans h.declared }

end Echo

/-- Settles O57: with another echo the frame still ends well, and its post-processing differs in `RXB` and the raw
report of the echo only. -/
theorem responseEchoIsNotCompared : Obligations.ResponseEchoIsNotCompared := by
  intro s t i adr cmd len rest hi h ht
  cases (exec_of_good_frame h hi).symm.trans ht
  have hstep : exec i (s.withEchoedRxb adr cmd) = .next ((postOf i (atEnd s rest)).withEcho adr cmd) := by
    rw [exec_of_good_frame (h.withEchoedRxb adr cmd) hi, atEnd_withEchoedRxb, postOf_withEcho]
  exact ⟨_, hstep, rfl, rfl, rfl, rfl, fun _ => rfl, rfl⟩

end Sys2Proof.Machine
end

section
/-! PROOFS. The errors and the streams (60_exceptions.md): where `EncodingError` and `ProtocolError` come from (R171,
R177), when the streams of the transport move (R183), and the end of a fair read phase (R191). -/

namespace Sys2Proof.Machine

/-! ### `EncodingError` -/

/-- The next step of operation `i` is the `GO` step that refuses a length above 255 (R108, R121). -/
def refusesGo (i : Instr) (s : State) : Prop := s.phase = .idle ∧ i = .xchg ∧ 256 ≤ s.opnd.argLen.toNat

/-- A step of a host-invocable operation is the refusing `GO` step, or it raises no `EncodingError` (R171). -/
theorem OpStep.encodingError_cases {i : Instr} {s t : State} (hst : OpStep i s t) (hi : i.hostInvocable = true)
    (hbusy : s.phase ≠ .idle → s.err ≠ some .encodingError) :
    (refusesGo i s ∧ t.err = some .encodingError ∧ t.out = s.out) ∨
    (¬ refusesGo i s ∧ t.err ≠ some .encodingError) := by
  have busy : s.phase ≠ .idle → t.err ≠ some .encodingError → ¬ refusesGo i s ∧ t.err ≠ some .encodingError :=
    fun hp ht => ⟨fun hgo => hp hgo.1, ht⟩
  cases hst with
  | unit hunit => exact absurd hi (by simp [hunit])
  | goRefused hx hp hl c ht => subst t; exact .inl ⟨⟨hp, hx, hl⟩, rfl, rfl⟩
  | go _ hp hx c payload _ _ _ ht =>
    subst t
    refine .inr ⟨fun ⟨_, hxchg, hl⟩ => ?_, nofun⟩
    exact absurd (hx hxchg) (Nat.not_le.mpr hl)
  | waits hq ht =>
    have hp : s.phase ≠ .idle := by rcases hq with ⟨hp, _⟩ | ⟨hp, _⟩ <;> simp [hp]
    exact .inr (busy hp (ht ▸ hbusy hp))
  | txFault hp rest _ ht => subst t; exact .inr (busy (by simp [hp]) (by simp))
  | rxFail hp _ rest _ e hne _ rx ht => subst t; exact .inr (busy (by simp [hp]) (by simpa using hne))
  | rxGood _ hp rest _ _ _ _ _ _ _ ht =>
    obtain ⟨_, _, _, _, _, _, _, _, _, _, _, herr⟩ := postOf_frame hi (atEnd s rest)
    refine .inr (busy (by simp [hp]) ?_)
    rcases herr with herr | ⟨herr, _⟩ <;> simp [ht, herr]
  | txByte _ hp | txEnd _ hp | rxByte _ hp | rxPush _ hp =>
    have hp' : s.phase ≠ .idle := by simp [hp]
    subst t
    exact .inr (busy hp' (hbusy hp'))

/-- Settles O29: of the steps of an operation, the refusing `GO` step of `XCHG` alone raises the error. -/
theorem encodingErrorOnlyFromXchg : Obligations.EncodingErrorOnlyFromXchg := by
  intro s t i hbusy hi h
  rcases (exec_opStep h).encodingError_cases hi hbusy with ⟨hgo, herr, hout⟩ | ⟨hgo, herr⟩
  · exact ⟨iff_of_true herr hgo, fun _ => hout⟩
  · exact ⟨iff_of_false herr hgo, fun he => absurd he herr⟩

/-! ### `ProtocolError` -/

/-- The payload reported in `RXP` and `R_LEN` is not one operation `i` requires (R83, R177). -/
def refusesPayload (i : Instr) (s : State) : Prop :=
  (i = .readMeasurement ∧ s.raw.len.toNat ≠ 10) ∨ (i = .readAutoclean ∧ s.raw.len.toNat ≠ 4) ∨
  (i = .writeAutoclean ∧ s.raw.len.toNat ≠ 0) ∨ (i = .readVersion ∧ s.raw.len.toNat ≠ s.cfg.versionLen) ∨
  (i = .deviceInfo ∧ ∀ j, j < s.raw.len.toNat → s.rxpByte j ≠ 0x00)

/-- A typed operation's checks end it with `ProtocolError` or with no error (R140, R141). -/
theorem typedPost_protocolError_iff (accepts : State → Bool) (extract : State → State) (s : State) :
    (typedPost accepts extract s).err = some .protocolError ↔ s.raw.status ≠ 0x00 ∨ accepts s = false := by
  rcases typedPost_cases accepts extract s with ⟨hbad, e⟩ | ⟨hstatus, hacc, e⟩
  · exact iff_of_true (by rw [e, finish_err]) hbad
  · simp [e, hstatus, hacc]

/-- The post-processing ends with `ProtocolError` for a typed operation's bad status or refused payload (R177). -/
theorem postOf_protocolError_iff {i : Instr} (hi : i.hostInvocable = true) (s : State) :
    (postOf i s).err = some .protocolError ↔ i ≠ .xchg ∧ (s.raw.status ≠ 0x00 ∨ refusesPayload i s) := by
  cases i with
  | encode | decode => cases hi
  | xchg => simp [postOf]
  | deviceInfo =>
    refine (typedPost_protocolError_iff _ _ s).trans ?_
    simp [refusesPayload, terminator_eq_none]
  | _ =>
    refine (typedPost_protocolError_iff _ _ s).trans ?_
    simp [refusesPayload]

/-- Settles O46: the post-processing of a good frame makes the checks on the response the frame reports; where it
refuses, the results other than the raw ones stay. -/
theorem protocolErrorExactlyOnRefusedResponses : Obligations.ProtocolErrorExactlyOnRefusedResponses := by
  intro s i len rest hi h refused
  have hlen : (atEnd s rest).raw.len.toNat = len := h.declared
  have hiff : (postOf i (atEnd s rest)).err = some .protocolError ↔ refused := by
    rw [postOf_protocolError_iff hi, refusesPayload, hlen]
    rfl
  refine ⟨_, exec_of_good_frame h hi, hiff, fun hrefused => ?_⟩
  have herr := hiff.mpr hrefused
  obtain ⟨_, _, _, _, hraw, _, _, _, _, hphase, hdone, hgood | ⟨_, htyped, hstr⟩⟩ := postOf_frame hi (atEnd s rest)
  · cases hgood.symm.trans herr
  · exact ⟨⟨hphase, hdone, herr⟩, hraw, htyped, strByte_congr (s := atEnd s rest) hstr, postOf_endFrame hi s rest⟩

/-! ### The streams -/

/-- How a step may move the streams of the transport (R183): not at all; one event taken in `RX`; in `TX` one answer
taken, of a byte faulted or of one sent. -/
inductive StreamMove (s t : State) : Prop where
  | stays (hrx : t.out.rxEvents = s.out.rxEvents) (htx : t.out.txAnswers = s.out.txAnswers)
      (hsent : t.out.txOut = s.out.txOut)
  | event (hp : s.phase = .rx) (ev : RxEvent) (hrx : s.out.rxEvents = ev :: t.out.rxEvents)
      (htx : t.out.txAnswers = s.out.txAnswers) (hsent : t.out.txOut = s.out.txOut)
  | faulted (hp : s.phase = .tx) (hrx : t.out.rxEvents = s.out.rxEvents)
      (htx : s.out.txAnswers = .fault :: t.out.txAnswers) (hsent : t.out.txOut = s.out.txOut)
  | accepted (hp : s.phase = .tx) (x : Byte) (hrx : t.out.rxEvents = s.out.rxEvents)
      (htx : s.out.txAnswers = .accept :: t.out.txAnswers) (hsent : t.out.txOut = s.out.txOut ++ [x])

/-- Every step of an operation moves the streams in one of these ways. -/
theorem OpStep.streamMove {i : Instr} {s t : State} (hst : OpStep i s t) : StreamMove s t := by
  cases hst with
  | unit | goRefused | go | waits => subst t; exact .stays rfl rfl rfl
  | txFault hp rest ha => subst t; exact .faulted hp rfl ha rfl
  | txByte _ hp rest ha | txEnd _ hp _ rest ha => subst t; exact .accepted hp _ rfl ha rfl
  | rxFail hp ev rest ha => subst t; exact .event hp ev ha rfl rfl
  | rxByte _ hp b rest ha | rxPush _ hp b _ rest ha => subst t; exact .event hp _ ha rfl rfl
  | rxGood hi hp rest ha _ _ _ _ _ _ ht =>
    obtain ⟨_, _, _, _, _, _, _, _, hout, _⟩ := postOf_frame hi (atEnd s rest)
    subst t
    exact .event hp _ (by rw [hout]; exact ha) (by rw [hout]; rfl) (by rw [hout]; rfl)

/-- So does every step of the machine. -/
theorem streamMove_of_step {s t : State} (h : step s = .next t) : StreamMove s t := by
  have op : ∀ {is i}, exec i (s.withInputs is) = .next t → StreamMove s t := fun e => by
    obtain ⟨h1, h2, h3⟩ | ⟨hp, ev, h1, h2, h3⟩ | ⟨hp, h1, h2, h3⟩ | ⟨hp, x, h1, h2, h3⟩ := (exec_opStep e).streamMove
    exacts [.stays h1 h2 h3, .event hp ev h1 h2 h3, .faulted hp h1 h2 h3, .accepted hp x h1 h2 h3]
  rcases step_cases h with ⟨is, rfl⟩ | ⟨is, i, _, _, e⟩ | ⟨is, i, _, _, e⟩ | ⟨is, w, _, rfl⟩ | ⟨is, r, rfl⟩ |
    ⟨is, _, rfl⟩ | ⟨is, u, e⟩
  · exact .stays rfl rfl rfl
  · exact op e
  · exact op e
  · obtain ⟨_, _, _, _, _, _, _, _, _, _, _, hout⟩ := applyWrite_frame w (s.withInputs is)
    exact .stays (by rw [hout]; rfl) (by rw [hout]; rfl) (by rw [hout]; rfl)
  · obtain ⟨d, n, e⟩ := hostRead_frame r (s.withInputs is)
    exact .stays (by rw [e]; rfl) (by rw [e]; rfl) (by rw [e]; rfl)
  · exact .stays rfl rfl rfl
  · exact op e

/-- Settles O53: what each move of the streams takes and sends. -/
theorem streamsMoveOnlyInTheirPhase : Obligations.StreamsMoveOnlyInTheirPhase := by
  intro s t h
  cases streamMove_of_step h with
  | stays hrx htx hsent => exact ⟨.inl hrx, .inl htx, .inl hsent⟩
  | event hp ev hrx htx hsent => exact ⟨.inr ⟨hp, ev, hrx⟩, .inl htx, .inl hsent⟩
  | faulted hp hrx htx hsent => exact ⟨.inl hrx, .inr ⟨hp, _, htx⟩, .inl hsent⟩
  | accepted hp x hrx htx hsent => exact ⟨.inl hrx, .inr ⟨hp, _, htx⟩, .inr ⟨hp, x, hsent⟩⟩

/-! ### The end of a fair read phase -/

/-- The first of two missing `FLAG` bytes leaves one to come. -/
theorem readPhaseEnds_flag (c : Config) (rest : List RxEvent) :
    readPhaseEnds c 2 (.byte c.flag :: rest) = readPhaseEnds c 1 rest := by
  simp [readPhaseEnds]

/-- Another byte leaves as many `FLAG` bytes to come. -/
theorem readPhaseEnds_other {c : Config} {b : Byte} (hb : b ≠ c.flag) (n : Nat) (rest : List RxEvent) :
    readPhaseEnds c n (.byte b :: rest) = readPhaseEnds c n rest := by
  simp [readPhaseEnds, hb]

/-- A byte that moves only the receive machine counts off the `FLAG` bytes to come (R115, R125). -/
theorem RxMove.readPhaseEnds_eq {s : State} {b : Byte} {rx : RxMachine} (hm : RxMove s b rx) (h : s.Inv)
    (hp : s.phase = .rx) (rest : List RxEvent) :
    readPhaseEnds s.cfg s.flagsMissing (.byte b :: rest) =
      readPhaseEnds s.cfg (State.flagsMissing { s with rx := rx }) rest := by
  have first : b = s.cfg.flag → s.rx.flags = .zero →
      readPhaseEnds s.cfg s.flagsMissing (.byte b :: rest) = readPhaseEnds s.cfg 1 rest := by
    rintro rfl hf
    rw [State.flagsMissing, hf]
    exact readPhaseEnds_flag s.cfg rest
  cases hm with
  | opening ha hb => exact first hb (by rw [h.rxFirst hp ha]; rfl)
  | lateFlag _ hb hf => exact first hb hf
  | badLead _ hb | badEscape _ hb | escape _ hb | dropped _ hb => exact readPhaseEnds_other hb _ rest

/-- A step of an operation on an event of the RX stream ends the operation, or it goes on in `RX` with the events left
and the end of the read phase still among them. -/
theorem OpStep.read_ends_or_goes_on {i : Instr} {s t : State} (hst : OpStep i s t) (hi : i.hostInvocable = true)
    (h : s.Inv) (hp : s.phase = .rx) {ev : RxEvent} {rest : List RxEvent} (hev : s.out.rxEvents = ev :: rest) :
    (t.phase = .idle ∧ t.done = true) ∨
    (t.phase = .rx ∧ t.out = { s.out with rxEvents := rest } ∧
      readPhaseEnds s.cfg s.flagsMissing (ev :: rest) = readPhaseEnds s.cfg t.flagsMissing rest) := by
  cases hst with
  | unit hunit => exact absurd hi (by simp [hunit])
  | goRefused _ hp' | go _ hp' | txFault hp' | txByte _ hp' | txEnd _ hp' => cases hp.symm.trans hp'
  | waits hq => simp [hp, hev] at hq
  | rxFail _ _ _ _ _ _ _ _ ht => subst t; exact .inl ⟨rfl, rfl⟩
  | rxGood _ _ rest' _ _ _ _ _ _ _ ht =>
    obtain ⟨_, _, _, _, _, _, _, _, _, hphase, hdone, _⟩ := postOf_frame hi (atEnd s rest')
    exact .inl (ht ▸ ⟨hphase, hdone⟩)
  | rxByte _ _ b _ ha rx hm ht =>
    cases hev.symm.trans ha
    subst t
    exact .inr ⟨hp, rfl, hm.readPhaseEnds_eq h hp rest⟩
  | rxPush _ _ b v _ ha hb _ _ _ ht =>
    cases hev.symm.trans ha
    subst t
    exact .inr ⟨hp, rfl, readPhaseEnds_other hb _ rest⟩

/-- Settles O38, by induction on the events: each step takes one, and the one that ends the phase is among them. -/
theorem readPhaseEndsUnderFairness : Obligations.ReadPhaseEndsUnderFairness := by
  intro s h hp hin hfair
  generalize hev : s.out.rxEvents = events at hfair ⊢
  induction events generalizing s with
  | nil => cases hfair
  | cons ev rest ih =>
    obtain ⟨i, _, hi, hbusy⟩ := h.step_busy (by simp [hp]) hin
    obtain ⟨t, hexec⟩ := exec_next i s
    have hstep : step s = .next t := hbusy.trans hexec
    have hop := exec_opStep hexec
    rcases hop.read_ends_or_goes_on hi h hp hev with ⟨hphase, hdone⟩ | ⟨hphase, hout, hends⟩
    · exact ⟨1, t, by simp, core_run_step (n := 0) hstep, hphase, hdone⟩
    · have hfair' : readPhaseEnds t.cfg t.flagsMissing rest = true := by rw [hop.cfg_eq, ← hends, hfair]
      obtain ⟨n, u, hn, hrun, hend⟩ := ih t (invariantKeptByEveryStep s t h hstep) hphase (by rw [hout]; exact hin)
        (by rw [hout]) hfair'
      exact ⟨n + 1, u, Nat.succ_le_succ hn, (core_run_step hstep).trans hrun, hend⟩

end Sys2Proof.Machine
end

section
/-! PROOFS. Reset and hazards (70_reset_and_hazards.md): the accesses that are faults of the host (R207, R208), the
reset event (R200), and the wait for a transport that never answers (R211). -/

namespace Sys2Proof.Machine

/-! ### Faults of the host -/

/-- A faulting step leaves no later state: every run that takes it stops with its fault. -/
theorem core_run_fault {s : State} {r : Fault} (h : step s = .fault r) (n : Nat) :
    Sys2Proof.core.run (n + 1) s = .fault r := by
  rw [core_run_succ, h]

/-- A `GO` while `BUSY` = 1 is a fault, whatever `OP` holds (R207; log 9 for the reserved selectors). -/
theorem hostGo_busy {s : State} (hs : s.busy = true) : hostGo s = .fault .goWhileBusy := if_pos hs

/-- While `BUSY` = 1 a write to an operand register or to `TXP` is a fault (R208). -/
theorem hostWrite_busy {w : HostWrite} (hw : ∀ v, w ≠ .go v) {s : State} (hs : s.busy = true) :
    hostWrite w s = .fault .operandWriteWhileBusy := by
  cases w with
  | go v => exact absurd rfl (hw v)
  | _ => exact if_pos hs

/-- Settles O18: the write is the next thing that happens, and a `GO` of a busy block is the fault. -/
theorem goWhileBusyFaults : Obligations.GoWhileBusyFaults := by
  intro s rest hs h
  have hstep : step s = .fault .goWhileBusy := (step_go h).trans (hostGo_busy (s := s.withInputs rest) hs)
  exact ⟨hstep, core_run_fault hstep⟩

/-- Settles O19: the write is the next thing that happens, and an operand write to a busy block is the fault. -/
theorem operandWriteWhileBusyFaults : Obligations.OperandWriteWhileBusyFaults := by
  intro s w rest hs h hw
  have hstep : step s = .fault .operandWriteWhileBusy :=
    (step_write h).trans (hostWrite_busy hw (s := s.withInputs rest) hs)
  exact ⟨hstep, core_run_fault hstep⟩

/-! ### The reset event -/

/-- The reset event at the front of the inputs is the next thing that happens, in any phase (R200). -/
theorem step_resetEvent {s : State} {rest : List Input} (h : s.out.inputs = .resetEvent :: rest) :
    step s = .next (resetEvent (s.withInputs rest)) := by
  simp only [step, nextStep, h, takeInput]

/-- The reset event gives the state after reset, but for the parameters and the outside (R45, R200, R202). -/
theorem resetEvent_eq (s : State) : resetEvent s = { State.reset with cfg := s.cfg, out := s.out } := rfl

/-- Settles O25: the step is the reset event, which keeps the parameters and the outside. -/
theorem resetEventAbandonsTheOperation : Obligations.ResetEventAbandonsTheOperation :=
  fun s rest h => ⟨resetEvent (s.withInputs rest), step_resetEvent h, resetEvent_eq (s.withInputs rest)⟩

/-! ### The unanswered write -/

/-- With no answer from the transport a transmit step waits (R114). -/
theorem txStep_unanswered {s : State} (ha : s.out.txAnswers = []) : txStep s = s := by
  simp only [txStep, ha]

/-- A state that steps to itself is never left. -/
theorem core_run_fixed {s : State} (h : step s = .next s) (n : Nat) : Sys2Proof.core.run n s = .next s := by
  induction n with
  | zero => rfl
  | succ n ih => exact (core_run_step h).trans ih

/-- Settles O32: the wait is a step from the state to itself, and the invariant says that `ERR` is 0 while busy. -/
theorem unansweredWriteWaitsForEver : Obligations.UnansweredWriteWaitsForEver := by
  intro s h hp hin ha n
  have hbusy : s.phase ≠ .idle := by simp [hp]
  have hstep : step s = .next s := by rw [h.step_tx hp hin, txStep_unanswered ha]
  exact ⟨core_run_fixed hstep n, (busy_eq_true_iff s).mpr hbusy, (h.flags hbusy).2⟩

end Sys2Proof.Machine
end
